-- ==== Sys2Proof/Word.lean ====
section
/-! DEFINITION. The machine words of OWPE (spec/00_scope.md R11, R14; spec/20_memory.md R51) and the logic level. -/

namespace Sys2Proof

/-- A byte, 8-bit unsigned (00 R14). -/
abbrev Byte := BitVec 8

/-- A command or response word (30 R83, R88). -/
abbrev Word := BitVec 32

/-- The `arg` field of a command and the `data` field of a response (30 R83, R88). -/
abbrev Half := BitVec 16

/-- A pin identifier: opaque, 8-bit, every value legal (00 R11, 10 R22). -/
abbrev PinId := BitVec 8

/-- A ROM code, eight bytes held as the 64-bit number `A` of 20 R51: `A[8i+7:8i] = rom[i]`, and search position `p` is
`A[p-1]`. The spec allows either form. -/
abbrev RomCode := BitVec 64

/-- A logic level of a line (00 R14): `L` is low, 0; `H` is high, 1. -/
inductive Level
  | low
  | high
  deriving DecidableEq, Repr, Inhabited

end Sys2Proof
end

