-- ==== Sys2Proof/Config.lean ====
section
/-! DEFINITION. What an implementation fixes (spec/00_scope.md R11 to R13, spec/10_state.md R36) and the free values: what
the spec leaves to the environment or calls unspecified. A free value is an opaque constant: nothing can be proved of it. -/

namespace Sys2Proof

/-- The timing table (00 R12), in microseconds. Only `Delay` arguments depend on it (00 R13). -/
structure Timing where
  /-- `T_RSTL`, reset low time. -/
  tRstl : Nat
  /-- `T_PDS`, delay from release to the presence sample. -/
  tPds : Nat
  /-- `T_RSTH`, wait after the presence sample. -/
  tRsth : Nat
  /-- `T_W1L`, low time of a write-1 slot. -/
  tW1l : Nat
  /-- `T_W0L`, low time of a write-0 slot. -/
  tW0l : Nat
  /-- `T_SLOT`, total slot duration. -/
  tSlot : Nat
  /-- `T_REC`, recovery gap after a write slot. -/
  tRec : Nat
  /-- `T_RDL`, low pulse that opens a read slot. -/
  tRdl : Nat
  /-- `T_RDS`, delay from release to the read sample. -/
  tRds : Nat
  deriving DecidableEq, Repr

/-- The defaults of 00 R12. PRESUMED: the spec marks the numbers as its choice from general knowledge (93 G2; log 2).
Safe: no result depends on them. -/
def Timing.standard : Timing :=
  { tRstl := 480, tPds := 70, tRsth := 410, tW1l := 6, tW0l := 60, tSlot := 70, tRec := 1, tRdl := 6, tRds := 9 }

/-- The parameters of one instance of OWPE: static, changed by no operation (00 R11, R12; 10 R36). -/
structure Config where
  /-- `N_BUS`, capacity of the bus registry. -/
  nBus : Nat
  /-- `L_BUF`, size in bytes of the data buffer. -/
  lBuf : Nat
  /-- The timing table. -/
  timing : Timing
  deriving DecidableEq, Repr

/-- The configuration of the test vectors (00 R11: "`N_BUS = 2` and `L_BUF = 16`"). DESIGN CHOICE: the spec leaves both
numbers OPEN, and `State.reset` must carry some (log 1). Unsafe for a claim about `State.reset` alone. -/
def Config.vectors : Config := { nBus := 2, lBuf := 16, timing := Timing.standard }

/-- The level that sample number `n` finds on the line when the environment's script says nothing: any level
(20 R57: "a model must accept either answer at every sample"; log 5). -/
opaque Config.freeSample : Nat → Level

/-- The byte that address `a` of DBUF holds after hardware reset number `epoch` until it is written: any byte
(10 R42: "unspecified: any byte value; a model must not assume 0"; log 3). -/
opaque Config.freeDbuf : Nat → Nat → Byte

/-- What the command register holds after hardware reset number `epoch` (10 R42: "unspecified, not readable"; log 4). -/
opaque Config.freeCmd : Nat → Word

/-- `F_CLK`, cycles per microsecond: OPEN, and "no rule uses it" (92 D30, 70 R250; log 21). -/
opaque Config.fClk : Nat

end Sys2Proof
end

