-- ==== Sys2Proof/Syntax.lean ====
section
/-! DEFINITION. The operations of OWPE (spec/30_encoding.md R86): one constructor per row of spec/opcode_table.json, with the
operands 30 R84 gives it. Handles, indexes and lengths are numbers; a byte and a pin identifier are 8 bits. -/

namespace Sys2Proof

/-- An operation (command). `h` is a handle, `idx` a DBUF index, `len` a number of DBUF bytes, `i` a byte of a ROM code. -/
inductive Instr
  | acquire (pin : PinId)
  | lookup (pin : PinId)
  | bufWr (idx : Nat) (byte : Byte)
  | bufRd (idx : Nat)
  | rdState (h : Nat)
  | rdRom (h : Nat) (i : Fin 8)
  | reset (h : Nat)
  | writeBit (h : Nat) (bit : Bool)
  | readBit (h : Nat)
  | writeByte (h : Nat) (byte : Byte)
  | readByte (h : Nat)
  | writeBytes (h : Nat) (len : Nat)
  | readBytes (h : Nat) (len : Nat)
  | skipRom (h : Nat)
  | readRom (h : Nat)
  | matchRom (h : Nat)
  | select (h : Nat)
  | search (h : Nat)
  | alarmSearch (h : Nat)
  | resetSearch (h : Nat)
  | crc8 (len : Nat)
  | verify (len : Nat)
  deriving DecidableEq, Repr

/-- The handle operand of the sixteen operations that name a bus (30 R91, R92; 60 R202). -/
def Instr.handle? : Instr → Option Nat
  | .acquire _ => none
  | .lookup _ => none
  | .bufWr _ _ => none
  | .bufRd _ => none
  | .rdState h => some h
  | .rdRom h _ => some h
  | .reset h => some h
  | .writeBit h _ => some h
  | .readBit h => some h
  | .writeByte h _ => some h
  | .readByte h => some h
  | .writeBytes h _ => some h
  | .readBytes h _ => some h
  | .skipRom h => some h
  | .readRom h => some h
  | .matchRom h => some h
  | .select h => some h
  | .search h => some h
  | .alarmSearch h => some h
  | .resetSearch h => some h
  | .crc8 _ => none
  | .verify _ => none

/-- The length operand, where the operation has one (30 R84). -/
def Instr.length? : Instr → Option Nat
  | .acquire _ => none
  | .lookup _ => none
  | .bufWr _ _ => none
  | .bufRd _ => none
  | .rdState _ => none
  | .rdRom _ _ => none
  | .reset _ => none
  | .writeBit _ _ => none
  | .readBit _ => none
  | .writeByte _ _ => none
  | .readByte _ => none
  | .writeBytes _ len => some len
  | .readBytes _ len => some len
  | .skipRom _ => none
  | .readRom _ => none
  | .matchRom _ => none
  | .select _ => none
  | .search _ => none
  | .alarmSearch _ => none
  | .resetSearch _ => none
  | .crc8 len => some len
  | .verify len => some len

/-- The DBUF index operand, where the operation has one (30 R84). -/
def Instr.index? : Instr → Option Nat
  | .acquire _ => none
  | .lookup _ => none
  | .bufWr idx _ => some idx
  | .bufRd idx => some idx
  | .rdState _ => none
  | .rdRom _ _ => none
  | .reset _ => none
  | .writeBit _ _ => none
  | .readBit _ => none
  | .writeByte _ _ => none
  | .readByte _ => none
  | .writeBytes _ _ => none
  | .readBytes _ _ => none
  | .skipRom _ => none
  | .readRom _ => none
  | .matchRom _ => none
  | .select _ => none
  | .search _ => none
  | .alarmSearch _ => none
  | .resetSearch _ => none
  | .crc8 _ => none
  | .verify _ => none

end Sys2Proof
end

