-- ==== Sys2Proof/WellFormed.lean ====
section
/-! DEFINITION. Which instructions a command word can carry (spec/30_encoding.md R84: the ranges of the operands), and which
configurations the spec allows (spec/00_scope.md R11, R12, R13). -/

namespace Sys2Proof

/-- Every operand fits its field of the command word (30 R84): a handle and an index in 8 bits, a length in 16. -/
def Instr.wf (i : Instr) : Bool :=
  (match i.handle? with | some h => decide (h < 256) | none => true) &&
  (match i.index? with | some idx => decide (idx < 256) | none => true) &&
  (match i.length? with | some len => decide (len < 65536) | none => true)

/-- 1 ≤ `N_BUS` ≤ 256 and 8 ≤ `L_BUF` ≤ 256 (00 R11). -/
abbrev Config.sized (c : Config) : Prop := (1 ≤ c.nBus ∧ c.nBus ≤ 256) ∧ 8 ≤ c.lBuf ∧ c.lBuf ≤ 256

/-- Every entry fits 16 bits (00 R12). -/
abbrev Timing.fits (t : Timing) : Prop :=
  t.tRstl < 65536 ∧ t.tPds < 65536 ∧ t.tRsth < 65536 ∧ t.tW1l < 65536 ∧ t.tW0l < 65536 ∧
  t.tSlot < 65536 ∧ t.tRec < 65536 ∧ t.tRdl < 65536 ∧ t.tRds < 65536

/-- The constraints a timing table must meet (00 R12, R13). The engine does not check them: with a table that breaks them
the remainders saturate at 0 (00 R13, 93 U7; log 18). -/
abbrev Timing.wf (t : Timing) : Prop :=
  t.fits ∧ t.tW1l ≤ t.tSlot ∧ t.tW0l ≤ t.tSlot ∧ t.tRdl + t.tRds ≤ t.tSlot ∧ t.tW1l < t.tW0l

/-- A configuration the spec allows. -/
abbrev Config.wf (c : Config) : Prop := c.sized ∧ c.timing.wf

end Sys2Proof
end

