-- ==== Sys2Proof/Decode.lean ====
section
/-! DEFINITION. The decoder of the command word, total and rejecting a reserved opcode by name, and after it the encoder
(spec/30_encoding.md R83 to R87, R99; spec/opcode_table.json). -/

namespace Sys2Proof

/-- What a command word is: an operation, or a reserved encoding named by its opcode (30 R87). -/
inductive Decoded
  | instr (i : Instr)
  | reserved (op : Byte)
  deriving DecidableEq, Repr

/-- `op = CMD[31:24]` (30 R83). -/
def fieldOp (w : Word) : Byte := w.extractLsb' 24 8

/-- `a = CMD[23:16]` (30 R83). -/
def fieldA (w : Word) : Byte := w.extractLsb' 16 8

/-- `arg = CMD[15:0]` (30 R83). -/
def fieldArg (w : Word) : Half := w.extractLsb' 0 16

/-- A handle or an index: the number in `a` (30 R84). -/
def operandA (w : Word) : Nat := (fieldA w).toNat

/-- A length: the number in `arg` (30 R84). -/
def operandLen (w : Word) : Nat := (fieldArg w).toNat

/-- A byte operand: `arg[7:0]` (30 R84). -/
def operandByte (w : Word) : Byte := w.extractLsb' 0 8

/-- A bit operand: `arg[0]` (30 R84). -/
def operandBit (w : Word) : Bool := w.getLsbD 0

/-- A ROM byte index: `arg[2:0]` (30 R84). -/
def operandRomIndex (w : Word) : Fin 8 := (w.extractLsb' 0 3).toFin

/-- The decoder: "reads `op` and nothing else to know the operation" (30 R83, R84, R86); bits an opcode does not use are
ignored (R85); every other opcode is reserved (R87). -/
def decode (w : Word) : Decoded :=
  match fieldOp w with
  | 0x01#8 => .instr (.acquire (fieldA w))
  | 0x02#8 => .instr (.lookup (fieldA w))
  | 0x03#8 => .instr (.bufWr (operandA w) (operandByte w))
  | 0x04#8 => .instr (.bufRd (operandA w))
  | 0x05#8 => .instr (.rdState (operandA w))
  | 0x06#8 => .instr (.rdRom (operandA w) (operandRomIndex w))
  | 0x10#8 => .instr (.reset (operandA w))
  | 0x11#8 => .instr (.writeBit (operandA w) (operandBit w))
  | 0x12#8 => .instr (.readBit (operandA w))
  | 0x13#8 => .instr (.writeByte (operandA w) (operandByte w))
  | 0x14#8 => .instr (.readByte (operandA w))
  | 0x15#8 => .instr (.writeBytes (operandA w) (operandLen w))
  | 0x16#8 => .instr (.readBytes (operandA w) (operandLen w))
  | 0x20#8 => .instr (.skipRom (operandA w))
  | 0x21#8 => .instr (.readRom (operandA w))
  | 0x22#8 => .instr (.matchRom (operandA w))
  | 0x23#8 => .instr (.select (operandA w))
  | 0x30#8 => .instr (.search (operandA w))
  | 0x31#8 => .instr (.alarmSearch (operandA w))
  | 0x32#8 => .instr (.resetSearch (operandA w))
  | 0x40#8 => .instr (.crc8 (operandLen w))
  | 0x41#8 => .instr (.verify (operandLen w))
  | op => .reserved op

/-- The instruction a table word decodes to. The table's numbering is the command word's own (bit 0 the least significant,
one 32-bit word); "there is no other length or format" (30 R83), so more than 32 bits is no word (log 23). -/
def decodeTableWord (nbits w : Nat) : Option Instr :=
  if nbits ≤ 32 then
    match decode (BitVec.ofNat 32 (w % 2 ^ nbits)) with
    | .instr i => some i
    | .reserved _ => none
  else none

/-- The opcode of an operation (30 R86). -/
def Instr.opcode : Instr → Byte
  | .acquire _ => 0x01
  | .lookup _ => 0x02
  | .bufWr _ _ => 0x03
  | .bufRd _ => 0x04
  | .rdState _ => 0x05
  | .rdRom _ _ => 0x06
  | .reset _ => 0x10
  | .writeBit _ _ => 0x11
  | .readBit _ => 0x12
  | .writeByte _ _ => 0x13
  | .readByte _ => 0x14
  | .writeBytes _ _ => 0x15
  | .readBytes _ _ => 0x16
  | .skipRom _ => 0x20
  | .readRom _ => 0x21
  | .matchRom _ => 0x22
  | .select _ => 0x23
  | .search _ => 0x30
  | .alarmSearch _ => 0x31
  | .resetSearch _ => 0x32
  | .crc8 _ => 0x40
  | .verify _ => 0x41

/-- The `a` field of an operation's word; 0 where it uses none (30 R84, R99). -/
def Instr.aField : Instr → Byte
  | .acquire pin => pin
  | .lookup pin => pin
  | .bufWr idx _ => BitVec.ofNat 8 idx
  | .bufRd idx => BitVec.ofNat 8 idx
  | .rdState h => BitVec.ofNat 8 h
  | .rdRom h _ => BitVec.ofNat 8 h
  | .reset h => BitVec.ofNat 8 h
  | .writeBit h _ => BitVec.ofNat 8 h
  | .readBit h => BitVec.ofNat 8 h
  | .writeByte h _ => BitVec.ofNat 8 h
  | .readByte h => BitVec.ofNat 8 h
  | .writeBytes h _ => BitVec.ofNat 8 h
  | .readBytes h _ => BitVec.ofNat 8 h
  | .skipRom h => BitVec.ofNat 8 h
  | .readRom h => BitVec.ofNat 8 h
  | .matchRom h => BitVec.ofNat 8 h
  | .select h => BitVec.ofNat 8 h
  | .search h => BitVec.ofNat 8 h
  | .alarmSearch h => BitVec.ofNat 8 h
  | .resetSearch h => BitVec.ofNat 8 h
  | .crc8 _ => 0
  | .verify _ => 0

/-- The `arg` field of an operation's word; 0 where it uses none (30 R84, R99). -/
def Instr.argField : Instr → Half
  | .acquire _ => 0
  | .lookup _ => 0
  | .bufWr _ byte => byte.setWidth 16
  | .bufRd _ => 0
  | .rdState _ => 0
  | .rdRom _ i => BitVec.ofNat 16 i.val
  | .reset _ => 0
  | .writeBit _ bit => (BitVec.ofBool bit).setWidth 16
  | .readBit _ => 0
  | .writeByte _ byte => byte.setWidth 16
  | .readByte _ => 0
  | .writeBytes _ len => BitVec.ofNat 16 len
  | .readBytes _ len => BitVec.ofNat 16 len
  | .skipRom _ => 0
  | .readRom _ => 0
  | .matchRom _ => 0
  | .select _ => 0
  | .search _ => 0
  | .alarmSearch _ => 0
  | .resetSearch _ => 0
  | .crc8 len => BitVec.ofNat 16 len
  | .verify len => BitVec.ofNat 16 len

/-- The word `{op, a, arg}` (30 R83). -/
def commandWord (op a : Byte) (arg : Half) : Word := op ++ a ++ arg

/-- The encoder: the word of an operation with every unused field 0 (30 R99). -/
def encode (i : Instr) : Word := commandWord i.opcode i.aField i.argField

/-- The bits of a command word that an operation uses: the opcode and its operand fields (30 R84; the `mask` and `fields` of
spec/opcode_table.json). Every other bit is ignored (30 R85). -/
def Instr.usedMask : Instr → Word
  | .acquire _ => 0xFFFF0000
  | .lookup _ => 0xFFFF0000
  | .bufWr _ _ => 0xFFFF00FF
  | .bufRd _ => 0xFFFF0000
  | .rdState _ => 0xFFFF0000
  | .rdRom _ _ => 0xFFFF0007
  | .reset _ => 0xFFFF0000
  | .writeBit _ _ => 0xFFFF0001
  | .readBit _ => 0xFFFF0000
  | .writeByte _ _ => 0xFFFF00FF
  | .readByte _ => 0xFFFF0000
  | .writeBytes _ _ => 0xFFFFFFFF
  | .readBytes _ _ => 0xFFFFFFFF
  | .skipRom _ => 0xFFFF0000
  | .readRom _ => 0xFFFF0000
  | .matchRom _ => 0xFFFF0000
  | .select _ => 0xFFFF0000
  | .search _ => 0xFFFF0000
  | .alarmSearch _ => 0xFFFF0000
  | .resetSearch _ => 0xFFFF0000
  | .crc8 _ => 0xFF00FFFF
  | .verify _ => 0xFF00FFFF

end Sys2Proof
end

