-- ==== Sys2Proof/Machine/State.lean ====
section
/-! DEFINITION. The state of OWPE as plain data (spec/10_state.md; spec/20_memory.md R59; spec/30_encoding.md R80, R81), its
statuses (30 R89), its reasons to stop (none), and its value after reset (10 R42, 70 R230). -/

namespace Sys2Proof.Machine

open Sys2Proof

/-- A pin event (20 R59). -/
inductive Event
  | driveLow (pin : PinId)
  | release (pin : PinId)
  | delay (n : Nat)
  | sample (pin : PinId) (v : Level)
  | critEnter
  | critLeave
  deriving DecidableEq, Repr

/-- The drive state of one line (10 R34). -/
inductive Drive
  | low
  | released
  deriving DecidableEq, Repr

/-- A status (30 R89). -/
inductive Status
  | ok
  | registryFull
  | invalidHandle
  | notInitialized
  | noPresence
  | searchAborted
  | crcMismatch
  | invalidArgument
  | notFound
  | noMoreDevices
  | zeroFamily
  | illegalCommand
  deriving DecidableEq, Repr

/-- One slot of the bus registry (10 R22 to R28). -/
structure Bus where
  pin : PinId
  initialized : Bool
  /-- `rom[0..7]`, 20 R51's 64-bit form (log 14). -/
  rom : RomCode
  /-- 0..64 (10 R26); the bound is part of `State.Inv` (log 20). -/
  lastDiscrepancy : Nat
  /-- 0..8 (10 R27); the bound is part of `State.Inv` (log 20). -/
  lastFamilyDiscrepancy : Nat
  lastDeviceFlag : Bool
  deriving DecidableEq, Repr

/-- A free slot: every field 0 (10 R29 (vi), R42). -/
def Bus.free : Bus :=
  { pin := 0, initialized := false, rom := 0, lastDiscrepancy := 0, lastFamilyDiscrepancy := 0, lastDeviceFlag := false }

/-- The data buffer DBUF (10 R31, 20 R46): the bytes written since hardware reset, addresses strictly rising. An address not
listed holds no specified value (10 R42); `State.dbufByte` reads it as a free value (log 3). -/
abbrev Memory := List Host.Cell

/-- The wire side: what the pin events act on. -/
structure Wire where
  /-- The pins whose `drv` is `Low`, strictly rising (10 R34; log 15). -/
  driven : List PinId
  /-- `crit` (10 R35). -/
  crit : Bool
  /-- The trace `T`, newest event first (20 R59; log 11). `Wire.trace` is the trace in order. -/
  events : List Event
  /-- The model's own: the environment's answers to the next samples, the next one first (20 R57; log 5). -/
  answers : List Level
  /-- The model's own: how many samples have been drawn; it indexes the free value `Config.freeSample` (log 5). -/
  samples : Nat
  deriving DecidableEq, Repr

/-- The model's own: one thing the host does next (30 R80, 70 R230; log 7, 10). -/
inductive HostInput
  | command (w : Word)
  | hardReset
  deriving DecidableEq, Repr

/-- The state of OWPE (10 R20), its configuration (00 R11, R12) and its inputs. -/
structure State where
  /-- Configuration: changed by no step (00 R11, R12; 10 R36; log 1). -/
  cfg : Config
  /-- `count` (10 R21). -/
  count : Nat
  /-- `bus[0 .. N_BUS - 1]` (10 R21). -/
  bus : List Bus
  /-- `DBUF` (10 R31). -/
  dbuf : Memory
  /-- `CMD` (10 R37). What it holds between operations is a DESIGN CHOICE: the word accepted last (log 25). -/
  cmd : Word
  /-- `RSP` (10 R32). -/
  rsp : Word
  /-- `busy` (10 R33). -/
  busy : Bool
  /-- `rsp_valid` (30 R80, R81). -/
  rspValid : Bool
  /-- `drv`, `crit`, the trace, and the line's answers. -/
  wire : Wire
  /-- The model's own: what the host does next, in order (log 7). -/
  host : List HostInput
  /-- The model's own: how many hardware resets have happened; it indexes the free values of DBUF and CMD (log 10). -/
  epoch : Nat
  deriving DecidableEq, Repr

/-- Why the machine could stop with a fault: never. "OWPE has no traps" and "all failures are reported synchronously ...; none
are escalated as fatal" (60 R200), so the type has no constructor (log 17). Safe. -/
inductive Fault
  deriving DecidableEq, Repr

/-- Why a command could have no meaning in this model. -/
inductive Refusal
  /-- Raised by an arm of `exec` whose operation has no meaning yet; no arm raises it (safe). -/
  | notModelled (mnemonic : String)
  deriving DecidableEq, Repr

/-- The wire side after hardware reset: every line released, `crit = 0`, no event yet (10 R42, 20 R59). The environment's
script and the sample counter are not the engine's and stay. -/
def Wire.idle (answers : List Level) (samples : Nat) : Wire :=
  { driven := [], crit := false, events := [], answers := answers, samples := samples }

/-- The engine after hardware reset number `epoch` under configuration `cfg` (10 R42, 70 R230), with nothing offered by the
host and no scripted answer. `rspValid` is a DESIGN CHOICE (log 8). -/
def State.resetWith (cfg : Config) (epoch : Nat) : State :=
  { cfg := cfg
    count := 0
    bus := List.replicate cfg.nBus Bus.free
    dbuf := []
    cmd := Config.freeCmd epoch
    rsp := 0
    busy := false
    rspValid := false
    wire := Wire.idle [] 0
    host := []
    epoch := epoch }

/-- The machine right after reset, with the configuration of the test vectors (log 1). -/
def State.reset : State := State.resetWith Config.vectors 0

end Sys2Proof.Machine
end

