-- ==== Sys2Proof/Machine/Bits.lean ====
section
/-! DEFINITION. Bit and byte order (spec/20_memory.md R50, R51; spec/00_scope.md R15): a byte as its bits in wire order, a ROM
code as its bytes and as its 64 positions; and the level-to-bit mapping (20 R65). -/

namespace Sys2Proof.Machine

open Sys2Proof

/-- The bits of a byte in wire order, bit 0 first (20 R50). -/
def byteBits (v : Byte) : List Bool := (List.range 8).map fun i => v.getLsbD i

/-- The byte whose bits, bit 0 first, the list gives (41 R130). -/
def byteOfBits : List Bool → Byte
  | [] => 0
  | b :: bs => (byteOfBits bs <<< 1) ||| (if b then 1#8 else 0#8)

/-- `rom[i]`, byte `i` of a ROM code (20 R51). -/
def romByte (r : RomCode) (i : Nat) : Byte := r.extractLsb' (8 * i) 8

/-- The eight bytes of a ROM code, byte 0 (the family code) first (20 R51). -/
def romBytes (r : RomCode) : List Byte := (List.range 8).map fun i => romByte r i

/-- The ROM code with the given bytes, byte 0 first (20 R51). -/
def romOfBytes : List Byte → RomCode
  | [] => 0
  | b :: bs => (romOfBytes bs <<< 8) ||| b.setWidth 64

/-- `rombit(r, p)` for a search position `p` in 1..64 (00 R15). -/
def romBit (r : RomCode) (p : Nat) : Bool := r.getLsbD (p - 1)

/-- Store `dir` at position `p` (43 R166): the mask form of 43 R157 step 4e, over the 64-bit form. -/
def setRomBit (r : RomCode) (p : Nat) (dir : Bool) : RomCode :=
  if dir then r ||| (1#64 <<< (p - 1)) else r &&& ~~~(1#64 <<< (p - 1))

/-- The value of a read slot: 1 iff the sample is `H` (20 R65, 41 R126). -/
def levelBit (v : Level) : Bool := v == .high

/-- Presence: 1 iff the sample is `L` (20 R65, 41 R122). -/
def levelPresence (v : Level) : Bool := v == .low

end Sys2Proof.Machine
end

