-- ==== Sys2Proof/Machine/Crc.lean ====
section
/-! DEFINITION. The CRC-8 function (spec/44_crc8.md R186), used by CRC8, VERIFY, READ_ROM and the search engine. -/

namespace Sys2Proof.Machine

open Sys2Proof

/-- One round of 44 R186's loop: `mix` is the low bit of `crc ^ b`. -/
def crc8Round (crc b : Byte) : Byte :=
  if (crc ^^^ b).getLsbD 0 then (crc >>> 1) ^^^ 0x8C else crc >>> 1

/-- `n` rounds, shifting the input byte right by one after each (44 R186). -/
def crc8Rounds : Nat → Byte → Byte → Byte
  | 0, crc, _ => crc
  | n + 1, crc, b => crc8Rounds n (crc8Round crc b) (b >>> 1)

/-- `crc8_byte(crc, b)`: one input byte into the running checksum (44 R186). -/
def crc8Byte (crc b : Byte) : Byte := crc8Rounds 8 crc b

/-- `crc8(d)`: seed 0, bytes in ascending order (44 R186). -/
def crc8 (d : List Byte) : Byte := d.foldl crc8Byte 0

/-- An address is valid iff the CRC over its eight bytes is 0 (44 R189). -/
def romCrc (r : RomCode) : Byte := crc8 (romBytes r)

end Sys2Proof.Machine
end

