-- ==== Sys2Proof/Machine/Flags.lean ====
section
/-! DEFINITION. OWPE has no condition codes (spec/10_state.md R40). Its flag computations are the response word with its `ok`
flag (spec/30_encoding.md R88 to R90), the packing of the flags RD_STATE returns (R90), and `last_device_flag`
(spec/43_search.md R169). -/

namespace Sys2Proof.Machine

open Sys2Proof

/-- The status codes (30 R89). -/
def Status.code : Status → BitVec 4
  | .ok => 0
  | .registryFull => 1
  | .invalidHandle => 2
  | .notInitialized => 3
  | .noPresence => 4
  | .searchAborted => 5
  | .crcMismatch => 6
  | .invalidArgument => 7
  | .notFound => 8
  | .noMoreDevices => 9
  | .zeroFamily => 10
  | .illegalCommand => 11

/-- `ok`: 1 iff `status = Ok` (30 R88). -/
def Status.okBit (st : Status) : BitVec 1 := if st = .ok then 1 else 0

/-- The response word: `ok` at 31, `status` at 27:24, `data` at 15:0, every other bit 0 (30 R88). -/
def responseWord (st : Status) (data : Half) : Word := st.okBit ++ 0#3 ++ st.code ++ 0#8 ++ data

/-- The `data` of RD_STATE: bit 11 the flag, bits 10:7 the family discrepancy, bits 6:0 the discrepancy (30 R90, 40 R115). -/
def stateData (b : Bus) : Half :=
  0#4 ++ BitVec.ofBool b.lastDeviceFlag ++ BitVec.ofNat 4 b.lastFamilyDiscrepancy ++ BitVec.ofNat 7 b.lastDiscrepancy

/-- `last_device_flag` after a successful pass: set exactly when the new `last_discrepancy` is 0 (43 R169). -/
def lastDeviceAfter (lastZero : Nat) : Bool := lastZero == 0

end Sys2Proof.Machine
end

