-- ==== Sys2Proof/Machine/Ops.lean ====
section
/-! DEFINITION. The named operations over the state: DBUF, the registry, the pin events, the response (`return` and `raise`,
OWPE's form of taking an exception), and the host's side of a step. -/

namespace Sys2Proof.Machine

open Sys2Proof

/-! ### DBUF (spec/20_memory.md R46 to R49) -/

/-- The canonical form: addresses strictly rising and below `L_BUF`. What an unlisted address holds is unspecified, so no
entry repeats it. -/
abbrev Memory.wf (lBuf : Nat) (m : Memory) : Prop :=
  m.Pairwise (fun x y => x.1 < y.1) ∧ ∀ c ∈ m, c.1 < lBuf

/-- The byte last written at `a` since hardware reset, if any. -/
def Memory.lookup : Memory → Nat → Option Byte
  | [], _ => none
  | (k, v) :: m, a => if k = a then some v else Memory.lookup m a

/-- Write one byte. -/
def Memory.store : Memory → Nat → Byte → Memory
  | [], a, v => [(a, v)]
  | (k, u) :: m, a, v =>
    if a < k then (a, v) :: (k, u) :: m else if a = k then (a, v) :: m else (k, u) :: Memory.store m a v

/-- Write bytes at `a`, `a + 1`, ... in ascending order (20 R47). -/
def Memory.storeList : Memory → Nat → List Byte → Memory
  | m, _, [] => m
  | m, a, v :: vs => Memory.storeList (Memory.store m a v) (a + 1) vs

/-- `DBUF[a]`: the last value written, else an unspecified value (20 R49). -/
def State.dbufByte (s : State) (a : Nat) : Byte := (Memory.lookup s.dbuf a).getD (Config.freeDbuf s.epoch a)

/-- `DBUF[0 .. n - 1]` in ascending order (20 R46, R47). -/
def State.dbufBytes (s : State) (n : Nat) : List Byte := (List.range n).map fun a => s.dbufByte a

/-- `DBUF[a] <- v`. -/
def State.dbufStore (s : State) (a : Nat) (v : Byte) : State := { s with dbuf := Memory.store s.dbuf a v }

/-- `DBUF[0 .. n - 1] <- vs`, index 0 first (20 R47, R48). -/
def State.dbufStoreList (s : State) (vs : List Byte) : State := { s with dbuf := Memory.storeList s.dbuf 0 vs }

/-! ### The registry (spec/10_state.md R21 to R30, R43) -/

/-- `bus[h]`; a slot that does not exist reads as a free one (log 16). -/
def State.busAt (s : State) (h : Nat) : Bus := s.bus.getD h Bus.free

/-- `bus[h] <- b`. -/
def State.setBus (s : State) (h : Nat) (b : Bus) : State := { s with bus := s.bus.set h b }

/-- The four search fields of a slot cleared (10 R43). -/
def Bus.clearSearch (b : Bus) : Bus :=
  { b with rom := 0, lastDiscrepancy := 0, lastFamilyDiscrepancy := 0, lastDeviceFlag := false }

/-- `clear_search(h)` (10 R43). -/
def State.clearSearch (s : State) (h : Nat) : State := s.setBus h (s.busAt h).clearSearch

/-- The handle of the allocated slot that holds `pin`: the ascending loop of 40 R106 and R108, over allocated slots only. -/
def State.findPin (s : State) (pin : PinId) : Option Nat :=
  (List.range s.count).find? fun h => (s.busAt h).pin == pin

/-! ### Pin events (spec/00_scope.md R17; spec/20_memory.md R53 to R59) -/

/-- Append one event to the trace. -/
def Wire.emit (e : Event) (w : Wire) : Wire := { w with events := e :: w.events }

/-- The trace `T` in order, oldest event first (20 R59). -/
def Wire.trace (w : Wire) : List Event := w.events.reverse

/-- Put a pin into the list of the driven ones, keeping it strictly rising. -/
def insertPin (pin : PinId) : List PinId → List PinId
  | [] => [pin]
  | q :: qs => if pin.toNat < q.toNat then pin :: q :: qs else if pin = q then q :: qs else q :: insertPin pin qs

/-- `drv[pin]` (10 R34). -/
def Wire.drive (w : Wire) (pin : PinId) : Drive := if w.driven.contains pin then .low else .released

/-- `DriveLow(pin)` (20 R53). -/
def Wire.driveLow (pin : PinId) (w : Wire) : Wire :=
  Wire.emit (.driveLow pin) { w with driven := insertPin pin w.driven }

/-- `Release(pin)` (20 R54). -/
def Wire.release (pin : PinId) (w : Wire) : Wire :=
  Wire.emit (.release pin) { w with driven := w.driven.filter (· != pin) }

/-- `Delay(n)` (20 R56). -/
def Wire.delay (n : Nat) (w : Wire) : Wire := Wire.emit (.delay n) w

/-- `CritEnter()` (20 R58). -/
def Wire.critEnter (w : Wire) : Wire := Wire.emit .critEnter { w with crit := true }

/-- `CritLeave()` (20 R58). -/
def Wire.critLeave (w : Wire) : Wire := Wire.emit .critLeave { w with crit := false }

/-- The answer the environment gives to the `n`-th next sample: its script, then any level (20 R57; log 5). -/
def Wire.answerAt (w : Wire) (n : Nat) : Level := w.answers.getD n (Config.freeSample (w.samples + n))

/-- `Sample(pin)`: the event carries the answer, and the answer is used up (20 R55, R57, R59). -/
def Wire.sample (pin : PinId) (w : Wire) : Level × Wire :=
  (w.answerAt 0,
   Wire.emit (.sample pin (w.answerAt 0)) { w with answers := w.answers.tail, samples := w.samples + 1 })

/-! ### The response (spec/00_scope.md R18; spec/30_encoding.md R81, R88; spec/60_exceptions.md R200) -/

/-- Write `RSP`, raise `rsp_valid`, clear `busy` (30 R81). That `CMD` keeps the accepted word past the operation, until the next
acceptance or hardware reset, is a DESIGN CHOICE (log 25): 10 R37 holds it only "for the length of the operation". -/
def State.respond (s : State) (st : Status) (data : Half) : State :=
  { s with rsp := responseWord st data, rspValid := true, busy := false }

/-- `return (data)`: end the operation with `ok = 1` (00 R18). -/
def State.ret (s : State) (data : Half) : State := s.respond .ok data

/-- `raise <Status>`: end the operation with `ok = 0`, the status and `data = 0`, after the cleanup already done to `s`
(00 R18, 60 R200). Every failure of every operation goes through here. -/
def State.raise (s : State) (st : Status) : State := s.respond st 0

/-! ### The host's side of a step (spec/30_encoding.md R80 to R82, R87; spec/70_reset_and_hazards.md R230) -/

/-- `cmd_ready = not busy` (30 R80). -/
def State.cmdReady (s : State) : Bool := !s.busy

/-- Accept a command: set `busy`, latch `CMD`, drop `rsp_valid` (30 R81); the host goes on to `rest`. -/
def State.accept (s : State) (w : Word) (rest : List HostInput) : State :=
  { s with busy := true, cmd := w, rspValid := false, host := rest }

/-- The whole effect of a reserved command: `IllegalCommand` (30 R87, 60 R211). -/
def State.illegalCommand (s : State) : State := s.raise .illegalCommand

/-- Hardware reset: every piece of state at the value of 10 R42; the configuration is not affected (70 R230). The inputs
(the host's further script, the environment's answers) are not the engine's and stay. -/
def State.hardReset (s : State) (rest : List HostInput) : State :=
  { State.resetWith s.cfg (s.epoch + 1) with
    host := rest, wire := Wire.idle s.wire.answers s.wire.samples }

/-- What the engine takes from the host next. -/
inductive Taken
  | nothing
  | command (w : Word) (rest : List HostInput)
  | hardReset (rest : List HostInput)
  deriving DecidableEq, Repr

/-- A hardware reset acts at any time (70 R230); a command is accepted only while `cmd_ready` (30 R80, R82), and waits
otherwise. -/
def State.take (s : State) : Taken :=
  match s.host with
  | [] => .nothing
  | .hardReset :: rest => .hardReset rest
  | .command w :: rest => if s.cmdReady then .command w rest else .nothing

/-- Offer a command ahead of everything else the host has to offer, to an engine that is ready to take it. -/
def State.offer (s : State) (w : Word) : State := { s with busy := false, host := .command w :: s.host }

end Sys2Proof.Machine
end

