-- ==== Sys2Proof/Machine/Operands.lean ====
section
/-! DEFINITION. The operand checks of spec/30_encoding.md section 4 (R91 to R94): handle, index, length; each before any effect
of the operation. The operand fields themselves are taken from the word by the decoder (R84). -/

namespace Sys2Proof.Machine

open Sys2Proof

/-- `check_handle(h)`: the status it raises, if any (30 R91). -/
def State.checkHandle (s : State) (h : Nat) : Option Status :=
  if s.cfg.nBus ≤ h then some .invalidHandle
  else if (s.busAt h).initialized then none
  else some .notInitialized

/-- A DBUF index must be below `L_BUF` (20 R46, 30 R93). -/
def State.checkIndex (s : State) (idx : Nat) : Option Status :=
  if s.cfg.lBuf ≤ idx then some .invalidArgument else none

/-- A length may be at most `L_BUF` (20 R46, 30 R93). -/
def State.checkLength (s : State) (len : Nat) : Option Status :=
  if s.cfg.lBuf < len then some .invalidArgument else none

/-- Raise what a check found, with no other effect, or go on with the operation (30 R94). -/
def State.checked (s : State) (check : Option Status) (run : State → State) : State :=
  match check with
  | some st => s.raise st
  | none => run s

/-- An operation on a bus: its handle is checked first (30 R91, R94). -/
def State.onBus (s : State) (h : Nat) (run : State → State) : State := s.checked (s.checkHandle h) run

end Sys2Proof.Machine
end

