-- ==== Sys2Proof/Machine/CrcUnit.lean ====
section
/-! DEFINITION. The CRC-8 validator's commands (spec/44_crc8.md): CRC8, VERIFY. -/

namespace Sys2Proof.Machine

open Sys2Proof

/-- CRC8 `len` (44 R190). -/
def execCrc8 (len : Nat) (s : State) : Host.Outcome State Fault Refusal :=
  .next (s.checked (s.checkLength len) fun s => s.ret ((crc8 (s.dbufBytes len)).setWidth 16))

/-- VERIFY `len` (44 R191, R192, R193). -/
def execVerify (len : Nat) (s : State) : Host.Outcome State Fault Refusal :=
  .next (s.checked (s.checkLength len) fun s =>
    if crc8 (s.dbufBytes len) = 0 then s.ret 0 else s.raise .crcMismatch)

end Sys2Proof.Machine
end

