-- ==== Sys2Proof/Machine/Slots.lean ====
section
/-! DEFINITION. The signal procedures of spec/41_signal_primitives.md R121 to R134 (lower case there: `reset_slot`, `write_bit`,
`read_bit`, `write_byte`, `read_byte`): event by event, on the wire side only, for one pin. -/

namespace Sys2Proof.Machine

open Sys2Proof

/-- `reset_slot` (41 R122): the eight events its pseudocode lists (log 22). -/
def resetSlot (t : Timing) (pin : PinId) (w : Wire) : Bool × Wire :=
  match Wire.sample pin
      (Wire.delay t.tPds (Wire.release pin (Wire.delay t.tRstl (Wire.driveLow pin (Wire.critEnter w))))) with
  | (v, w') => (levelPresence v, Wire.delay t.tRsth (Wire.critLeave w'))

/-- The low time of a write slot: narrow for a 1, wide for a 0 (41 R124). -/
def writeLow (t : Timing) (b : Bool) : Nat := if b then t.tW1l else t.tW0l

/-- `write_bit` (41 R124). The remainder saturates (00 R13). -/
def writeBit (t : Timing) (pin : PinId) (b : Bool) (w : Wire) : Wire :=
  Wire.critLeave (Wire.delay t.tRec (Wire.delay (t.tSlot - writeLow t b)
    (Wire.release pin (Wire.delay (writeLow t b) (Wire.driveLow pin (Wire.critEnter w))))))

/-- `read_bit` (41 R126). The remainder saturates (00 R13). -/
def readBit (t : Timing) (pin : PinId) (w : Wire) : Bool × Wire :=
  match Wire.sample pin
      (Wire.delay t.tRds (Wire.release pin (Wire.delay t.tRdl (Wire.driveLow pin (Wire.critEnter w))))) with
  | (v, w') => (levelBit v, Wire.critLeave (Wire.delay (t.tSlot - (t.tRdl + t.tRds)) w'))

/-- Write slots for the bits of a list, in order. -/
def writeBits (t : Timing) (pin : PinId) : List Bool → Wire → Wire
  | [], w => w
  | b :: bs, w => writeBits t pin bs (writeBit t pin b w)

/-- `n` read slots; the bits in the order they were read. -/
def readBits (t : Timing) (pin : PinId) : Nat → Wire → List Bool × Wire
  | 0, w => ([], w)
  | n + 1, w =>
    match readBit t pin w with
    | (b, w1) =>
      match readBits t pin n w1 with
      | (bs, w2) => (b :: bs, w2)

/-- `write_byte`: bit 0 first (41 R128). -/
def writeByte (t : Timing) (pin : PinId) (v : Byte) (w : Wire) : Wire := writeBits t pin (byteBits v) w

/-- `read_byte`: the first slot is bit 0 (41 R130). -/
def readByte (t : Timing) (pin : PinId) (w : Wire) : Byte × Wire :=
  match readBits t pin 8 w with
  | (bs, w') => (byteOfBits bs, w')

/-- Bytes in order (41 R132, 42 R146). -/
def writeByteList (t : Timing) (pin : PinId) : List Byte → Wire → Wire
  | [], w => w
  | v :: vs, w => writeByteList t pin vs (writeByte t pin v w)

/-- `n` bytes, in the order they were read (41 R134, 42 R144). -/
def readByteList (t : Timing) (pin : PinId) : Nat → Wire → List Byte × Wire
  | 0, w => ([], w)
  | n + 1, w =>
    match readByte t pin w with
    | (v, w1) =>
      match readByteList t pin n w1 with
      | (vs, w2) => (v :: vs, w2)

/-- The timing table and the pin of `bus[h]`: what every procedure on handle `h` uses (41 R121, 10 R22). -/
def State.timing (s : State) : Timing := s.cfg.timing

/-- The pin every event of an operation on handle `h` names (10 R22). -/
def State.pinOf (s : State) (h : Nat) : PinId := (s.busAt h).pin

/-- The state with its wire side replaced. -/
def State.withWire (s : State) (w : Wire) : State := { s with wire := w }

end Sys2Proof.Machine
end

