-- ==== Sys2Proof/Machine/Registry.lean ====
section
/-! DEFINITION. Bus registry, buffer and read-back operations (spec/40_registry.md): ACQUIRE, LOOKUP, BUF_WR, BUF_RD, RD_STATE,
RD_ROM. -/

namespace Sys2Proof.Machine

open Sys2Proof

/-- The slot ACQUIRE makes: the pin, the search state cleared, initialized (40 R106). -/
def Bus.acquired (pin : PinId) : Bus :=
  { pin := pin, initialized := true, rom := 0, lastDiscrepancy := 0, lastFamilyDiscrepancy := 0, lastDeviceFlag := false }

/-- Allocation of the next free slot (40 R106). -/
def State.allocate (s : State) (pin : PinId) : State :=
  { (s.setBus s.count (Bus.acquired pin)).withWire (Wire.release pin s.wire) with count := s.count + 1 }

/-- ACQUIRE (40 R106): the search for the pin comes before the capacity test (R107 b). -/
def State.acquire (s : State) (pin : PinId) : State :=
  match s.findPin pin with
  | some h => s.ret (BitVec.ofNat 16 h)
  | none =>
    if s.count = s.cfg.nBus then s.raise .registryFull
    else (s.allocate pin).ret (BitVec.ofNat 16 s.count)

/-- ACQUIRE `pin` (40 R106, R107). -/
def execAcquire (pin : PinId) (s : State) : Host.Outcome State Fault Refusal := .next (s.acquire pin)

/-- LOOKUP `pin` (40 R108, R109). -/
def execLookup (pin : PinId) (s : State) : Host.Outcome State Fault Refusal :=
  .next (match s.findPin pin with
    | some h => s.ret (BitVec.ofNat 16 h)
    | none => s.raise .notFound)

/-- BUF_WR `idx`, `byte` (40 R110, R111). -/
def execBufWr (idx : Nat) (byte : Byte) (s : State) : Host.Outcome State Fault Refusal :=
  .next (s.checked (s.checkIndex idx) fun s => (s.dbufStore idx byte).ret 0)

/-- BUF_RD `idx` (40 R112, R113). -/
def execBufRd (idx : Nat) (s : State) : Host.Outcome State Fault Refusal :=
  .next (s.checked (s.checkIndex idx) fun s => s.ret ((s.dbufByte idx).setWidth 16))

/-- RD_STATE `h` (40 R115, R116). -/
def execRdState (h : Nat) (s : State) : Host.Outcome State Fault Refusal :=
  .next (s.onBus h fun s => s.ret (stateData (s.busAt h)))

/-- RD_ROM `h`, `i` (40 R117, R118). -/
def execRdRom (h : Nat) (i : Fin 8) (s : State) : Host.Outcome State Fault Refusal :=
  .next (s.onBus h fun s => s.ret ((romByte (s.busAt h).rom i.val).setWidth 16))

end Sys2Proof.Machine
end

