-- ==== Sys2Proof/Machine/RomLayer.lean ====
section
/-! DEFINITION. The ROM command layer (spec/42_rom_commands.md): SKIP_ROM, READ_ROM, MATCH_ROM, SELECT; and the five ROM command
bytes (spec/30_encoding.md R96). -/

namespace Sys2Proof.Machine

open Sys2Proof

/-! The ROM command bytes. PRESUMED: the spec takes the values from general knowledge (93 G1; log 12). Unsafe. -/

/-- `CMD_SEARCH_ROM` (30 R96). PRESUMED (log 12). -/
def cmdSearchRom : Byte := 0xF0

/-- `CMD_READ_ROM` (30 R96). PRESUMED (log 12). -/
def cmdReadRom : Byte := 0x33

/-- `CMD_MATCH_ROM` (30 R96). PRESUMED (log 12). -/
def cmdMatchRom : Byte := 0x55

/-- `CMD_SKIP_ROM` (30 R96). PRESUMED (log 12). -/
def cmdSkipRom : Byte := 0xCC

/-- `CMD_ALARM_SEARCH` (30 R96). PRESUMED (log 12). -/
def cmdAlarmSearch : Byte := 0xEC

/-- `match_rom(h)`: the command byte, then `DBUF[0..7]` (42 R146). -/
def State.matchRom (s : State) (h : Nat) (w : Wire) : Wire :=
  writeByteList s.timing (s.pinOf h) (cmdMatchRom :: s.dbufBytes 8) w

/-- SKIP_ROM `h` (42 R142, R143). -/
def execSkipRom (h : Nat) (s : State) : Host.Outcome State Fault Refusal :=
  .next (s.onBus h fun s => (s.withWire (writeByte s.timing (s.pinOf h) cmdSkipRom s.wire)).ret 0)

/-- READ_ROM `h` (42 R144, R145): the eight bytes reach DBUF only if their CRC is 0. -/
def execReadRom (h : Nat) (s : State) : Host.Outcome State Fault Refusal :=
  .next (s.onBus h fun s =>
    match resetSlot s.timing (s.pinOf h) s.wire with
    | (false, w) => (s.withWire w).raise .noPresence
    | (true, w) =>
      match readByteList s.timing (s.pinOf h) 8 (writeByte s.timing (s.pinOf h) cmdReadRom w) with
      | (t, w') =>
        if crc8 t = 0 then ((s.withWire w').dbufStoreList t).ret 0
        else (s.withWire w').raise .crcMismatch)

/-- MATCH_ROM `h` (42 R146, R147): no reset of its own. -/
def execMatchRom (h : Nat) (s : State) : Host.Outcome State Fault Refusal :=
  .next (s.onBus h fun s => (s.withWire (s.matchRom h s.wire)).ret 0)

/-- SELECT `h` (42 R148, R149). -/
def execSelect (h : Nat) (s : State) : Host.Outcome State Fault Refusal :=
  .next (s.onBus h fun s =>
    match resetSlot s.timing (s.pinOf h) s.wire with
    | (false, w) => (s.withWire w).raise .noPresence
    | (true, w) => (s.withWire (s.matchRom h w)).ret 0)

end Sys2Proof.Machine
end

