-- ==== Sys2Proof/Machine/Search.lean ====
section
/-! DEFINITION. The ROM-search state machine (spec/43_search.md R155 to R179): SEARCH, ALARM_SEARCH, RESET_SEARCH. -/

namespace Sys2Proof.Machine

open Sys2Proof

/-- Step 4d, the direction at a discrepancy: replay below `last_discrepancy`, 1 at it, 0 beyond it (43 R165). -/
def discrepancyDir (b : Bus) (p : Nat) : Bool :=
  if p < b.lastDiscrepancy then romBit b.rom p else p == b.lastDiscrepancy

/-- Steps 4b to 4d, the choice at position `p` from the two bits read; none is the abort of step 4b (43 R164, R165). -/
def chooseDir (b : Bus) (p : Nat) (idBit cmpIdBit : Bool) : Option Bool :=
  match idBit, cmpIdBit with
  | true, true => none
  | true, false => some true
  | false, true => some false
  | false, false => some (discrepancyDir b p)

/-- A 0 chosen at a discrepancy (43 R165: a 0 of row 2 does not count). -/
def zeroTaken (idBit cmpIdBit dir : Bool) : Bool := !idBit && !cmpIdBit && !dir

/-- Steps 4d and 4e on the bus slot: the family discrepancy if a 0 was taken at a position 1..8, and the bit stored in `rom`
(43 R165, R166). -/
def Bus.advance (b : Bus) (p : Nat) (zero dir : Bool) : Bus :=
  { b with
    lastFamilyDiscrepancy := if zero && decide (p ≤ 8) then p else b.lastFamilyDiscrepancy
    rom := setRomBit b.rom p dir }

/-- How the loop of step 4 ends: with the slot, `last_zero` and the wire as they then are. -/
inductive PassEnd
  | aborted (b : Bus) (w : Wire)
  | resolved (b : Bus) (lastZero : Nat) (w : Wire)
  deriving DecidableEq, Repr

/-- Step 4, `n` iterations from position `p` on (43 R157, R163 to R167). -/
def searchFrom (t : Timing) : Nat → Nat → Nat → Bus → Wire → PassEnd
  | 0, _, lastZero, b, w => .resolved b lastZero w
  | n + 1, p, lastZero, b, w =>
    match readBit t b.pin w with
    | (idBit, w1) =>
      match readBit t b.pin w1 with
      | (cmpIdBit, w2) =>
        match chooseDir b p idBit cmpIdBit with
        | none => .aborted b w2
        | some dir =>
          searchFrom t n (p + 1) (if zeroTaken idBit cmpIdBit dir then p else lastZero)
            (b.advance p (zeroTaken idBit cmpIdBit dir) dir) (writeBit t b.pin dir w2)

/-- Steps 5 and 6: what the end of the loop means for the state (43 R168 to R172). The CRC is tested before the family code. -/
def State.endPass (s : State) (h : Nat) : PassEnd → State
  | .aborted b w => ((s.withWire w).setBus h b.clearSearch).raise .searchAborted
  | .resolved b lastZero w =>
    if romCrc b.rom ≠ 0 then ((s.withWire w).setBus h b.clearSearch).raise .crcMismatch
    else if romByte b.rom 0 = 0 then ((s.withWire w).setBus h b.clearSearch).raise .zeroFamily
    else
      (((s.withWire w).setBus h
        { b with lastDiscrepancy := lastZero, lastDeviceFlag := lastDeviceAfter lastZero }).dbufStoreList
          (romBytes b.rom)).ret 0

/-- `search(h, cmdbyte)` (43 R157, R160 to R172). -/
def State.search (s : State) (h : Nat) (cmdByte : Byte) : State :=
  if (s.busAt h).lastDeviceFlag then s.raise .noMoreDevices
  else
    match resetSlot s.timing (s.pinOf h) s.wire with
    | (false, w) => ((s.withWire w).clearSearch h).raise .noPresence
    | (true, w) =>
      s.endPass h (searchFrom s.timing 64 1 0 (s.busAt h) (writeByte s.timing (s.pinOf h) cmdByte w))

/-- SEARCH `h` (43 R158). -/
def execSearch (h : Nat) (s : State) : Host.Outcome State Fault Refusal :=
  .next (s.onBus h fun s => s.search h cmdSearchRom)

/-- ALARM_SEARCH `h` (43 R159). -/
def execAlarmSearch (h : Nat) (s : State) : Host.Outcome State Fault Refusal :=
  .next (s.onBus h fun s => s.search h cmdAlarmSearch)

/-- RESET_SEARCH `h` (43 R175, R176). -/
def execResetSearch (h : Nat) (s : State) : Host.Outcome State Fault Refusal :=
  .next (s.onBus h fun s => (s.clearSearch h).ret 0)

end Sys2Proof.Machine
end

