-- ==== Sys2Proof/Machine/Signal.lean ====
section
/-! DEFINITION. The signal primitives as commands (spec/41_signal_primitives.md): RESET, WRITE_BIT, READ_BIT, WRITE_BYTE,
READ_BYTE, WRITE_BYTES, READ_BYTES. Each checks the handle, calls its procedure and responds (R121). -/

namespace Sys2Proof.Machine

open Sys2Proof

/-- RESET `h` (41 R122, R123). -/
def execReset (h : Nat) (s : State) : Host.Outcome State Fault Refusal :=
  .next (s.onBus h fun s =>
    match resetSlot s.timing (s.pinOf h) s.wire with
    | (true, w) => (s.withWire w).ret 1
    | (false, w) => (s.withWire w).raise .noPresence)

/-- WRITE_BIT `h`, `bit` (41 R124, R125). -/
def execWriteBit (h : Nat) (bit : Bool) (s : State) : Host.Outcome State Fault Refusal :=
  .next (s.onBus h fun s => (s.withWire (writeBit s.timing (s.pinOf h) bit s.wire)).ret 0)

/-- READ_BIT `h` (41 R126, R127). -/
def execReadBit (h : Nat) (s : State) : Host.Outcome State Fault Refusal :=
  .next (s.onBus h fun s =>
    match readBit s.timing (s.pinOf h) s.wire with
    | (b, w) => (s.withWire w).ret ((BitVec.ofBool b).setWidth 16))

/-- WRITE_BYTE `h`, `byte` (41 R128, R129). -/
def execWriteByte (h : Nat) (byte : Byte) (s : State) : Host.Outcome State Fault Refusal :=
  .next (s.onBus h fun s => (s.withWire (writeByte s.timing (s.pinOf h) byte s.wire)).ret 0)

/-- READ_BYTE `h` (41 R130, R131). -/
def execReadByte (h : Nat) (s : State) : Host.Outcome State Fault Refusal :=
  .next (s.onBus h fun s =>
    match readByte s.timing (s.pinOf h) s.wire with
    | (v, w) => (s.withWire w).ret (v.setWidth 16))

/-- WRITE_BYTES `h`, `len` (41 R132, R133): the length check comes after the handle check (30 R94). -/
def execWriteBytes (h : Nat) (len : Nat) (s : State) : Host.Outcome State Fault Refusal :=
  .next (s.onBus h fun s => s.checked (s.checkLength len) fun s =>
    (s.withWire (writeByteList s.timing (s.pinOf h) (s.dbufBytes len) s.wire)).ret 0)

/-- READ_BYTES `h`, `len` (41 R134, R135). -/
def execReadBytes (h : Nat) (len : Nat) (s : State) : Host.Outcome State Fault Refusal :=
  .next (s.onBus h fun s => s.checked (s.checkLength len) fun s =>
    match readByteList s.timing (s.pinOf h) len s.wire with
    | (vs, w) => ((s.withWire w).dbufStoreList vs).ret 0)

end Sys2Proof.Machine
end

