-- ==== Sys2Proof/Machine/Dispatch.lean ====
section
/-! DEFINITION. The dispatch: one arm per operation (spec/30_encoding.md R86). -/

namespace Sys2Proof.Machine

open Sys2Proof

/-- What an accepted operation does, from the state in which its command has been accepted. -/
def exec (i : Instr) (s : State) : Host.Outcome State Fault Refusal :=
  match i with
  | .acquire pin => Sys2Proof.Machine.execAcquire pin s
  | .lookup pin => Sys2Proof.Machine.execLookup pin s
  | .bufWr idx byte => Sys2Proof.Machine.execBufWr idx byte s
  | .bufRd idx => Sys2Proof.Machine.execBufRd idx s
  | .rdState h => Sys2Proof.Machine.execRdState h s
  | .rdRom h k => Sys2Proof.Machine.execRdRom h k s
  | .reset h => Sys2Proof.Machine.execReset h s
  | .writeBit h bit => Sys2Proof.Machine.execWriteBit h bit s
  | .readBit h => Sys2Proof.Machine.execReadBit h s
  | .writeByte h byte => Sys2Proof.Machine.execWriteByte h byte s
  | .readByte h => Sys2Proof.Machine.execReadByte h s
  | .writeBytes h len => Sys2Proof.Machine.execWriteBytes h len s
  | .readBytes h len => Sys2Proof.Machine.execReadBytes h len s
  | .skipRom h => Sys2Proof.Machine.execSkipRom h s
  | .readRom h => Sys2Proof.Machine.execReadRom h s
  | .matchRom h => Sys2Proof.Machine.execMatchRom h s
  | .select h => Sys2Proof.Machine.execSelect h s
  | .search h => Sys2Proof.Machine.execSearch h s
  | .alarmSearch h => Sys2Proof.Machine.execAlarmSearch h s
  | .resetSearch h => Sys2Proof.Machine.execResetSearch h s
  | .crc8 len => Sys2Proof.Machine.execCrc8 len s
  | .verify len => Sys2Proof.Machine.execVerify len s

end Sys2Proof.Machine
end

