-- ==== Sys2Proof/Machine/Step.lean ====
section
/-! DEFINITION. One step: the engine takes the host's next input (spec/30_encoding.md R80 to R82, R87; spec/10_state.md R37;
spec/70_reset_and_hazards.md R230, R248). -/

namespace Sys2Proof.Machine

open Sys2Proof

/-- One step. A command is accepted and runs to its end (30 R81, 00 R10); a hardware reset takes effect (70 R230); with
nothing to take the engine stays idle. -/
def step (s : State) : Host.Outcome State Fault Refusal :=
  match s.take with
  | .nothing => .next s
  | .hardReset rest => .next (s.hardReset rest)
  | .command w rest =>
    match decode w with
    | .instr i => exec i (s.accept w rest)
    | .reserved _ => .next (s.accept w rest).illegalCommand

/-- OWPE "fetches no instructions" (10 R37): its next command is the one the host offers. So this offers the command whose
word is `w` (its bits from `nbits` up are 0) to an engine ready to take it (log 7). -/
def State.withFetchWord (s : State) (nbits w : Nat) : State := s.offer (BitVec.ofNat 32 (w % 2 ^ nbits))

end Sys2Proof.Machine
end

