-- ==== Sys2Proof/Machine/Trace.lean ====
section
/-! DEFINITION. Views of the trace, for claims and tests; no operation uses them. The slot-level view (spec/20_memory.md R65),
trace equivalence (R60), the collaborator calls an event stands for (R52 to R58), and the sum of the delays
(spec/70_reset_and_hazards.md R249). -/

namespace Sys2Proof.Machine

open Sys2Proof

/-- A slot with its answer (20 R65): `ResetSlot(pin) -> presence`, `WriteSlot(pin, b)`, `ReadSlot(pin) -> b`. -/
inductive Slot
  | reset (pin : PinId) (presence : Bool)
  | write (pin : PinId) (b : Bool)
  | read (pin : PinId) (b : Bool)
  deriving DecidableEq, Repr

/-- The pin of a slot. -/
def Slot.pin : Slot → PinId
  | .reset pin _ => pin
  | .write pin _ => pin
  | .read pin _ => pin

/-- How many samples a slot takes (20 R65). -/
def Slot.sampleCount : Slot → Nat
  | .reset _ _ => 1
  | .write _ _ => 0
  | .read _ _ => 1

/-- The level whose presence reading is `b`. -/
def presenceLevel (b : Bool) : Level := if b then .low else .high

/-- The level whose bit is `b`. -/
def bitLevel (b : Bool) : Level := if b then .high else .low

/-- The events of a slot, as 41 R122, R124 and R126 list them. -/
def slotEvents (t : Timing) : Slot → List Event
  | .reset pin presence =>
    [.critEnter, .driveLow pin, .delay t.tRstl, .release pin, .delay t.tPds, .sample pin (presenceLevel presence), .critLeave,
      .delay t.tRsth]
  | .write pin b =>
    [.critEnter, .driveLow pin, .delay (if b then t.tW1l else t.tW0l), .release pin,
      .delay (t.tSlot - (if b then t.tW1l else t.tW0l)), .delay t.tRec, .critLeave]
  | .read pin b =>
    [.critEnter, .driveLow pin, .delay t.tRdl, .release pin, .delay t.tRds, .sample pin (bitLevel b),
      .delay (t.tSlot - (t.tRdl + t.tRds)), .critLeave]

/-- The wire side after a slot: its events emitted, its line released, `crit = 0`, its samples drawn. -/
def Wire.playSlot (t : Timing) (w : Wire) (slot : Slot) : Wire :=
  { driven := w.driven.filter (· != slot.pin)
    crit := false
    events := (slotEvents t slot).reverse ++ w.events
    answers := w.answers.drop slot.sampleCount
    samples := w.samples + slot.sampleCount }

/-- The wire side after a sequence of slots. -/
def Wire.play (t : Timing) (w : Wire) (slots : List Slot) : Wire := slots.foldl (Wire.playSlot t) w

/-- Write slots carrying bytes, bit 0 of the first byte first (20 R50). -/
def writeSlots (pin : PinId) (vs : List Byte) : List Slot := vs.flatMap fun v => (byteBits v).map fun b => .write pin b

/-- Put a delay of `n` before an already normal trace. -/
def prependDelay (n : Nat) : List Event → List Event
  | .delay m :: es => .delay (n + m) :: es
  | es => if n = 0 then es else .delay n :: es

/-- The normal form of a trace: every `Delay(0)` deleted, adjacent delays merged (20 R60). -/
def normalTrace : List Event → List Event
  | [] => []
  | .delay n :: es => prependDelay n (normalTrace es)
  | e :: es => e :: normalTrace es

/-- Two traces are the same behaviour iff their normal forms are equal (20 R60). -/
abbrev sameBehaviour (a b : List Event) : Prop := normalTrace a = normalTrace b

/-- A pin direction (20 R52). -/
inductive Direction
  | input
  | output
  deriving DecidableEq, Repr

/-- A collaborator call (20 R52, R56, R58). -/
inductive Call
  | configure (pin : PinId) (dir : Direction)
  | write (pin : PinId) (v : Level)
  | read (pin : PinId) (v : Level)
  | delayMicroseconds (n : Nat)
  | enter
  | leave
  deriving DecidableEq, Repr

/-- The calls an event stands for, in order (20 R53 to R58). -/
def Event.calls : Event → List Call
  | .driveLow pin => [.write pin .low, .configure pin .output]
  | .release pin => [.configure pin .input]
  | .delay n => [.delayMicroseconds n]
  | .sample pin v => [.read pin v]
  | .critEnter => [.enter]
  | .critLeave => [.leave]

/-- Whether an event is a `Delay`. -/
def Event.isDelay : Event → Bool
  | .delay _ => true
  | .driveLow _ => false
  | .release _ => false
  | .sample _ _ => false
  | .critEnter => false
  | .critLeave => false

/-- The microseconds of one event: the argument of a `Delay`, else 0 (70 R249). -/
def Event.micros : Event → Nat
  | .delay n => n
  | .driveLow _ => 0
  | .release _ => 0
  | .sample _ _ => 0
  | .critEnter => 0
  | .critLeave => 0

/-- An event with its `Delay` argument forgotten. -/
def Event.withoutTime : Event → Event
  | .delay _ => .delay 0
  | .driveLow pin => .driveLow pin
  | .release pin => .release pin
  | .sample pin v => .sample pin v
  | .critEnter => .critEnter
  | .critLeave => .critLeave

/-- The sum of the `Delay` arguments of a trace (70 R249). -/
def delayTotal (tr : List Event) : Nat := (tr.map Event.micros).sum

end Sys2Proof.Machine
end

