-- ==== Sys2Proof/Machine/RefLine.lean ====
section
/-! DEFINITION. The reference environment of spec/20_memory.md R66 to R76: slave devices and lines, at slot level. It is NOT part of
OWPE and no operation uses it ("a model of OWPE must not build these in"); it says which sample answers a well-behaved line
gives, for claims and for the test vectors. Device behaviour at R68, R71 to R73 is PRESUMED by the spec (93 G3; log 19). -/

namespace Sys2Proof.Machine

open Sys2Proof

/-- Which of the three slots of a search position a device waits for (20 R66): true bit, complement, direction. -/
inductive SearchPhase
  | trueBit
  | complement
  | direction
  deriving DecidableEq, Repr

/-- The mode of a reference device (20 R66). -/
inductive DeviceMode
  | idle
  | command (n : Nat) (sh : Byte)
  | search (p : Nat) (phase : SearchPhase)
  | matching (p : Nat)
  | readRom (p : Nat)
  | selected
  | dropped
  deriving DecidableEq, Repr

/-- A reference device (20 R66). -/
structure Device where
  rom : RomCode
  alarm : Bool
  mode : DeviceMode
  deriving DecidableEq, Repr

/-- A legal reference device: CRC 0 and a family code that is not 0 (20 R66). -/
abbrev Device.valid (d : Device) : Prop := romCrc d.rom = 0 ∧ romByte d.rom 0 ≠ 0

/-- A ROM code before the first reset: all devices start `Idle` (20 R66). -/
def Device.fresh (rom : RomCode) (alarm : Bool) : Device := { rom := rom, alarm := alarm, mode := .idle }

/-- `ResetSlot` at a device (20 R67). -/
def Device.afterReset (d : Device) : Device := { d with mode := .command 0 0 }

/-- The mode a complete command byte puts a device in (20 R68). -/
def Device.commandMode (d : Device) (sh : Byte) : DeviceMode :=
  if sh = cmdSearchRom then .search 1 .trueBit
  else if sh = cmdAlarmSearch then (if d.alarm then .search 1 .trueBit else .dropped)
  else if sh = cmdReadRom then .readRom 1
  else if sh = cmdMatchRom then .matching 1
  else if sh = cmdSkipRom then .selected
  else .dropped

/-- `WriteSlot(b)` at a device (20 R68, R70, R71, R73). -/
def Device.afterWrite (d : Device) (b : Bool) : Device :=
  match d.mode with
  | .command n sh =>
    if n < 7 then { d with mode := .command (n + 1) (sh ||| ((BitVec.ofBool b).setWidth 8 <<< n)) }
    else { d with mode := d.commandMode (sh ||| ((BitVec.ofBool b).setWidth 8 <<< n)) }
  | .search p .direction =>
    if b = romBit d.rom p then { d with mode := if p = 64 then .selected else .search (p + 1) .trueBit }
    else { d with mode := .dropped }
  | .search _ .trueBit => { d with mode := .dropped }
  | .search _ .complement => { d with mode := .dropped }
  | .matching p =>
    if b = romBit d.rom p then { d with mode := if p = 64 then .selected else .matching (p + 1) }
    else { d with mode := .dropped }
  | .readRom _ => { d with mode := .dropped }
  | .idle => d
  | .selected => d
  | .dropped => d

/-- The bit a device signals in a `ReadSlot`, if it signals (20 R69, R72, R73). -/
def Device.signal (d : Device) : Option Bool :=
  match d.mode with
  | .search p .trueBit => some (romBit d.rom p)
  | .search p .complement => some (!romBit d.rom p)
  | .readRom p => some (romBit d.rom p)
  | .search _ .direction => none
  | .command _ _ => none
  | .matching _ => none
  | .idle => none
  | .selected => none
  | .dropped => none

/-- `ReadSlot` at a device (20 R69, R72, R73). -/
def Device.afterRead (d : Device) : Device :=
  match d.mode with
  | .search p .trueBit => { d with mode := .search p .complement }
  | .search p .complement => { d with mode := .search p .direction }
  | .readRom p => { d with mode := if p = 64 then .selected else .readRom (p + 1) }
  | .search _ .direction => d
  | .command _ _ => d
  | .matching _ => d
  | .idle => d
  | .selected => d
  | .dropped => d

/-- A line: reference devices (none of them: the empty line), a line stuck low, or the loopback line with the bits written and
not yet returned, the oldest first (20 R66, R75). -/
inductive Line
  | devices (ds : List Device)
  | stuckLow
  | loopback (pending : List Bool)
  deriving DecidableEq, Repr

/-- The answer to a `ResetSlot` (20 R67, R75). -/
def Line.presence : Line → Bool
  | .devices ds => !ds.isEmpty
  | .stuckLow => true
  | .loopback _ => false

/-- The answer to a `ReadSlot`: the AND of the bits signalled, 1 if none is (20 R74, R75; 90 C1). -/
def Line.bit : Line → Bool
  | .devices ds => ds.all fun d => d.signal.getD true
  | .stuckLow => false
  | .loopback pending => pending.headD true

/-- The devices on a line: a stuck-low line and the loopback line have none (20 R75). -/
def Line.deviceList : Line → List Device
  | .devices ds => ds
  | .stuckLow => []
  | .loopback _ => []

/-- A legal line: its devices are legal, and "distinct devices have distinct ROM codes" (20 R66). -/
abbrev Line.legal (l : Line) : Prop := (∀ d ∈ l.deviceList, d.valid) ∧ (l.deviceList.map Device.rom).Nodup

/-- A line before its first slot: "all devices start `Idle`" (20 R66), and nothing has been written on it. -/
def Line.unused : Line → Bool
  | .devices ds => ds.all fun d => d.mode == .idle
  | .stuckLow => true
  | .loopback pending => pending.isEmpty

/-- Whether a slot's answer is the one this line gives, for a slot on the pin of this line. -/
def Line.answers (l : Line) : Slot → Bool
  | .reset _ presence => presence == l.presence
  | .write _ _ => true
  | .read _ b => b == l.bit

/-- The line after a slot on its pin (20 R67 to R75). -/
def Line.after : Line → Slot → Line
  | .devices ds, .reset _ _ => .devices (ds.map Device.afterReset)
  | .devices ds, .write _ b => .devices (ds.map fun d => d.afterWrite b)
  | .devices ds, .read _ _ => .devices (ds.map Device.afterRead)
  | .stuckLow, _ => .stuckLow
  | .loopback pending, .reset _ _ => .loopback pending
  | .loopback pending, .write _ b => .loopback (pending ++ [b])
  | .loopback pending, .read _ _ => .loopback pending.tail

/-- Whether every answer in a sequence of slots on this line's pin is the one this line gives. -/
def Line.agrees : Line → List Slot → Bool
  | _, [] => true
  | l, slot :: slots => l.answers slot && (l.after slot).agrees slots

/-- The line after a sequence of slots on its pin. -/
def Line.afterAll (l : Line) (slots : List Slot) : Line := slots.foldl Line.after l

/-! ### The lines of all pins (20 R76) -/

/-- The line on every pin (10 R22: a bus is the line on its pin). It is no part of `State`. -/
abbrev Lines := PinId → Line

/-- All lines after a slot: "a slot on one pin changes only devices on that pin's line" (20 R76). -/
def Lines.after (ls : Lines) (slot : Slot) : Lines := fun pin => if pin = slot.pin then (ls pin).after slot else ls pin

/-- Whether every answer in a sequence of slots is the one the line on the slot's pin gives. -/
def Lines.agrees : Lines → List Slot → Bool
  | _, [] => true
  | ls, slot :: slots => (ls slot.pin).answers slot && (ls.after slot).agrees slots

/-- All lines after a sequence of slots. -/
def Lines.afterAll (ls : Lines) (slots : List Slot) : Lines := slots.foldl Lines.after ls

/-- What the line on a pin sees of a sequence of slots: the slots of its own pin (20 R76). -/
def slotsOfPin (pin : PinId) (slots : List Slot) : List Slot := slots.filter fun slot => slot.pin == pin

/-! ### Searching a line -/

/-- Whether a device takes part in a search pass with this command byte: in SEARCH every device, in ALARM_SEARCH those "in an
alarm condition" (20 R68, 43 R159). -/
def Device.answersSearch (d : Device) (cmdByte : Byte) : Bool :=
  cmdByte == cmdSearchRom || (cmdByte == cmdAlarmSearch && d.alarm)

/-- The ROM codes of the devices that take part in a search pass with this command byte. -/
def searchedRoms (ds : List Device) (cmdByte : Byte) : List RomCode :=
  (ds.filter fun d => d.answersSearch cmdByte).map Device.rom

/-- The number whose order is the order of discovery (43 R174): the address read from position 1 upward, position 1 the most
significant digit. -/
def discoveryKey (r : RomCode) : Nat := r.reverse.toNat

/-- What the state of a bus means after a successful pass on a line of devices with the ROM codes `roms`: `rom` is one of them,
and `last_discrepancy` is the highest position where `rom` has a 0 and a device agreeing with it before that position has a 1;
0 if there is none (10 R26, 43 R169, R174). -/
def Bus.atFrontier (b : Bus) (roms : List RomCode) : Prop :=
  b.rom ∈ roms ∧
  (b.lastDiscrepancy = 0 ∨ (b.lastDiscrepancy ≤ 64 ∧ romBit b.rom b.lastDiscrepancy = false ∧
    ∃ r ∈ roms, romBit r b.lastDiscrepancy = true ∧ ∀ q, 1 ≤ q → q < b.lastDiscrepancy → romBit r q = romBit b.rom q)) ∧
  ∀ p, b.lastDiscrepancy < p → p ≤ 64 → romBit b.rom p = false →
    ¬ ∃ r ∈ roms, romBit r p = true ∧ ∀ q, 1 ≤ q → q < p → romBit r q = romBit b.rom q

end Sys2Proof.Machine
end

