-- ==== Sys2Proof/Safety.lean ====
section
/-! DEFINITION. What a safe run keeps: the invariants of spec/10_state.md R29 and R33 to R35, the discipline of the trace
(spec/60_exceptions.md R217, spec/20_memory.md R55, R62), and the form of a response (spec/30_encoding.md R88). In the terms
the statements use. -/

namespace Sys2Proof.Machine

open Sys2Proof

/-- A handle the guard lets through (30 R91). -/
abbrev State.usable (s : State) (h : Nat) : Prop := h < s.cfg.nBus ∧ (s.busAt h).initialized = true

/-- The idle values of `busy`, `crit` and every `drv[pin]` (10 R33 to R35, 70 R248). -/
abbrev State.quiet (s : State) : Prop := s.busy = false ∧ s.wire.crit = false ∧ s.wire.driven = []

/-- The search fields of a slot as a fresh slot has them (10 R43). -/
abbrev Bus.searchCleared (b : Bus) : Prop :=
  b.rom = 0 ∧ b.lastDiscrepancy = 0 ∧ b.lastFamilyDiscrepancy = 0 ∧ b.lastDeviceFlag = false

/-- What holds of an allocated slot between operations: the bounds of 10 R26 and R27; `rom` has CRC 0; and either no
enumeration is under way, or `rom` is an address with a family code that is not 0, the flag is set exactly when
`last_discrepancy` is 0, and a 0 was taken at `last_discrepancy` (10 R26, R29; 43 R169, R170, R171). -/
abbrev Bus.inv (b : Bus) : Prop :=
  b.initialized = true ∧ b.lastDiscrepancy ≤ 64 ∧ b.lastFamilyDiscrepancy ≤ 8 ∧ romCrc b.rom = 0 ∧
  (b.searchCleared ∨
    (romByte b.rom 0 ≠ 0 ∧ b.lastDeviceFlag = decide (b.lastDiscrepancy = 0) ∧
      (b.lastDiscrepancy = 0 ∨ romBit b.rom b.lastDiscrepancy = false)))

/-- Where in a critical section the engine is, as far as the trace shows. -/
inductive TracePhase
  /-- Outside every critical section, no line driven. -/
  | outside
  /-- Inside one, no line driven. -/
  | inside
  /-- Inside one, this line driven low. -/
  | driving (pin : PinId)
  deriving DecidableEq, Repr

/-- One event of a disciplined trace: sections do not nest and alternate (60 R217), a line is driven only inside one (20 R62)
and released before anything but a delay happens, a sample is taken only while the line is released (20 R55). -/
def TracePhase.next : TracePhase → Event → Option TracePhase
  | .outside, .critEnter => some .inside
  | .outside, .delay _ => some .outside
  | .outside, .release _ => some .outside
  | .outside, .critLeave => none
  | .outside, .driveLow _ => none
  | .outside, .sample _ _ => none
  | .inside, .driveLow pin => some (.driving pin)
  | .inside, .delay _ => some .inside
  | .inside, .sample _ _ => some .inside
  | .inside, .critLeave => some .outside
  | .inside, .critEnter => none
  | .inside, .release _ => none
  | .driving pin, .delay _ => some (.driving pin)
  | .driving pin, .release q => if q = pin then some .inside else none
  | .driving _, .critEnter => none
  | .driving _, .critLeave => none
  | .driving _, .driveLow _ => none
  | .driving _, .sample _ _ => none

/-- Where a trace leads from a phase, if it is disciplined. -/
def TracePhase.run : TracePhase → List Event → Option TracePhase
  | ph, [] => some ph
  | ph, e :: es =>
    match ph.next e with
    | some ph' => ph'.run es
    | none => none

/-- A disciplined trace that ends outside every critical section with no line driven. -/
abbrev disciplined (tr : List Event) : Prop := TracePhase.run .outside tr = some .outside

/-- A word that is a response: some status, and `data = 0` unless it is `Ok` (30 R88). -/
def isResponse (w : Word) : Prop := ∃ st data, w = responseWord st data ∧ (st = .ok ∨ data = 0)

/-- The invariant of the machine between operations (10 R29, R33 to R35; 60 R217; 30 R88). -/
structure State.Inv (s : State) : Prop where
  /-- 00 R11. -/
  sized : s.cfg.sized
  /-- `bus[0 .. N_BUS - 1]` (10 R21). -/
  slots : s.bus.length = s.cfg.nBus
  /-- 0 ≤ `count` ≤ `N_BUS` (10 R21, R29 (i)). -/
  countLe : s.count ≤ s.cfg.nBus
  /-- Slots `0 .. count - 1` are allocated (10 R21, R23). -/
  allocated : ∀ h, h < s.count → (s.busAt h).inv
  /-- A free slot has every field 0 (10 R29 (vi)). -/
  free : ∀ h, s.count ≤ h → s.busAt h = Bus.free
  /-- "each bound to a distinct pin" (10 R22, R29 (i)). -/
  distinct : ∀ h k, h < s.count → k < s.count → (s.busAt h).pin = (s.busAt k).pin → h = k
  /-- DBUF's canonical form (20 R46; log 3). -/
  buffer : Memory.wf s.cfg.lBuf s.dbuf
  /-- 10 R33 to R35. -/
  idle : s.quiet
  /-- `rsp_valid` is raised by a response (30 R81, R88). -/
  response : s.rspValid = true → isResponse s.rsp
  /-- 60 R217, 20 R55. -/
  trace : disciplined s.wire.trace

/-! ### The words the statements use -/

/-- The response word of a success, in the spec's vectors' notation: `0x80000000 | data` (95 Notation, 30 R88). -/
def okWord (data : Half) : Word := 0x80000000#32 ||| data.setWidth 32

/-- The response word of a failure: `status << 24` (95 Notation, 30 R88, R89). -/
def failWord (code : Nat) : Word := BitVec.ofNat 32 code <<< 24

/-- `s` with the response written, `rsp_valid` raised and `busy` cleared, and nothing else changed (30 R81). -/
def State.answered (s : State) (w : Word) : State := { s with rsp := w, rspValid := true, busy := false }

/-- `s` with its wire side as the slots leave it, and nothing else changed (20 R65). -/
def State.played (s : State) (slots : List Slot) : State := { s with wire := s.wire.play s.cfg.timing slots }

/-- Every word with this opcode, whatever its other bits, stands for the operation `f` takes from its fields (30 R83 to R86). -/
def encodedAs (op : Byte) (f : Word → Instr) : Prop := ∀ w : Word, fieldOp w = op → decode w = .instr (f w)

/-- What an operation on handle `h` answers when the guard stops it: `InvalidHandle` (2) for a slot that does not exist,
`NotInitialized` (3) for one that is not initialized, and nothing else happens (30 R91; 60 R202, R203). -/
abbrev guardedBy (s : State) (h : Nat) (o : Host.Outcome State Fault Refusal) : Prop :=
  (s.cfg.nBus ≤ h → o = .next (s.answered (failWord 2))) ∧
  (h < s.cfg.nBus → (s.busAt h).initialized = false → o = .next (s.answered (failWord 3)))

/-- The bit the `n`-th next sample gives a read slot: 1 iff the level is `H` (20 R65). -/
def Wire.bitAt (w : Wire) (n : Nat) : Bool := decide (w.answerAt n = .high)

/-- The next `n` slots as read slots on a pin, starting with sample number `start` of those still to come. -/
def Wire.readSlots (w : Wire) (pin : PinId) (start n : Nat) : List Slot :=
  (List.range n).map fun k => .read pin (w.bitAt (start + k))

/-- The two bits read at search position `p` of a pass that starts with the presence sample: samples `2p - 1` and `2p`
(43 R163, R164). -/
def Wire.idAt (w : Wire) (p : Nat) : Bool := w.bitAt (2 * p - 1)

/-- The complement bit read at search position `p` (43 R164). -/
def Wire.cmpAt (w : Wire) (p : Nat) : Bool := w.bitAt (2 * p)

/-- `r` holds the bits a pass chooses at positions 1 to `n`, starting from slot `b` (43 R165's table): the common bit where the
two bits read differ; at a discrepancy the stored bit below `last_discrepancy`, 1 at it, 0 beyond it. -/
def resolves (b : Bus) (w : Wire) (r : RomCode) (n : Nat) : Prop :=
  ∀ p, 1 ≤ p → p ≤ n → romBit r p =
    if w.idAt p = false ∧ w.cmpAt p = false then
      (if p < b.lastDiscrepancy then romBit b.rom p else decide (p = b.lastDiscrepancy))
    else w.idAt p

/-- A search position at which a pass that stored `r` took a 0 at a discrepancy (43 R165). -/
abbrev zeroAt (w : Wire) (r : RomCode) (p : Nat) : Prop :=
  1 ≤ p ∧ p ≤ 64 ∧ w.idAt p = false ∧ w.cmpAt p = false ∧ romBit r p = false

/-- `n` is the highest position up to `limit` with the property, or none has it and `n` is `default`. -/
abbrev highestOr (P : Nat → Prop) (limit default n : Nat) : Prop :=
  (P n ∧ n ≤ limit ∧ ∀ q, n < q → q ≤ limit → ¬ P q) ∨ (n = default ∧ ∀ q, q ≤ limit → ¬ P q)

/-- The slots of search position `p` in a pass that stores `r`: read, read, write (43 R163). -/
def Wire.positionSlots (w : Wire) (pin : PinId) (r : RomCode) (p : Nat) : List Slot :=
  [.read pin (w.idAt p), .read pin (w.cmpAt p), .write pin (romBit r p)]

/-- The slots of a pass up to position `n`: reset, the command byte, then each position (43 R161 to R163). -/
def Wire.passSlots (w : Wire) (pin : PinId) (cmdByte : Byte) (r : RomCode) (n : Nat) : List Slot :=
  .reset pin true :: (writeSlots pin [cmdByte] ++ (List.range n).flatMap fun k => w.positionSlots pin r (k + 1))

/-- Where an operation stores to DBUF (20 R46, R48; 40 R110; 41 R134; 42 R144; 43 R169). -/
def storesTo (i : Instr) (a : Nat) : Prop :=
  match i with
  | .bufWr idx _ => a = idx
  | .readBytes _ len => a < len
  | .readRom _ => a < 8
  | .search _ => a < 8
  | .alarmSearch _ => a < 8
  | .acquire _ => False
  | .lookup _ => False
  | .bufRd _ => False
  | .rdState _ => False
  | .rdRom _ _ => False
  | .reset _ => False
  | .writeBit _ _ => False
  | .readBit _ => False
  | .writeByte _ _ => False
  | .readByte _ => False
  | .writeBytes _ _ => False
  | .skipRom _ => False
  | .matchRom _ => False
  | .select _ => False
  | .resetSearch _ => False
  | .crc8 _ => False
  | .verify _ => False

/-- The two forms of a search with their command bytes (43 R158, R159; 30 R96). -/
def isSearch (i : Instr) (h : Nat) (cmdByte : Byte) : Prop :=
  (i = .search h ∧ cmdByte = 0xF0) ∨ (i = .alarmSearch h ∧ cmdByte = 0xEC)

/-- Operation `i` completes, and the delays of the events it adds come to `n` microseconds (70 R249). -/
def lasts (i : Instr) (s : State) (n : Nat) : Prop :=
  ∃ (t : State) (added : List Event), exec i s = .next t ∧ t.wire.trace = s.wire.trace ++ added ∧ delayTotal added = n

/-- `ts` are the states after successive runs of `i` from `s` on, each run's slots (read off the trace) answered by the lines as
the runs before left them (20 R65, R75, R76). -/
def runsOnLines (i : Instr) : State → Lines → List State → Prop
  | _, _, [] => True
  | s, ls, t :: ts => exec i s = .next t ∧ ∃ slots : List Slot,
      t.wire.trace = s.wire.trace ++ slots.flatMap (slotEvents s.cfg.timing) ∧ ls.agrees slots = true ∧
      runsOnLines i t (ls.afterAll slots) ts

/-- The pin a pin event names (20 R59). -/
def Event.pin? : Event → Option PinId
  | .driveLow pin => some pin
  | .release pin => some pin
  | .sample pin _ => some pin
  | .delay _ => none
  | .critEnter => none
  | .critLeave => none

end Sys2Proof.Machine
end

