-- ==== Sys2Proof/Certificates/Slice0/Obligations.lean ====
section
/-! DEFINITION. The statements for the provers. A spec rule is cited as `file R<n>`. An answer is written in the spec's own
vector notation (`okWord`, `failWord`), the wire side as slots (spec/20_memory.md R65) through `Wire.play`. -/

open Sys2Proof Sys2Proof.Machine

/-! ### Encoding -/

/-- 30 R83, R84, R86: decoding the encoding of an operation gives it back, with every operand at every value its field holds. -/
def Obligations.DecodeOfEncodeIsTheInstruction : Prop :=
  ∀ i : Instr, i.wf = true → decode (encode i) = .instr i

/-- 30 R85: bits an opcode does not use are ignored: the used bits give the operation, and they are exactly the bits its encoding
carries. -/
def Obligations.UnusedCommandBitsAreIgnored : Prop :=
  ∀ (w : Word) (i : Instr), decode w = .instr i →
    encode i = w &&& i.usedMask ∧ ∀ w' : Word, w' &&& i.usedMask = w &&& i.usedMask → decode w' = .instr i

/-- 30 R84: every operand a command word carries is in its range. -/
def Obligations.DecodedInstructionIsWellFormed : Prop :=
  ∀ (w : Word) (i : Instr), decode w = .instr i → i.wf = true

/-- 30 R86: words of spec/95_test_vectors.md decode to the operations they stand for. A sanity statement. -/
def Obligations.VectorWordsDecodeAsListed : Prop :=
  decode 0x01050000 = .instr (.acquire 5) ∧ decode 0x0105BEEF = .instr (.acquire 5) ∧
  decode 0x030F00FF = .instr (.bufWr 15 0xFF) ∧ decode 0x0600000F = .instr (.rdRom 0 7) ∧
  decode 0x1100FFFE = .instr (.writeBit 0 false) ∧ decode 0x15020011 = .instr (.writeBytes 2 17) ∧
  decode 0x22000000 = .instr (.matchRom 0) ∧ decode 0x31000000 = .instr (.alarmSearch 0) ∧
  decode 0x40FF0007 = .instr (.crc8 7)

/-- 30 R87: a reserved opcode is accepted, answers `IllegalCommand` (0x0B000000) and changes nothing else; acceptance itself
latches `CMD` (30 R81). That `CMD` holds the word after the response (`cmd := w`) is the model's choice (log 25). -/
def Obligations.ReservedCommandAnswersIllegal : Prop :=
  ∀ (s : State) (w : Word) (rest : List HostInput), s.busy = false → s.host = .command w :: rest →
    (fieldOp w = 0x00 ∨ (0x07 ≤ fieldOp w ∧ fieldOp w ≤ 0x0F) ∨ (0x17 ≤ fieldOp w ∧ fieldOp w ≤ 0x1F) ∨
      (0x24 ≤ fieldOp w ∧ fieldOp w ≤ 0x2F) ∨ (0x33 ≤ fieldOp w ∧ fieldOp w ≤ 0x3F) ∨ 0x42 ≤ fieldOp w) →
    step s = .next { s with rsp := 0x0B000000, rspValid := true, busy := false, cmd := w, host := rest }

/-! ### The step -/

/-- 30 R81: a step that accepts a command runs the decoded operation, from the state with `busy` set, the word latched and
`rsp_valid` down. -/
def Obligations.StepRunsTheDecodedCommand : Prop :=
  ∀ (s : State) (w : Word) (rest : List HostInput) (i : Instr), s.busy = false → s.host = .command w :: rest →
    decode w = .instr i → step s = exec i { s with busy := true, cmd := w, rspValid := false, host := rest }

/-- 30 R88, R89: every accepted command, reserved ones included, ends with one response of R88's form, whose status is one of
R89's twelve. That one step runs the operation to its end is DEDUCED (log 9); that `CMD` holds the word after the response
(`t.cmd = w`) is the model's choice (log 25). -/
def Obligations.EveryAcceptedCommandGetsOneResponse : Prop :=
  ∀ (s : State) (w : Word) (rest : List HostInput), s.busy = false → s.host = .command w :: rest →
    ∃ t, step s = .next t ∧ t.busy = false ∧ t.rspValid = true ∧ t.cmd = w ∧ t.host = rest ∧
      t.rsp.extractLsb' 28 3 = 0 ∧ t.rsp.extractLsb' 16 8 = 0 ∧ t.rsp.extractLsb' 24 4 ≤ 11 ∧
      (t.rsp.getLsbD 31 = true ↔ t.rsp.extractLsb' 24 4 = 0) ∧
      (t.rsp.getLsbD 31 = false → t.rsp.extractLsb' 0 16 = 0)

/-- 30 R82: while busy no command is accepted and the one offered waits; with nothing offered an idle engine does nothing
(70 R248). That a step in a state with `busy` 1 changes nothing, a command offered or not, is the model's choice: in the spec a
busy engine runs its operation to its end (30 R81, R82), which here is all inside the step that accepts it (log 9, DEDUCED);
and what the host offers is a script (log 7, DESIGN CHOICE). -/
def Obligations.NothingHappensWithoutAnAcceptedCommand : Prop :=
  ∀ s : State, (s.host = [] ∨ ∃ w rest, s.busy = true ∧ s.host = .command w :: rest) → step s = .next s

/-- 10 R42, 70 R230: hardware reset, at any time and from any state, leaves the values of the table. Every DBUF byte is
unspecified: nothing is listed as written, and each byte reads as a free value (log 3, DESIGN CHOICE of form); `CMD` likewise
(log 4). The empty trace is 20 R59's "since hardware reset" (log 11), the configuration as before is 70 R230, a start in the
middle of an operation is 70 R231, and the reset as a host input counted by `epoch` is log 10 (DESIGN CHOICE). -/
def Obligations.HardwareResetLeavesTheResetValues : Prop :=
  ∀ (s : State) (rest : List HostInput), s.host = .hardReset :: rest →
    ∃ t, step s = .next t ∧ t.count = 0 ∧
      (∀ h, h < s.cfg.nBus → t.bus[h]? =
        some { pin := 0, initialized := false, rom := 0, lastDiscrepancy := 0, lastFamilyDiscrepancy := 0,
               lastDeviceFlag := false }) ∧
      t.bus.length = s.cfg.nBus ∧ (∀ a, Memory.lookup t.dbuf a = none) ∧
      (∀ a, t.dbufByte a = Config.freeDbuf t.epoch a) ∧ t.cmd = Config.freeCmd t.epoch ∧ t.epoch = s.epoch + 1 ∧
      t.rsp = 0 ∧ t.busy = false ∧
      t.wire.crit = false ∧ (∀ pin, t.wire.drive pin = .released) ∧ t.wire.trace = [] ∧ t.cfg = s.cfg ∧ t.host = rest

/-- 70 R232: straight after reset every LOOKUP answers `NotFound`, every operation on a handle answers `InvalidHandle` or
`NotInitialized` with nothing else changed, and the first ACQUIRE gives handle 0, in every configuration. -/
def Obligations.StraightAfterResetNoBusIsUsable : Prop :=
  ∀ (c : Config) (epoch : Nat), c.sized →
    (∀ pin, exec (.lookup pin) (State.resetWith c epoch) = .next ((State.resetWith c epoch).answered (failWord 8))) ∧
    (∀ i h, i.handle? = some h →
      exec i (State.resetWith c epoch) =
        .next ((State.resetWith c epoch).answered (if c.nBus ≤ h then failWord 2 else failWord 3))) ∧
    (∀ pin, ∃ t, exec (.acquire pin) (State.resetWith c epoch) = .next t ∧ t.rsp = okWord 0 ∧ t.count = 1)

/-- 30 R91: the handle check of every operation that names a handle; a handle in `count .. N_BUS - 1` is `NotInitialized`. -/
def Obligations.EveryHandleIsCheckedFirst : Prop :=
  ∀ (s : State) (i : Instr) (h : Nat), i.handle? = some h →
    guardedBy s h (exec i s) ∧
    (s.Inv → s.count ≤ h → h < s.cfg.nBus → exec i s = .next (s.answered (failWord 3)))

/-! ### Invariants -/

/-- 10 R29, R42: the invariant holds after reset, in every configuration the spec allows and in the one `State.reset` carries.
The clause on responses holds there only because the model chooses `rsp_valid` 0 at reset (log 8, DESIGN CHOICE: `RSP` 0 is no
response word), and `State.reset` is the instance log 1 chooses. -/
def Obligations.InvariantHoldsAfterReset : Prop :=
  (∀ (c : Config) (epoch : Nat), c.sized → (State.resetWith c epoch).Inv) ∧ State.reset.Inv

/-- 10 R29, R33 to R35, R42, R43, 30 R88, 43 R169, R170, 60 R217: every step keeps the invariant. A hardware reset keeps the
clause on responses only by the model's choice of `rsp_valid` 0 at reset (log 8, DESIGN CHOICE), and that `rom` has CRC 0 rests on
the spec's own decision that a failed pass zeroes it (log 13). -/
def Obligations.EveryStepKeepsTheInvariant : Prop :=
  ∀ s t : State, s.Inv → step s = .next t → t.Inv

/-- 00 R11, R12, 10 R36: no step changes the configuration. -/
def Obligations.NoStepChangesTheConfiguration : Prop :=
  ∀ s t : State, step s = .next t → t.cfg = s.cfg

/-! ### Registry, buffer and read-back -/

/-- 40 R106: ACQUIRE, all three ways. -/
def Obligations.AcquireReturnsAllocatesOrReportsFull : Prop :=
  encodedAs 0x01 (fun w => .acquire (fieldA w)) ∧
  ∀ (s : State) (pin : PinId),
    (∀ h, h < s.count → (s.busAt h).pin = pin → (∀ k, k < h → (s.busAt k).pin ≠ pin) →
      exec (.acquire pin) s = .next (s.answered (okWord (BitVec.ofNat 16 h)))) ∧
    ((∀ h, h < s.count → (s.busAt h).pin ≠ pin) → s.count = s.cfg.nBus →
      exec (.acquire pin) s = .next (s.answered (failWord 1))) ∧
    ((∀ h, h < s.count → (s.busAt h).pin ≠ pin) → s.count ≠ s.cfg.nBus →
      exec (.acquire pin) s = .next
        ({ s with
            count := s.count + 1
            bus := s.bus.set s.count
              { pin := pin, initialized := true, rom := 0, lastDiscrepancy := 0, lastFamilyDiscrepancy := 0,
                lastDeviceFlag := false }
            wire := { s.wire with
              driven := s.wire.driven.filter (· != pin), events := .release pin :: s.wire.events } }.answered
          (okWord (BitVec.ofNat 16 s.count))))

/-- 40 R107 (a), (b): a second ACQUIRE of the same pin gives the same answer and changes nothing. -/
def Obligations.AcquireIsIdempotent : Prop :=
  ∀ (s t : State) (pin : PinId), s.bus.length = s.cfg.nBus → s.count ≤ s.cfg.nBus →
    exec (.acquire pin) s = .next t → exec (.acquire pin) t = .next t

/-- 40 R108: LOOKUP finds the slot that holds the pin, or answers `NotFound`; it writes only the response. -/
def Obligations.LookupFindsTheHandleOrNotFound : Prop :=
  encodedAs 0x02 (fun w => .lookup (fieldA w)) ∧
  ∀ (s : State) (pin : PinId),
    (∀ h, h < s.count → (s.busAt h).pin = pin → (∀ k, k < h → (s.busAt k).pin ≠ pin) →
      exec (.lookup pin) s = .next (s.answered (okWord (BitVec.ofNat 16 h)))) ∧
    ((∀ h, h < s.count → (s.busAt h).pin ≠ pin) → exec (.lookup pin) s = .next (s.answered (failWord 8)))

/-- 40 R110, 20 R49: BUF_WR writes one byte of DBUF and nothing else; an index not below `L_BUF` fails. -/
def Obligations.BufWrStoresOneByte : Prop :=
  encodedAs 0x03 (fun w => .bufWr (fieldA w).toNat ((fieldArg w).setWidth 8)) ∧
  ∀ (s : State) (idx : Nat) (byte : Byte),
    (idx < s.cfg.lBuf → ∃ t, exec (.bufWr idx byte) s = .next t ∧ t = ({ s with dbuf := t.dbuf }.answered (okWord 0)) ∧
      t.dbufByte idx = byte ∧ ∀ a, a ≠ idx → t.dbufByte a = s.dbufByte a) ∧
    (s.cfg.lBuf ≤ idx → exec (.bufWr idx byte) s = .next (s.answered (failWord 7)))

/-- 40 R112: BUF_RD returns the byte and changes nothing; an index not below `L_BUF` fails. -/
def Obligations.BufRdReturnsTheByte : Prop :=
  encodedAs 0x04 (fun w => .bufRd (fieldA w).toNat) ∧
  ∀ (s : State) (idx : Nat),
    (idx < s.cfg.lBuf → exec (.bufRd idx) s = .next (s.answered (okWord ((s.dbufByte idx).setWidth 16)))) ∧
    (s.cfg.lBuf ≤ idx → exec (.bufRd idx) s = .next (s.answered (failWord 7)))

/-- 40 R115: RD_STATE packs the flag at bit 11, the family discrepancy at 10:7 and the discrepancy at 6:0. -/
def Obligations.RdStatePacksTheSearchState : Prop :=
  encodedAs 0x05 (fun w => .rdState (fieldA w).toNat) ∧
  ∀ (s : State) (h : Nat), guardedBy s h (exec (.rdState h) s) ∧
    (s.usable h → (s.busAt h).lastDiscrepancy < 128 → (s.busAt h).lastFamilyDiscrepancy < 16 →
      exec (.rdState h) s = .next (s.answered (okWord (BitVec.ofNat 16
        ((if (s.busAt h).lastDeviceFlag then 2048 else 0) + 128 * (s.busAt h).lastFamilyDiscrepancy +
          (s.busAt h).lastDiscrepancy)))))

/-- 40 R117, 20 R51: RD_ROM returns byte `i` of `rom`. -/
def Obligations.RdRomReturnsTheRomByte : Prop :=
  encodedAs 0x06 (fun w => .rdRom (fieldA w).toNat (Fin.ofNat 8 (fieldArg w).toNat)) ∧
  ∀ (s : State) (h : Nat) (i : Fin 8), guardedBy s h (exec (.rdRom h i) s) ∧
    (s.usable h → exec (.rdRom h i) s =
      .next (s.answered (okWord (((s.busAt h).rom >>> (8 * i.val)).setWidth 8 |>.setWidth 16))))

/-! ### Signal primitives -/

/-- 41 R122: RESET emits one reset slot (eight events, log 22) whatever it samples, and answers 1 on presence, `NoPresence` otherwise. -/
def Obligations.ResetDetectsPresence : Prop :=
  encodedAs 0x10 (fun w => .reset (fieldA w).toNat) ∧
  ∀ (s : State) (h : Nat), guardedBy s h (exec (.reset h) s) ∧
    (s.usable h → exec (.reset h) s = .next
      ((s.played [.reset (s.busAt h).pin (decide (s.wire.answerAt 0 = .low))]).answered
        (if s.wire.answerAt 0 = .low then okWord 1 else failWord 4)))

/-- 41 R124: WRITE_BIT emits one write slot and takes no sample. -/
def Obligations.WriteBitEmitsOneSlot : Prop :=
  encodedAs 0x11 (fun w => .writeBit (fieldA w).toNat ((fieldArg w).getLsbD 0)) ∧
  ∀ (s : State) (h : Nat) (bit : Bool), guardedBy s h (exec (.writeBit h bit) s) ∧
    (s.usable h → exec (.writeBit h bit) s = .next
      ((s.played [.write (s.busAt h).pin bit]).answered (okWord 0)))

/-- 41 R126: READ_BIT emits one read slot and answers 1 iff the sample is `H`. -/
def Obligations.ReadBitReturnsTheSample : Prop :=
  encodedAs 0x12 (fun w => .readBit (fieldA w).toNat) ∧
  ∀ (s : State) (h : Nat), guardedBy s h (exec (.readBit h) s) ∧
    (s.usable h → exec (.readBit h) s = .next
      ((s.played [.read (s.busAt h).pin (decide (s.wire.answerAt 0 = .high))]).answered
        (if s.wire.answerAt 0 = .high then okWord 1 else okWord 0)))

/-- 41 R128: WRITE_BYTE emits eight write slots, bit 0 first. -/
def Obligations.WriteByteSendsLowBitFirst : Prop :=
  encodedAs 0x13 (fun w => .writeByte (fieldA w).toNat ((fieldArg w).setWidth 8)) ∧
  ∀ (s : State) (h : Nat) (v : Byte), guardedBy s h (exec (.writeByte h v) s) ∧
    (s.usable h → exec (.writeByte h v) s = .next
      ((s.played ((List.range 8).map fun k => .write (s.busAt h).pin (v.getLsbD k))).answered
        (okWord 0)))

/-- 41 R130: READ_BYTE emits eight read slots; the first is bit 0. -/
def Obligations.ReadByteTakesLowBitFirst : Prop :=
  encodedAs 0x14 (fun w => .readByte (fieldA w).toNat) ∧
  ∀ (s : State) (h : Nat), guardedBy s h (exec (.readByte h) s) ∧
    (s.usable h → ∀ v : Byte, (∀ k, k < 8 → v.getLsbD k = s.wire.bitAt k) → exec (.readByte h) s = .next
      ((s.played (s.wire.readSlots (s.busAt h).pin 0 8)).answered (okWord (v.setWidth 16))))

/-- 41 R132: WRITE_BYTES sends DBUF[0 .. len-1] in ascending order; a length over `L_BUF` fails after the handle check. -/
def Obligations.WriteBytesSendsTheBuffer : Prop :=
  encodedAs 0x15 (fun w => .writeBytes (fieldA w).toNat (fieldArg w).toNat) ∧
  ∀ (s : State) (h len : Nat), guardedBy s h (exec (.writeBytes h len) s) ∧
    (s.usable h → s.cfg.lBuf < len → exec (.writeBytes h len) s = .next (s.answered (failWord 7))) ∧
    (s.usable h → len ≤ s.cfg.lBuf → exec (.writeBytes h len) s = .next
      ((s.played ((List.range len).flatMap fun k =>
            (List.range 8).map fun j => .write (s.busAt h).pin ((s.dbufByte k).getLsbD j))).answered (okWord 0)))

/-- 41 R134: READ_BYTES fills DBUF[0 .. len-1] in ascending order and touches no other byte. -/
def Obligations.ReadBytesFillsTheBuffer : Prop :=
  encodedAs 0x16 (fun w => .readBytes (fieldA w).toNat (fieldArg w).toNat) ∧
  ∀ (s : State) (h len : Nat), guardedBy s h (exec (.readBytes h len) s) ∧
    (s.usable h → s.cfg.lBuf < len → exec (.readBytes h len) s = .next (s.answered (failWord 7))) ∧
    (s.usable h → len ≤ s.cfg.lBuf → ∃ t, exec (.readBytes h len) s = .next t ∧
      t = ({ s.played (s.wire.readSlots (s.busAt h).pin 0 (8 * len)) with dbuf := t.dbuf }.answered (okWord 0)) ∧
      (∀ k, k < len → ∀ j, j < 8 → (t.dbufByte k).getLsbD j = s.wire.bitAt (8 * k + j)) ∧
      ∀ a, len ≤ a → t.dbufByte a = s.dbufByte a)

/-! ### ROM command layer -/

/-- 42 R142: SKIP_ROM sends the Skip-ROM byte (0xCC, PRESUMED, log 12) and nothing else. -/
def Obligations.SkipRomSendsItsCommandByte : Prop :=
  encodedAs 0x20 (fun w => .skipRom (fieldA w).toNat) ∧
  ∀ (s : State) (h : Nat), guardedBy s h (exec (.skipRom h) s) ∧
    (s.usable h → exec (.skipRom h) s = .next
      ((s.played (writeSlots (s.busAt h).pin [0xCC])).answered (okWord 0)))

/-- 42 R144: READ_ROM. `r` is the address whose bits the 64 read slots return (the Read-ROM byte 0x33 is PRESUMED, log 12). -/
def Obligations.ReadRomReturnsAValidatedAddress : Prop :=
  encodedAs 0x21 (fun w => .readRom (fieldA w).toNat) ∧
  ∀ (s : State) (h : Nat), guardedBy s h (exec (.readRom h) s) ∧
    (s.usable h → s.wire.answerAt 0 = .high → exec (.readRom h) s = .next
      ((s.played [.reset (s.busAt h).pin false]).answered (failWord 4))) ∧
    (s.usable h → s.wire.answerAt 0 = .low → ∀ r : RomCode, (∀ p, 1 ≤ p → p ≤ 64 → romBit r p = s.wire.bitAt p) →
      (romCrc r ≠ 0 → exec (.readRom h) s = .next
        ((s.played (.reset (s.busAt h).pin true ::
            (writeSlots (s.busAt h).pin [0x33] ++ s.wire.readSlots (s.busAt h).pin 1 64))).answered (failWord 6))) ∧
      (romCrc r = 0 → ∃ t, exec (.readRom h) s = .next t ∧
        t = ({ s.played (.reset (s.busAt h).pin true ::
                (writeSlots (s.busAt h).pin [0x33] ++ s.wire.readSlots (s.busAt h).pin 1 64)) with
                  dbuf := t.dbuf }.answered (okWord 0)) ∧
        (∀ k, k < 8 → t.dbufByte k = romByte r k) ∧ ∀ a, 8 ≤ a → t.dbufByte a = s.dbufByte a))

/-- 42 R146: MATCH_ROM sends the Match-ROM byte (0x55, PRESUMED, log 12) and DBUF[0..7], and performs no reset. -/
def Obligations.MatchRomSendsTheAddress : Prop :=
  encodedAs 0x22 (fun w => .matchRom (fieldA w).toNat) ∧
  ∀ (s : State) (h : Nat), guardedBy s h (exec (.matchRom h) s) ∧
    (s.usable h → exec (.matchRom h) s = .next
      ((s.played (writeSlots (s.busAt h).pin (0x55 :: (List.range 8).map fun k => s.dbufByte k))).answered (okWord 0)))

/-- 42 R148: SELECT is one reset and then, only on presence, MATCH_ROM's slots (0x55 is PRESUMED, log 12). -/
def Obligations.SelectResetsThenMatches : Prop :=
  encodedAs 0x23 (fun w => .select (fieldA w).toNat) ∧
  ∀ (s : State) (h : Nat), guardedBy s h (exec (.select h) s) ∧
    (s.usable h → s.wire.answerAt 0 = .high → exec (.select h) s = .next
      ((s.played [.reset (s.busAt h).pin false]).answered (failWord 4))) ∧
    (s.usable h → s.wire.answerAt 0 = .low → exec (.select h) s = .next
      ((s.played (.reset (s.busAt h).pin true ::
          writeSlots (s.busAt h).pin (0x55 :: (List.range 8).map fun k => s.dbufByte k))).answered (okWord 0)))

/-! ### The search engine -/

/-- 43 R160: with the flag set a search answers `NoMoreDevices` with no other effect, and goes on doing so. -/
def Obligations.SearchStopsAfterTheLastDevice : Prop :=
  ∀ (s : State) (h : Nat) (i : Instr) (cmdByte : Byte), isSearch i h cmdByte → s.usable h →
    (s.busAt h).lastDeviceFlag = true →
    exec i s = .next (s.answered (failWord 9)) ∧
    ∀ (j : Instr) (b : Byte), isSearch j h b → exec j (s.answered (failWord 9)) = .next (s.answered (failWord 9))

/-- 43 R161: with no presence a search clears the search state, answers `NoPresence` and emits only the reset. -/
def Obligations.SearchWithoutPresenceClearsTheState : Prop :=
  ∀ (s : State) (h : Nat) (i : Instr) (cmdByte : Byte), isSearch i h cmdByte → s.usable h →
    (s.busAt h).lastDeviceFlag = false → s.wire.answerAt 0 = .high →
    exec i s = .next
      ({ s.played [.reset (s.busAt h).pin false] with
          bus := s.bus.set h { s.busAt h with
            rom := 0, lastDiscrepancy := 0, lastFamilyDiscrepancy := 0, lastDeviceFlag := false } }.answered (failWord 4))

/-- 43 R164: at the first position `p` where both bits read 1 the pass aborts: state cleared, `SearchAborted`, no direction bit
at `p`; the earlier positions' slots, then the two read slots of `p` (the command bytes are PRESUMED, log 12). -/
def Obligations.SearchAbortsWhereNobodyAnswers : Prop :=
  ∀ (s : State) (h : Nat) (i : Instr) (cmdByte : Byte) (p : Nat), isSearch i h cmdByte → s.usable h →
    (s.busAt h).lastDeviceFlag = false → s.wire.answerAt 0 = .low → 1 ≤ p → p ≤ 64 →
    (∀ q, 1 ≤ q → q < p → ¬ (s.wire.idAt q = true ∧ s.wire.cmpAt q = true)) →
    s.wire.idAt p = true → s.wire.cmpAt p = true →
    ∃ r : RomCode, resolves (s.busAt h) s.wire r (p - 1) ∧ exec i s = .next
      ({ s.played (s.wire.passSlots (s.busAt h).pin cmdByte r (p - 1) ++
            [Slot.read (s.busAt h).pin true, Slot.read (s.busAt h).pin true]) with
          bus := s.bus.set h { s.busAt h with
            rom := 0, lastDiscrepancy := 0, lastFamilyDiscrepancy := 0, lastDeviceFlag := false } }.answered (failWord 5))

/-- 43 R163, R165 to R171: a pass in which some device answers at every position. `r` is the address it resolves: the common
bit where the two bits differ; at a discrepancy the stored bit below `last_discrepancy`, 1 at it, 0 beyond it. Its 201 slots,
and the outcome: `CRCMismatch` or `ZeroFamily` with the state cleared, or success with `rom` and DBUF[0..7] the address,
`last_discrepancy` the highest discrepancy where a 0 was taken (0 if none), the family discrepancy the highest such position
up to 8 (unchanged if none), and the flag set exactly when `last_discrepancy` is 0 (command bytes PRESUMED, log 12). -/
def Obligations.FullSearchPassResolvesAnAddress : Prop :=
  ∀ (s : State) (h : Nat) (i : Instr) (cmdByte : Byte), isSearch i h cmdByte → s.usable h → h < s.bus.length →
    (s.busAt h).lastDeviceFlag = false → s.wire.answerAt 0 = .low →
    (∀ q, 1 ≤ q → q ≤ 64 → ¬ (s.wire.idAt q = true ∧ s.wire.cmpAt q = true)) →
    ∃ (r : RomCode) (t : State), exec i s = .next t ∧
      resolves (s.busAt h) s.wire r 64 ∧
      t.wire = (s.played (s.wire.passSlots (s.busAt h).pin cmdByte r 64)).wire ∧
      (romCrc r ≠ 0 ∨ romByte r 0 = 0 →
        t = ({ s with
                bus := s.bus.set h { s.busAt h with
                  rom := 0, lastDiscrepancy := 0, lastFamilyDiscrepancy := 0, lastDeviceFlag := false }
                wire := t.wire }.answered (if romCrc r ≠ 0 then failWord 6 else failWord 10))) ∧
      (romCrc r = 0 → romByte r 0 ≠ 0 →
        ∃ ld lfd : Nat,
          t = ({ s with
                  bus := s.bus.set h { s.busAt h with
                    rom := r, lastDiscrepancy := ld, lastFamilyDiscrepancy := lfd,
                    lastDeviceFlag := decide (ld = 0) }
                  dbuf := t.dbuf
                  wire := t.wire }.answered (okWord 0)) ∧
          highestOr (zeroAt s.wire r) 64 0 ld ∧
          highestOr (zeroAt s.wire r) 8 (s.busAt h).lastFamilyDiscrepancy lfd ∧
          (∀ k, k < 8 → t.dbufByte k = romByte r k) ∧ ∀ a, 8 ≤ a → t.dbufByte a = s.dbufByte a)

/-- 43 R165, R169 (V41): where one device with a valid address answers every position, either search completes with `Ok`: the
address in `rom` and DBUF[0..7], `last_discrepancy` 0 and the flag set, whatever the slot held before (the command bytes 0xF0 and
0xEC in the slots are PRESUMED, log 12). -/
def Obligations.SearchFindsASingleDevice : Prop :=
  ∀ (s : State) (h : Nat) (i : Instr) (cmdByte : Byte) (r : RomCode), isSearch i h cmdByte → s.usable h →
    (s.busAt h).lastDeviceFlag = false → romCrc r = 0 → romByte r 0 ≠ 0 → s.wire.answerAt 0 = .low →
    (∀ p, 1 ≤ p → p ≤ 64 → s.wire.idAt p = romBit r p ∧ s.wire.cmpAt p = !romBit r p) →
    ∃ t, exec i s = .next t ∧
      t = ({ s.played (s.wire.passSlots (s.busAt h).pin cmdByte r 64) with
              bus := s.bus.set h { s.busAt h with rom := r, lastDiscrepancy := 0, lastDeviceFlag := true }
              dbuf := t.dbuf }.answered (okWord 0)) ∧
      (∀ k, k < 8 → t.dbufByte k = romByte r k) ∧ ∀ a, 8 ≤ a → t.dbufByte a = s.dbufByte a

/-- 43 R170 with R161, R164, R168, R171: whatever a pass that answers `ok = 0` met, the four search fields are cleared and DBUF is
as before (`NoMoreDevices` is no failing pass: the flag is not set). That the pass answers `ok = 0` is a hypothesis here; when it
does is stated by `SearchWithoutPresenceClearsTheState`, `SearchAbortsWhereNobodyAnswers` and `FullSearchPassResolvesAnAddress`. -/
def Obligations.FailedPassLeavesAFreshSlot : Prop :=
  ∀ (s t : State) (h : Nat) (i : Instr) (cmdByte : Byte), isSearch i h cmdByte → s.usable h → h < s.bus.length →
    (s.busAt h).lastDeviceFlag = false → exec i s = .next t → t.rsp.getLsbD 31 = false →
    t.busAt h = { s.busAt h with rom := 0, lastDiscrepancy := 0, lastFamilyDiscrepancy := 0, lastDeviceFlag := false } ∧
    t.dbuf = s.dbuf

/-- 43 R159: ALARM_SEARCH "differs from SEARCH in the command byte and in nothing else": same response, same state, and the
traces are equal where no command byte is sent (bad handle, flag set, no presence); where one is sent they are the reset slot,
the eight slots of 0xF0 or 0xEC (PRESUMED, log 12), and the same events after it. -/
def Obligations.AlarmSearchDiffersOnlyInItsCommandByte : Prop :=
  encodedAs 0x30 (fun w => .search (fieldA w).toNat) ∧ encodedAs 0x31 (fun w => .alarmSearch (fieldA w).toNat) ∧
  ∀ (s t u : State) (h : Nat), exec (.search h) s = .next t → exec (.alarmSearch h) s = .next u →
    u = { t with wire := { t.wire with events := u.wire.events } } ∧
    (¬ (s.usable h ∧ (s.busAt h).lastDeviceFlag = false ∧ s.wire.answerAt 0 = .low) → u.wire.trace = t.wire.trace) ∧
    (s.usable h → (s.busAt h).lastDeviceFlag = false → s.wire.answerAt 0 = .low → ∃ before after : List Event,
      before = s.wire.trace ++ slotEvents s.cfg.timing (.reset (s.busAt h).pin true) ∧
      t.wire.trace = before ++ (writeSlots (s.busAt h).pin [0xF0]).flatMap (slotEvents s.cfg.timing) ++ after ∧
      u.wire.trace = before ++ (writeSlots (s.busAt h).pin [0xEC]).flatMap (slotEvents s.cfg.timing) ++ after)

/-- 43 R175: RESET_SEARCH clears the four search fields and nothing else, with no event. -/
def Obligations.ResetSearchClearsTheSearchState : Prop :=
  encodedAs 0x32 (fun w => .resetSearch (fieldA w).toNat) ∧
  ∀ (s : State) (h : Nat), guardedBy s h (exec (.resetSearch h) s) ∧
    (s.usable h → exec (.resetSearch h) s = .next
      ({ s with bus := s.bus.set h { s.busAt h with
          rom := 0, lastDiscrepancy := 0, lastFamilyDiscrepancy := 0, lastDeviceFlag := false } }.answered (okWord 0)))

/-- 43 R159, R174 (derived), on the reference lines of 20 R66 to R76 (device behaviour partly PRESUMED, log 19; command bytes
PRESUMED, log 12): a fresh search of a line of legal devices, all its samples answered as that line does, finds the device that
is least in discovery order among those that take part (in SEARCH all of them, in ALARM_SEARCH those with the alarm flag), and
leaves the slot at the frontier; if none takes part it answers `SearchAborted` with the state cleared. The slots of the pass are
read off the trace, so the write-1 and write-0 low times must differ (00 R13). -/
def Obligations.FreshSearchFindsTheFirstDevice : Prop :=
  ∀ (s t : State) (h : Nat) (i : Instr) (cmdByte : Byte) (ls : Lines) (ds : List Device) (slots : List Slot),
    isSearch i h cmdByte → s.usable h → h < s.bus.length → s.cfg.timing.tW1l ≠ s.cfg.timing.tW0l →
    (s.busAt h).lastDeviceFlag = false → (s.busAt h).lastDiscrepancy = 0 →
    ls (s.busAt h).pin = .devices ds → ds ≠ [] → (∀ d ∈ ds, d.valid) →
    exec i s = .next t → t.wire.trace = s.wire.trace ++ slots.flatMap (slotEvents s.cfg.timing) → ls.agrees slots = true →
    (searchedRoms ds cmdByte = [] → t.rsp = failWord 5 ∧ (t.busAt h).searchCleared) ∧
    (searchedRoms ds cmdByte ≠ [] → t.rsp = okWord 0 ∧ (t.busAt h).atFrontier (searchedRoms ds cmdByte) ∧
      (∀ r ∈ searchedRoms ds cmdByte, discoveryKey (t.busAt h).rom ≤ discoveryKey r) ∧
      (t.busAt h).lastDeviceFlag = decide ((t.busAt h).lastDiscrepancy = 0))

/-- 43 R159, R173, R174 (derived), on the reference lines (logs 12 and 19): from a slot at the frontier of the devices that take
part in the search (in SEARCH all on the line, in ALARM_SEARCH those with the alarm flag), with devices still to find, the next
search finds the next one in discovery order, and leaves the slot at the frontier again. -/
def Obligations.NextSearchFindsTheNextDevice : Prop :=
  ∀ (s t : State) (h : Nat) (i : Instr) (cmdByte : Byte) (ls : Lines) (ds : List Device) (slots : List Slot),
    isSearch i h cmdByte → s.usable h → h < s.bus.length → s.cfg.timing.tW1l ≠ s.cfg.timing.tW0l →
    (s.busAt h).lastDeviceFlag = false → (s.busAt h).lastDiscrepancy ≠ 0 →
    ls (s.busAt h).pin = .devices ds → (∀ d ∈ ds, d.valid) → (s.busAt h).atFrontier (searchedRoms ds cmdByte) →
    exec i s = .next t → t.wire.trace = s.wire.trace ++ slots.flatMap (slotEvents s.cfg.timing) → ls.agrees slots = true →
    t.rsp = okWord 0 ∧ (t.busAt h).atFrontier (searchedRoms ds cmdByte) ∧
    discoveryKey (s.busAt h).rom < discoveryKey (t.busAt h).rom ∧
    (∀ r ∈ searchedRoms ds cmdByte, discoveryKey (s.busAt h).rom < discoveryKey r →
      discoveryKey (t.busAt h).rom ≤ discoveryKey r) ∧
    (t.busAt h).lastDeviceFlag = decide ((t.busAt h).lastDiscrepancy = 0)

/-- 43 R173 (derived), 20 R66: on a legal line of reference devices (logs 12 and 19), from a fresh slot, as many searches as
devices take part find each of those devices exactly once, in ascending order of discovery, and the next search answers
`NoMoreDevices` with the flag set. `ts` are the states the searches end in. -/
def Obligations.RepeatedSearchFindsEveryDeviceOnce : Prop :=
  ∀ (s : State) (h : Nat) (i : Instr) (cmdByte : Byte) (ls : Lines) (ds : List Device) (ts : List State) (u : State),
    isSearch i h cmdByte → s.usable h → h < s.bus.length → s.cfg.timing.tW1l ≠ s.cfg.timing.tW0l →
    (s.busAt h).lastDeviceFlag = false → (s.busAt h).lastDiscrepancy = 0 →
    ls (s.busAt h).pin = .devices ds → (ls (s.busAt h).pin).legal → searchedRoms ds cmdByte ≠ [] →
    ts.length = (searchedRoms ds cmdByte).length → runsOnLines i s ls (ts ++ [u]) →
    (ts.map fun t => (t.busAt h).rom).Perm (searchedRoms ds cmdByte) ∧
    (ts.map fun t => discoveryKey (t.busAt h).rom).Pairwise (· < ·) ∧
    (∀ t ∈ ts, t.rsp = okWord 0) ∧ u.rsp = failWord 9 ∧ (u.busAt h).lastDeviceFlag = true

/-- 20 R66, R76: each line sees only the slots on its own pin: it ends as they leave it, the answers of a sequence of slots are
right exactly if each line's are, a pin without a slot keeps its line, and a legal line stays legal. About the reference lines
(log 19), not the engine. -/
def Obligations.LinesAreIndependentAndStayLegal : Prop :=
  ∀ (ls : Lines) (slots : List Slot),
    (∀ pin, ls.afterAll slots pin = (ls pin).afterAll (slotsOfPin pin slots)) ∧
    (ls.agrees slots = true ↔ ∀ pin, (ls pin).agrees (slotsOfPin pin slots) = true) ∧
    (∀ pin, (∀ slot ∈ slots, slot.pin ≠ pin) → ls.afterAll slots pin = ls pin) ∧
    ∀ pin, (ls pin).legal → (ls.afterAll slots pin).legal

/-- 43 R173 (derived): at the frontier with `last_discrepancy` 0 no device is left to find. -/
def Obligations.NoDeviceIsLeftWhenDiscrepancyIsZero : Prop :=
  ∀ (b : Bus) (roms : List RomCode), b.atFrontier roms → b.lastDiscrepancy = 0 →
    ∀ r ∈ roms, discoveryKey r ≤ discoveryKey b.rom

/-! ### CRC-8 -/

/-- 44 R190: CRC8 answers the CRC of DBUF[0 .. len-1] and changes nothing; a length over `L_BUF` fails. -/
def Obligations.Crc8AnswersTheBufferCrc : Prop :=
  encodedAs 0x40 (fun w => .crc8 (fieldArg w).toNat) ∧
  ∀ (s : State) (len : Nat),
    (s.cfg.lBuf < len → exec (.crc8 len) s = .next (s.answered (failWord 7))) ∧
    (len ≤ s.cfg.lBuf → exec (.crc8 len) s = .next
      (s.answered (okWord ((crc8 ((List.range len).map fun k => s.dbufByte k)).setWidth 16))))

/-- 44 R192: VERIFY answers `Ok` iff the CRC of DBUF[0 .. len-1] is 0. -/
def Obligations.VerifyTestsTheBufferCrc : Prop :=
  encodedAs 0x41 (fun w => .verify (fieldArg w).toNat) ∧
  ∀ (s : State) (len : Nat),
    (s.cfg.lBuf < len → exec (.verify len) s = .next (s.answered (failWord 7))) ∧
    (len ≤ s.cfg.lBuf → exec (.verify len) s = .next
      (s.answered (if crc8 ((List.range len).map fun k => s.dbufByte k) = 0 then okWord 0 else failWord 6)))

/-- 44 R187: the bit-serial form, the table form with its first sixteen entries, and linearity. -/
def Obligations.CrcHasItsEquivalentForms : Prop :=
  (∀ d : List Byte, crc8 d = (d.flatMap fun v => (List.range 8).map fun j => v.getLsbD j).foldl
    (fun (crc : Byte) bit => (crc >>> 1) ^^^ (if crc.getLsbD 0 != bit then 0x8C#8 else 0#8)) 0#8) ∧
  (∀ (d : List Byte) (b : Byte), crc8 (d ++ [b]) = crc8Byte 0 (crc8 d ^^^ b)) ∧
  (List.range 16).map (fun x => crc8Byte 0 (BitVec.ofNat 8 x)) =
    [0x00, 0x5E, 0xBC, 0xE2, 0x61, 0x3F, 0xDD, 0x83, 0xC2, 0x9C, 0x7E, 0x20, 0xA3, 0xFD, 0x1F, 0x41] ∧
  (∀ c b : Byte, crc8Byte c b = crc8Byte 0 (c ^^^ b)) ∧
  (∀ d e : List Byte, d.length = e.length → crc8 (List.zipWith (· ^^^ ·) d e) = crc8 d ^^^ crc8 e)

/-- 44 R188 (derived there): appending to any sequence its own CRC gives a sequence whose CRC is 0; the CRC of zero bytes
is 0. -/
def Obligations.AppendedCrcGivesZero : Prop :=
  (∀ d : List Byte, crc8 (d ++ [crc8 d]) = 0) ∧ ∀ n : Nat, crc8 (List.replicate n 0) = 0

/-- 44 R189: an address is valid iff its last byte is the CRC of the first seven, and every single-bit change of a valid address
is invalid. -/
def Obligations.CrcDetectsEverySingleBitError : Prop :=
  ∀ r : RomCode,
    (romCrc r = 0 ↔ romByte r 7 = crc8 ((List.range 7).map fun k => romByte r k)) ∧
    (romCrc r = 0 → ∀ p, p < 64 → romCrc (r ^^^ (1#64 <<< p)) ≠ 0)

/-! ### Frames and whole-machine rules -/

/-- 20 R46, R48, 10 R30: DBUF changes only where the operation stores; every other byte reads as before. -/
def Obligations.OnlyStoredBufferBytesChange : Prop :=
  ∀ (i : Instr) (s t : State) (a : Nat), exec i s = .next t → ¬ storesTo i a → t.dbufByte a = s.dbufByte a

/-- 10 R22, R23, R30: an operation changes only the slot of its own handle (ACQUIRE only the slot it allocates); `pin` and
`initialized` of a slot never change once it is allocated; and only the search family and ACQUIRE write the registry at all. -/
def Obligations.OnlyTheNamedSlotChanges : Prop :=
  ∀ (i : Instr) (s t : State), exec i s = .next t →
    (∀ pin, i = .acquire pin → ∀ k, k ≠ s.count → t.busAt k = s.busAt k) ∧
    ((∀ pin, i ≠ .acquire pin) →
      t.count = s.count ∧
      (∀ k, i.handle? ≠ some k → t.busAt k = s.busAt k) ∧
      (∀ k, (t.busAt k).pin = (s.busAt k).pin ∧ (t.busAt k).initialized = (s.busAt k).initialized) ∧
      ((∀ h, i ≠ .search h ∧ i ≠ .alarmSearch h ∧ i ≠ .resetSearch h) → t.bus = s.bus))

/-- 10 R22, 20 R76 (V23): every pin event of an operation on handle `h` names `bus[h].pin`, and no other line is touched. -/
def Obligations.EveryEventNamesTheBusPin : Prop :=
  ∀ (i : Instr) (s t : State) (h : Nat), i.handle? = some h → exec i s = .next t →
    ∃ added : List Event, t.wire.trace = s.wire.trace ++ added ∧
      (∀ e ∈ added, e.pin? = none ∨ e.pin? = some (s.busAt h).pin) ∧
      ∀ pin, pin ≠ (s.busAt h).pin → t.wire.drive pin = s.wire.drive pin

/-- 41 R137, 20 R55, 60 R217: whatever the operation and the samples, from an idle wire side the line is left released and
`crit` 0, and the events it adds are disciplined: sections alternate, a line is driven only inside one, and every sample is
taken while the line is released. -/
def Obligations.EveryOperationLeavesTheWireIdle : Prop :=
  ∀ (i : Instr) (s t : State), s.wire.driven = [] → s.wire.crit = false → exec i s = .next t →
    t.wire.driven = [] ∧ t.wire.crit = false ∧
    ∃ added : List Event, t.wire.trace = s.wire.trace ++ added ∧ disciplined added

/-- 40 R119, 44 R185: the registry, buffer, read-back and CRC operations enter no critical section, wait for nothing and sample
nothing; only an allocating ACQUIRE touches a pin. -/
def Obligations.RegistryAndCrcOperationsStayOffTheWire : Prop :=
  ∀ (i : Instr) (s t : State), exec i s = .next t →
    (((∃ pin, i = .lookup pin) ∨ (∃ idx v, i = .bufWr idx v) ∨ (∃ idx, i = .bufRd idx) ∨ (∃ h, i = .rdState h) ∨
      (∃ h k, i = .rdRom h k) ∨ (∃ len, i = .crc8 len) ∨ (∃ len, i = .verify len) → t.wire = s.wire) ∧
     (∀ pin, i = .acquire pin → t.wire.crit = s.wire.crit ∧ t.wire.answers = s.wire.answers ∧
       t.wire.samples = s.wire.samples ∧ (t.wire.trace = s.wire.trace ∨ t.wire.trace = s.wire.trace ++ [.release pin])))

/-- 00 R13: no result depends on a timing value. Two engines that differ only in the timing table end every operation in states
that differ only in the timing table and in `Delay` arguments of the trace. -/
def Obligations.TimingChangesOnlyDelayArguments : Prop :=
  ∀ (i : Instr) (s t u : State) (tm : Timing), exec i s = .next t →
    exec i { s with cfg := { s.cfg with timing := tm } } = .next u →
    u = { t with
      cfg := { t.cfg with timing := tm }
      wire := { t.wire with events := u.wire.events } } ∧
    u.wire.trace.map Event.withoutTime = t.wire.trace.map Event.withoutTime

/-- 41 R131 (V19), on the loopback line of 20 R75 (log 19): WRITE_BYTE and then READ_BYTE returns the byte written. The slots are
read off the trace, so the write-1 and write-0 low times must differ (00 R13). -/
def Obligations.LoopbackReturnsTheWrittenByte : Prop :=
  ∀ (s t u : State) (h : Nat) (v : Byte) (ls : Lines) (slots : List Slot), s.usable h →
    s.cfg.timing.tW1l ≠ s.cfg.timing.tW0l → ls (s.busAt h).pin = .loopback [] →
    exec (.writeByte h v) s = .next t → exec (.readByte h) t = .next u →
    u.wire.trace = s.wire.trace ++ slots.flatMap (slotEvents s.cfg.timing) →
    ls.agrees slots = true → u.rsp = okWord (v.setWidth 16)

/-- 70 R249, 42 R150 (derived there): in a timing table the spec allows, how long each operation on a usable handle lasts, as
the sum of the delays of the events it adds: `reset`, `write` and `read` are the lengths of the three slots. SELECT, READ_ROM and a
full search pass need presence; without presence they last one reset. -/
def Obligations.DurationsAreTheSlotTotals : Prop :=
  ∀ (s : State) (h reset write read : Nat), s.cfg.timing.wf → s.usable h →
    reset = s.cfg.timing.tRstl + s.cfg.timing.tPds + s.cfg.timing.tRsth →
    write = s.cfg.timing.tSlot + s.cfg.timing.tRec → read = s.cfg.timing.tSlot →
    lasts (.reset h) s reset ∧ (∀ bit, lasts (.writeBit h bit) s write) ∧ lasts (.readBit h) s read ∧
    (∀ byte, lasts (.writeByte h byte) s (8 * write)) ∧ lasts (.readByte h) s (8 * read) ∧
    (∀ len, len ≤ s.cfg.lBuf → lasts (.writeBytes h len) s (8 * len * write) ∧ lasts (.readBytes h len) s (8 * len * read)) ∧
    lasts (.skipRom h) s (8 * write) ∧ lasts (.matchRom h) s (72 * write) ∧
    (s.wire.answerAt 0 = .low →
      lasts (.select h) s (reset + 72 * write) ∧ lasts (.readRom h) s (reset + 8 * write + 64 * read) ∧
      ∀ i cmdByte, isSearch i h cmdByte → (s.busAt h).lastDeviceFlag = false →
        (∀ q, 1 ≤ q → q ≤ 64 → ¬ (s.wire.idAt q = true ∧ s.wire.cmpAt q = true)) →
        lasts i s (reset + 8 * write + 64 * (2 * read + write))) ∧
    (s.wire.answerAt 0 = .high →
      lasts (.select h) s reset ∧ lasts (.readRom h) s reset ∧
      ∀ i cmdByte, isSearch i h cmdByte → (s.busAt h).lastDeviceFlag = false → lasts i s reset)

/-- 20 R60: the normal form of a trace has no `Delay(0)` and no two adjacent delays, is its own normal form, lasts as long, and
keeps the other events in order; a trace that is already normal is its own; and dropping a `Delay(0)` or merging two adjacent
delays, anywhere, leaves the normal form as it is. -/
def Obligations.TraceNormalFormIsNormal : Prop :=
  (∀ tr : List Event,
    Event.delay 0 ∉ normalTrace tr ∧
    (∀ (a b : List Event) (m n : Nat), normalTrace tr ≠ a ++ .delay m :: .delay n :: b) ∧
    normalTrace (normalTrace tr) = normalTrace tr ∧ delayTotal (normalTrace tr) = delayTotal tr ∧
    (normalTrace tr).filter (fun e => !e.isDelay) = tr.filter (fun e => !e.isDelay) ∧
    (Event.delay 0 ∉ tr → (∀ (a b : List Event) (m n : Nat), tr ≠ a ++ .delay m :: .delay n :: b) → normalTrace tr = tr)) ∧
  (∀ a b : List Event, normalTrace (a ++ .delay 0 :: b) = normalTrace (a ++ b)) ∧
  ∀ (a b : List Event) (m n : Nat), normalTrace (a ++ .delay m :: .delay n :: b) = normalTrace (a ++ .delay (m + n) :: b)
end

