-- ==== Sys2Proof/Laws/State.lean ====
section
/-! SUPPORT. One lemma per field per update of the state, of a bus slot and of the wire side, each true by unfolding, so that no
proof unfolds a record update; and the derived reads (`busAt`, `dbufByte`) after each update that leaves them alone. -/

namespace Sys2Proof.Machine

open Sys2Proof

variable (s : State)

/-! `State.respond` -/

@[simp] theorem State.respond_cfg (st : Status) (data : Half) : (s.respond st data).cfg = s.cfg := rfl
@[simp] theorem State.respond_count (st : Status) (data : Half) : (s.respond st data).count = s.count := rfl
@[simp] theorem State.respond_bus (st : Status) (data : Half) : (s.respond st data).bus = s.bus := rfl
@[simp] theorem State.respond_dbuf (st : Status) (data : Half) : (s.respond st data).dbuf = s.dbuf := rfl
@[simp] theorem State.respond_cmd (st : Status) (data : Half) : (s.respond st data).cmd = s.cmd := rfl
@[simp] theorem State.respond_rsp (st : Status) (data : Half) : (s.respond st data).rsp = responseWord st data := rfl
@[simp] theorem State.respond_busy (st : Status) (data : Half) : (s.respond st data).busy = false := rfl
@[simp] theorem State.respond_rspValid (st : Status) (data : Half) : (s.respond st data).rspValid = true := rfl
@[simp] theorem State.respond_wire (st : Status) (data : Half) : (s.respond st data).wire = s.wire := rfl
@[simp] theorem State.respond_host (st : Status) (data : Half) : (s.respond st data).host = s.host := rfl
@[simp] theorem State.respond_epoch (st : Status) (data : Half) : (s.respond st data).epoch = s.epoch := rfl
@[simp] theorem State.respond_busAt (st : Status) (data : Half) (k : Nat) : (s.respond st data).busAt k = s.busAt k := rfl
@[simp] theorem State.respond_pinOf (st : Status) (data : Half) (k : Nat) : (s.respond st data).pinOf k = s.pinOf k := rfl
@[simp] theorem State.respond_dbufByte (st : Status) (data : Half) (k : Nat) : (s.respond st data).dbufByte k = s.dbufByte k := rfl
@[simp] theorem State.respond_dbufBytes (st : Status) (data : Half) (k : Nat) : (s.respond st data).dbufBytes k = s.dbufBytes k := rfl
@[simp] theorem State.respond_timing (st : Status) (data : Half) : (s.respond st data).timing = s.timing := rfl

/-! `State.ret` -/

@[simp] theorem State.ret_cfg (data : Half) : (s.ret data).cfg = s.cfg := rfl
@[simp] theorem State.ret_count (data : Half) : (s.ret data).count = s.count := rfl
@[simp] theorem State.ret_bus (data : Half) : (s.ret data).bus = s.bus := rfl
@[simp] theorem State.ret_dbuf (data : Half) : (s.ret data).dbuf = s.dbuf := rfl
@[simp] theorem State.ret_cmd (data : Half) : (s.ret data).cmd = s.cmd := rfl
@[simp] theorem State.ret_rsp (data : Half) : (s.ret data).rsp = responseWord .ok data := rfl
@[simp] theorem State.ret_busy (data : Half) : (s.ret data).busy = false := rfl
@[simp] theorem State.ret_rspValid (data : Half) : (s.ret data).rspValid = true := rfl
@[simp] theorem State.ret_wire (data : Half) : (s.ret data).wire = s.wire := rfl
@[simp] theorem State.ret_host (data : Half) : (s.ret data).host = s.host := rfl
@[simp] theorem State.ret_epoch (data : Half) : (s.ret data).epoch = s.epoch := rfl
@[simp] theorem State.ret_busAt (data : Half) (k : Nat) : (s.ret data).busAt k = s.busAt k := rfl
@[simp] theorem State.ret_pinOf (data : Half) (k : Nat) : (s.ret data).pinOf k = s.pinOf k := rfl
@[simp] theorem State.ret_dbufByte (data : Half) (k : Nat) : (s.ret data).dbufByte k = s.dbufByte k := rfl
@[simp] theorem State.ret_dbufBytes (data : Half) (k : Nat) : (s.ret data).dbufBytes k = s.dbufBytes k := rfl
@[simp] theorem State.ret_timing (data : Half) : (s.ret data).timing = s.timing := rfl

/-! `State.raise` -/

@[simp] theorem State.raise_cfg (st : Status) : (s.raise st).cfg = s.cfg := rfl
@[simp] theorem State.raise_count (st : Status) : (s.raise st).count = s.count := rfl
@[simp] theorem State.raise_bus (st : Status) : (s.raise st).bus = s.bus := rfl
@[simp] theorem State.raise_dbuf (st : Status) : (s.raise st).dbuf = s.dbuf := rfl
@[simp] theorem State.raise_cmd (st : Status) : (s.raise st).cmd = s.cmd := rfl
@[simp] theorem State.raise_rsp (st : Status) : (s.raise st).rsp = responseWord st 0 := rfl
@[simp] theorem State.raise_busy (st : Status) : (s.raise st).busy = false := rfl
@[simp] theorem State.raise_rspValid (st : Status) : (s.raise st).rspValid = true := rfl
@[simp] theorem State.raise_wire (st : Status) : (s.raise st).wire = s.wire := rfl
@[simp] theorem State.raise_host (st : Status) : (s.raise st).host = s.host := rfl
@[simp] theorem State.raise_epoch (st : Status) : (s.raise st).epoch = s.epoch := rfl
@[simp] theorem State.raise_busAt (st : Status) (k : Nat) : (s.raise st).busAt k = s.busAt k := rfl
@[simp] theorem State.raise_pinOf (st : Status) (k : Nat) : (s.raise st).pinOf k = s.pinOf k := rfl
@[simp] theorem State.raise_dbufByte (st : Status) (k : Nat) : (s.raise st).dbufByte k = s.dbufByte k := rfl
@[simp] theorem State.raise_dbufBytes (st : Status) (k : Nat) : (s.raise st).dbufBytes k = s.dbufBytes k := rfl
@[simp] theorem State.raise_timing (st : Status) : (s.raise st).timing = s.timing := rfl

/-! `State.setBus` -/

@[simp] theorem State.setBus_cfg (h : Nat) (b : Bus) : (s.setBus h b).cfg = s.cfg := rfl
@[simp] theorem State.setBus_count (h : Nat) (b : Bus) : (s.setBus h b).count = s.count := rfl
@[simp] theorem State.setBus_bus (h : Nat) (b : Bus) : (s.setBus h b).bus = s.bus.set h b := rfl
@[simp] theorem State.setBus_dbuf (h : Nat) (b : Bus) : (s.setBus h b).dbuf = s.dbuf := rfl
@[simp] theorem State.setBus_cmd (h : Nat) (b : Bus) : (s.setBus h b).cmd = s.cmd := rfl
@[simp] theorem State.setBus_rsp (h : Nat) (b : Bus) : (s.setBus h b).rsp = s.rsp := rfl
@[simp] theorem State.setBus_busy (h : Nat) (b : Bus) : (s.setBus h b).busy = s.busy := rfl
@[simp] theorem State.setBus_rspValid (h : Nat) (b : Bus) : (s.setBus h b).rspValid = s.rspValid := rfl
@[simp] theorem State.setBus_wire (h : Nat) (b : Bus) : (s.setBus h b).wire = s.wire := rfl
@[simp] theorem State.setBus_host (h : Nat) (b : Bus) : (s.setBus h b).host = s.host := rfl
@[simp] theorem State.setBus_epoch (h : Nat) (b : Bus) : (s.setBus h b).epoch = s.epoch := rfl
@[simp] theorem State.setBus_dbufByte (h : Nat) (b : Bus) (k : Nat) : (s.setBus h b).dbufByte k = s.dbufByte k := rfl
@[simp] theorem State.setBus_dbufBytes (h : Nat) (b : Bus) (k : Nat) : (s.setBus h b).dbufBytes k = s.dbufBytes k := rfl
@[simp] theorem State.setBus_timing (h : Nat) (b : Bus) : (s.setBus h b).timing = s.timing := rfl

/-! `State.clearSearch` -/

@[simp] theorem State.clearSearch_cfg (h : Nat) : (s.clearSearch h).cfg = s.cfg := rfl
@[simp] theorem State.clearSearch_count (h : Nat) : (s.clearSearch h).count = s.count := rfl
@[simp] theorem State.clearSearch_bus (h : Nat) : (s.clearSearch h).bus = s.bus.set h (s.busAt h).clearSearch := rfl
@[simp] theorem State.clearSearch_dbuf (h : Nat) : (s.clearSearch h).dbuf = s.dbuf := rfl
@[simp] theorem State.clearSearch_cmd (h : Nat) : (s.clearSearch h).cmd = s.cmd := rfl
@[simp] theorem State.clearSearch_rsp (h : Nat) : (s.clearSearch h).rsp = s.rsp := rfl
@[simp] theorem State.clearSearch_busy (h : Nat) : (s.clearSearch h).busy = s.busy := rfl
@[simp] theorem State.clearSearch_rspValid (h : Nat) : (s.clearSearch h).rspValid = s.rspValid := rfl
@[simp] theorem State.clearSearch_wire (h : Nat) : (s.clearSearch h).wire = s.wire := rfl
@[simp] theorem State.clearSearch_host (h : Nat) : (s.clearSearch h).host = s.host := rfl
@[simp] theorem State.clearSearch_epoch (h : Nat) : (s.clearSearch h).epoch = s.epoch := rfl
@[simp] theorem State.clearSearch_dbufByte (h : Nat) (k : Nat) : (s.clearSearch h).dbufByte k = s.dbufByte k := rfl
@[simp] theorem State.clearSearch_dbufBytes (h : Nat) (k : Nat) : (s.clearSearch h).dbufBytes k = s.dbufBytes k := rfl
@[simp] theorem State.clearSearch_timing (h : Nat) : (s.clearSearch h).timing = s.timing := rfl

/-! `State.dbufStore` -/

@[simp] theorem State.dbufStore_cfg (a : Nat) (v : Byte) : (s.dbufStore a v).cfg = s.cfg := rfl
@[simp] theorem State.dbufStore_count (a : Nat) (v : Byte) : (s.dbufStore a v).count = s.count := rfl
@[simp] theorem State.dbufStore_bus (a : Nat) (v : Byte) : (s.dbufStore a v).bus = s.bus := rfl
@[simp] theorem State.dbufStore_dbuf (a : Nat) (v : Byte) : (s.dbufStore a v).dbuf = Memory.store s.dbuf a v := rfl
@[simp] theorem State.dbufStore_cmd (a : Nat) (v : Byte) : (s.dbufStore a v).cmd = s.cmd := rfl
@[simp] theorem State.dbufStore_rsp (a : Nat) (v : Byte) : (s.dbufStore a v).rsp = s.rsp := rfl
@[simp] theorem State.dbufStore_busy (a : Nat) (v : Byte) : (s.dbufStore a v).busy = s.busy := rfl
@[simp] theorem State.dbufStore_rspValid (a : Nat) (v : Byte) : (s.dbufStore a v).rspValid = s.rspValid := rfl
@[simp] theorem State.dbufStore_wire (a : Nat) (v : Byte) : (s.dbufStore a v).wire = s.wire := rfl
@[simp] theorem State.dbufStore_host (a : Nat) (v : Byte) : (s.dbufStore a v).host = s.host := rfl
@[simp] theorem State.dbufStore_epoch (a : Nat) (v : Byte) : (s.dbufStore a v).epoch = s.epoch := rfl
@[simp] theorem State.dbufStore_busAt (a : Nat) (v : Byte) (k : Nat) : (s.dbufStore a v).busAt k = s.busAt k := rfl
@[simp] theorem State.dbufStore_pinOf (a : Nat) (v : Byte) (k : Nat) : (s.dbufStore a v).pinOf k = s.pinOf k := rfl
@[simp] theorem State.dbufStore_timing (a : Nat) (v : Byte) : (s.dbufStore a v).timing = s.timing := rfl

/-! `State.dbufStoreList` -/

@[simp] theorem State.dbufStoreList_cfg (vs : List Byte) : (s.dbufStoreList vs).cfg = s.cfg := rfl
@[simp] theorem State.dbufStoreList_count (vs : List Byte) : (s.dbufStoreList vs).count = s.count := rfl
@[simp] theorem State.dbufStoreList_bus (vs : List Byte) : (s.dbufStoreList vs).bus = s.bus := rfl
@[simp] theorem State.dbufStoreList_dbuf (vs : List Byte) : (s.dbufStoreList vs).dbuf = Memory.storeList s.dbuf 0 vs := rfl
@[simp] theorem State.dbufStoreList_cmd (vs : List Byte) : (s.dbufStoreList vs).cmd = s.cmd := rfl
@[simp] theorem State.dbufStoreList_rsp (vs : List Byte) : (s.dbufStoreList vs).rsp = s.rsp := rfl
@[simp] theorem State.dbufStoreList_busy (vs : List Byte) : (s.dbufStoreList vs).busy = s.busy := rfl
@[simp] theorem State.dbufStoreList_rspValid (vs : List Byte) : (s.dbufStoreList vs).rspValid = s.rspValid := rfl
@[simp] theorem State.dbufStoreList_wire (vs : List Byte) : (s.dbufStoreList vs).wire = s.wire := rfl
@[simp] theorem State.dbufStoreList_host (vs : List Byte) : (s.dbufStoreList vs).host = s.host := rfl
@[simp] theorem State.dbufStoreList_epoch (vs : List Byte) : (s.dbufStoreList vs).epoch = s.epoch := rfl
@[simp] theorem State.dbufStoreList_busAt (vs : List Byte) (k : Nat) : (s.dbufStoreList vs).busAt k = s.busAt k := rfl
@[simp] theorem State.dbufStoreList_pinOf (vs : List Byte) (k : Nat) : (s.dbufStoreList vs).pinOf k = s.pinOf k := rfl
@[simp] theorem State.dbufStoreList_timing (vs : List Byte) : (s.dbufStoreList vs).timing = s.timing := rfl

/-! `State.withWire` -/

@[simp] theorem State.withWire_cfg (w : Wire) : (s.withWire w).cfg = s.cfg := rfl
@[simp] theorem State.withWire_count (w : Wire) : (s.withWire w).count = s.count := rfl
@[simp] theorem State.withWire_bus (w : Wire) : (s.withWire w).bus = s.bus := rfl
@[simp] theorem State.withWire_dbuf (w : Wire) : (s.withWire w).dbuf = s.dbuf := rfl
@[simp] theorem State.withWire_cmd (w : Wire) : (s.withWire w).cmd = s.cmd := rfl
@[simp] theorem State.withWire_rsp (w : Wire) : (s.withWire w).rsp = s.rsp := rfl
@[simp] theorem State.withWire_busy (w : Wire) : (s.withWire w).busy = s.busy := rfl
@[simp] theorem State.withWire_rspValid (w : Wire) : (s.withWire w).rspValid = s.rspValid := rfl
@[simp] theorem State.withWire_wire (w : Wire) : (s.withWire w).wire = w := rfl
@[simp] theorem State.withWire_host (w : Wire) : (s.withWire w).host = s.host := rfl
@[simp] theorem State.withWire_epoch (w : Wire) : (s.withWire w).epoch = s.epoch := rfl
@[simp] theorem State.withWire_busAt (w : Wire) (k : Nat) : (s.withWire w).busAt k = s.busAt k := rfl
@[simp] theorem State.withWire_pinOf (w : Wire) (k : Nat) : (s.withWire w).pinOf k = s.pinOf k := rfl
@[simp] theorem State.withWire_dbufByte (w : Wire) (k : Nat) : (s.withWire w).dbufByte k = s.dbufByte k := rfl
@[simp] theorem State.withWire_dbufBytes (w : Wire) (k : Nat) : (s.withWire w).dbufBytes k = s.dbufBytes k := rfl
@[simp] theorem State.withWire_timing (w : Wire) : (s.withWire w).timing = s.timing := rfl

/-! `State.allocate` -/

@[simp] theorem State.allocate_cfg (pin : PinId) : (s.allocate pin).cfg = s.cfg := rfl
@[simp] theorem State.allocate_count (pin : PinId) : (s.allocate pin).count = s.count + 1 := rfl
@[simp] theorem State.allocate_bus (pin : PinId) : (s.allocate pin).bus = s.bus.set s.count (Bus.acquired pin) := rfl
@[simp] theorem State.allocate_dbuf (pin : PinId) : (s.allocate pin).dbuf = s.dbuf := rfl
@[simp] theorem State.allocate_cmd (pin : PinId) : (s.allocate pin).cmd = s.cmd := rfl
@[simp] theorem State.allocate_rsp (pin : PinId) : (s.allocate pin).rsp = s.rsp := rfl
@[simp] theorem State.allocate_busy (pin : PinId) : (s.allocate pin).busy = s.busy := rfl
@[simp] theorem State.allocate_rspValid (pin : PinId) : (s.allocate pin).rspValid = s.rspValid := rfl
@[simp] theorem State.allocate_wire (pin : PinId) : (s.allocate pin).wire = Wire.release pin s.wire := rfl
@[simp] theorem State.allocate_host (pin : PinId) : (s.allocate pin).host = s.host := rfl
@[simp] theorem State.allocate_epoch (pin : PinId) : (s.allocate pin).epoch = s.epoch := rfl
@[simp] theorem State.allocate_dbufByte (pin : PinId) (k : Nat) : (s.allocate pin).dbufByte k = s.dbufByte k := rfl
@[simp] theorem State.allocate_dbufBytes (pin : PinId) (k : Nat) : (s.allocate pin).dbufBytes k = s.dbufBytes k := rfl
@[simp] theorem State.allocate_timing (pin : PinId) : (s.allocate pin).timing = s.timing := rfl

/-! `State.accept` -/

@[simp] theorem State.accept_cfg (w : Word) (rest : List HostInput) : (s.accept w rest).cfg = s.cfg := rfl
@[simp] theorem State.accept_count (w : Word) (rest : List HostInput) : (s.accept w rest).count = s.count := rfl
@[simp] theorem State.accept_bus (w : Word) (rest : List HostInput) : (s.accept w rest).bus = s.bus := rfl
@[simp] theorem State.accept_dbuf (w : Word) (rest : List HostInput) : (s.accept w rest).dbuf = s.dbuf := rfl
@[simp] theorem State.accept_cmd (w : Word) (rest : List HostInput) : (s.accept w rest).cmd = w := rfl
@[simp] theorem State.accept_rsp (w : Word) (rest : List HostInput) : (s.accept w rest).rsp = s.rsp := rfl
@[simp] theorem State.accept_busy (w : Word) (rest : List HostInput) : (s.accept w rest).busy = true := rfl
@[simp] theorem State.accept_rspValid (w : Word) (rest : List HostInput) : (s.accept w rest).rspValid = false := rfl
@[simp] theorem State.accept_wire (w : Word) (rest : List HostInput) : (s.accept w rest).wire = s.wire := rfl
@[simp] theorem State.accept_host (w : Word) (rest : List HostInput) : (s.accept w rest).host = rest := rfl
@[simp] theorem State.accept_epoch (w : Word) (rest : List HostInput) : (s.accept w rest).epoch = s.epoch := rfl
@[simp] theorem State.accept_busAt (w : Word) (rest : List HostInput) (k : Nat) : (s.accept w rest).busAt k = s.busAt k := rfl
@[simp] theorem State.accept_pinOf (w : Word) (rest : List HostInput) (k : Nat) : (s.accept w rest).pinOf k = s.pinOf k := rfl
@[simp] theorem State.accept_dbufByte (w : Word) (rest : List HostInput) (k : Nat) : (s.accept w rest).dbufByte k = s.dbufByte k := rfl
@[simp] theorem State.accept_dbufBytes (w : Word) (rest : List HostInput) (k : Nat) : (s.accept w rest).dbufBytes k = s.dbufBytes k := rfl
@[simp] theorem State.accept_timing (w : Word) (rest : List HostInput) : (s.accept w rest).timing = s.timing := rfl

/-! `State.offer` -/

@[simp] theorem State.offer_cfg (w : Word) : (s.offer w).cfg = s.cfg := rfl
@[simp] theorem State.offer_count (w : Word) : (s.offer w).count = s.count := rfl
@[simp] theorem State.offer_bus (w : Word) : (s.offer w).bus = s.bus := rfl
@[simp] theorem State.offer_dbuf (w : Word) : (s.offer w).dbuf = s.dbuf := rfl
@[simp] theorem State.offer_cmd (w : Word) : (s.offer w).cmd = s.cmd := rfl
@[simp] theorem State.offer_rsp (w : Word) : (s.offer w).rsp = s.rsp := rfl
@[simp] theorem State.offer_busy (w : Word) : (s.offer w).busy = false := rfl
@[simp] theorem State.offer_rspValid (w : Word) : (s.offer w).rspValid = s.rspValid := rfl
@[simp] theorem State.offer_wire (w : Word) : (s.offer w).wire = s.wire := rfl
@[simp] theorem State.offer_host (w : Word) : (s.offer w).host = .command w :: s.host := rfl
@[simp] theorem State.offer_epoch (w : Word) : (s.offer w).epoch = s.epoch := rfl
@[simp] theorem State.offer_busAt (w : Word) (k : Nat) : (s.offer w).busAt k = s.busAt k := rfl
@[simp] theorem State.offer_pinOf (w : Word) (k : Nat) : (s.offer w).pinOf k = s.pinOf k := rfl
@[simp] theorem State.offer_dbufByte (w : Word) (k : Nat) : (s.offer w).dbufByte k = s.dbufByte k := rfl
@[simp] theorem State.offer_dbufBytes (w : Word) (k : Nat) : (s.offer w).dbufBytes k = s.dbufBytes k := rfl
@[simp] theorem State.offer_timing (w : Word) : (s.offer w).timing = s.timing := rfl

/-! `State.answered` -/

@[simp] theorem State.answered_cfg (w : Word) : (s.answered w).cfg = s.cfg := rfl
@[simp] theorem State.answered_count (w : Word) : (s.answered w).count = s.count := rfl
@[simp] theorem State.answered_bus (w : Word) : (s.answered w).bus = s.bus := rfl
@[simp] theorem State.answered_dbuf (w : Word) : (s.answered w).dbuf = s.dbuf := rfl
@[simp] theorem State.answered_cmd (w : Word) : (s.answered w).cmd = s.cmd := rfl
@[simp] theorem State.answered_rsp (w : Word) : (s.answered w).rsp = w := rfl
@[simp] theorem State.answered_busy (w : Word) : (s.answered w).busy = false := rfl
@[simp] theorem State.answered_rspValid (w : Word) : (s.answered w).rspValid = true := rfl
@[simp] theorem State.answered_wire (w : Word) : (s.answered w).wire = s.wire := rfl
@[simp] theorem State.answered_host (w : Word) : (s.answered w).host = s.host := rfl
@[simp] theorem State.answered_epoch (w : Word) : (s.answered w).epoch = s.epoch := rfl
@[simp] theorem State.answered_busAt (w : Word) (k : Nat) : (s.answered w).busAt k = s.busAt k := rfl
@[simp] theorem State.answered_pinOf (w : Word) (k : Nat) : (s.answered w).pinOf k = s.pinOf k := rfl
@[simp] theorem State.answered_dbufByte (w : Word) (k : Nat) : (s.answered w).dbufByte k = s.dbufByte k := rfl
@[simp] theorem State.answered_dbufBytes (w : Word) (k : Nat) : (s.answered w).dbufBytes k = s.dbufBytes k := rfl
@[simp] theorem State.answered_timing (w : Word) : (s.answered w).timing = s.timing := rfl

/-! `State.played` -/

@[simp] theorem State.played_cfg (slots : List Slot) : (s.played slots).cfg = s.cfg := rfl
@[simp] theorem State.played_count (slots : List Slot) : (s.played slots).count = s.count := rfl
@[simp] theorem State.played_bus (slots : List Slot) : (s.played slots).bus = s.bus := rfl
@[simp] theorem State.played_dbuf (slots : List Slot) : (s.played slots).dbuf = s.dbuf := rfl
@[simp] theorem State.played_cmd (slots : List Slot) : (s.played slots).cmd = s.cmd := rfl
@[simp] theorem State.played_rsp (slots : List Slot) : (s.played slots).rsp = s.rsp := rfl
@[simp] theorem State.played_busy (slots : List Slot) : (s.played slots).busy = s.busy := rfl
@[simp] theorem State.played_rspValid (slots : List Slot) : (s.played slots).rspValid = s.rspValid := rfl
@[simp] theorem State.played_wire (slots : List Slot) : (s.played slots).wire = s.wire.play s.cfg.timing slots := rfl
@[simp] theorem State.played_host (slots : List Slot) : (s.played slots).host = s.host := rfl
@[simp] theorem State.played_epoch (slots : List Slot) : (s.played slots).epoch = s.epoch := rfl
@[simp] theorem State.played_busAt (slots : List Slot) (k : Nat) : (s.played slots).busAt k = s.busAt k := rfl
@[simp] theorem State.played_pinOf (slots : List Slot) (k : Nat) : (s.played slots).pinOf k = s.pinOf k := rfl
@[simp] theorem State.played_dbufByte (slots : List Slot) (k : Nat) : (s.played slots).dbufByte k = s.dbufByte k := rfl
@[simp] theorem State.played_dbufBytes (slots : List Slot) (k : Nat) : (s.played slots).dbufBytes k = s.dbufBytes k := rfl
@[simp] theorem State.played_timing (slots : List Slot) : (s.played slots).timing = s.timing := rfl

variable (w : Wire)

/-! `Wire.emit` -/

@[simp] theorem Wire.emit_driven (e : Event) : (Wire.emit e w).driven = w.driven := rfl
@[simp] theorem Wire.emit_crit (e : Event) : (Wire.emit e w).crit = w.crit := rfl
@[simp] theorem Wire.emit_events (e : Event) : (Wire.emit e w).events = e :: w.events := rfl
@[simp] theorem Wire.emit_answers (e : Event) : (Wire.emit e w).answers = w.answers := rfl
@[simp] theorem Wire.emit_samples (e : Event) : (Wire.emit e w).samples = w.samples := rfl

/-! `Wire.driveLow` -/

@[simp] theorem Wire.driveLow_driven (pin : PinId) : (Wire.driveLow pin w).driven = insertPin pin w.driven := rfl
@[simp] theorem Wire.driveLow_crit (pin : PinId) : (Wire.driveLow pin w).crit = w.crit := rfl
@[simp] theorem Wire.driveLow_events (pin : PinId) : (Wire.driveLow pin w).events = .driveLow pin :: w.events := rfl
@[simp] theorem Wire.driveLow_answers (pin : PinId) : (Wire.driveLow pin w).answers = w.answers := rfl
@[simp] theorem Wire.driveLow_samples (pin : PinId) : (Wire.driveLow pin w).samples = w.samples := rfl

/-! `Wire.release` -/

@[simp] theorem Wire.release_driven (pin : PinId) : (Wire.release pin w).driven = w.driven.filter (· != pin) := rfl
@[simp] theorem Wire.release_crit (pin : PinId) : (Wire.release pin w).crit = w.crit := rfl
@[simp] theorem Wire.release_events (pin : PinId) : (Wire.release pin w).events = .release pin :: w.events := rfl
@[simp] theorem Wire.release_answers (pin : PinId) : (Wire.release pin w).answers = w.answers := rfl
@[simp] theorem Wire.release_samples (pin : PinId) : (Wire.release pin w).samples = w.samples := rfl

/-! `Wire.delay` -/

@[simp] theorem Wire.delay_driven (n : Nat) : (Wire.delay n w).driven = w.driven := rfl
@[simp] theorem Wire.delay_crit (n : Nat) : (Wire.delay n w).crit = w.crit := rfl
@[simp] theorem Wire.delay_events (n : Nat) : (Wire.delay n w).events = .delay n :: w.events := rfl
@[simp] theorem Wire.delay_answers (n : Nat) : (Wire.delay n w).answers = w.answers := rfl
@[simp] theorem Wire.delay_samples (n : Nat) : (Wire.delay n w).samples = w.samples := rfl

/-! `Wire.critEnter` -/

@[simp] theorem Wire.critEnter_driven : (Wire.critEnter w).driven = w.driven := rfl
@[simp] theorem Wire.critEnter_crit : (Wire.critEnter w).crit = true := rfl
@[simp] theorem Wire.critEnter_events : (Wire.critEnter w).events = .critEnter :: w.events := rfl
@[simp] theorem Wire.critEnter_answers : (Wire.critEnter w).answers = w.answers := rfl
@[simp] theorem Wire.critEnter_samples : (Wire.critEnter w).samples = w.samples := rfl

/-! `Wire.critLeave` -/

@[simp] theorem Wire.critLeave_driven : (Wire.critLeave w).driven = w.driven := rfl
@[simp] theorem Wire.critLeave_crit : (Wire.critLeave w).crit = false := rfl
@[simp] theorem Wire.critLeave_events : (Wire.critLeave w).events = .critLeave :: w.events := rfl
@[simp] theorem Wire.critLeave_answers : (Wire.critLeave w).answers = w.answers := rfl
@[simp] theorem Wire.critLeave_samples : (Wire.critLeave w).samples = w.samples := rfl

/-! `Wire.sample` -/

@[simp] theorem Wire.sample_level (pin : PinId) : (Wire.sample pin w).1 = w.answerAt 0 := rfl
@[simp] theorem Wire.sample_driven (pin : PinId) : (Wire.sample pin w).2.driven = w.driven := rfl
@[simp] theorem Wire.sample_crit (pin : PinId) : (Wire.sample pin w).2.crit = w.crit := rfl
@[simp] theorem Wire.sample_events (pin : PinId) :
    (Wire.sample pin w).2.events = .sample pin (w.answerAt 0) :: w.events := rfl
@[simp] theorem Wire.sample_answers (pin : PinId) : (Wire.sample pin w).2.answers = w.answers.tail := rfl
@[simp] theorem Wire.sample_samples (pin : PinId) : (Wire.sample pin w).2.samples = w.samples + 1 := rfl

/-! `Bus.clearSearch`, `Bus.acquired`, `Bus.advance` -/

variable (b : Bus)

@[simp] theorem Bus.clearSearch_pin : b.clearSearch.pin = b.pin := rfl
@[simp] theorem Bus.clearSearch_initialized : b.clearSearch.initialized = b.initialized := rfl
@[simp] theorem Bus.clearSearch_rom : b.clearSearch.rom = 0 := rfl
@[simp] theorem Bus.clearSearch_lastDiscrepancy : b.clearSearch.lastDiscrepancy = 0 := rfl
@[simp] theorem Bus.clearSearch_lastFamilyDiscrepancy : b.clearSearch.lastFamilyDiscrepancy = 0 := rfl
@[simp] theorem Bus.clearSearch_lastDeviceFlag : b.clearSearch.lastDeviceFlag = false := rfl
@[simp] theorem Bus.acquired_pin (pin : PinId) : (Bus.acquired pin).pin = pin := rfl
@[simp] theorem Bus.acquired_initialized (pin : PinId) : (Bus.acquired pin).initialized = true := rfl
@[simp] theorem Bus.advance_pin (p : Nat) (zero dir : Bool) : (b.advance p zero dir).pin = b.pin := rfl
@[simp] theorem Bus.advance_initialized (p : Nat) (zero dir : Bool) : (b.advance p zero dir).initialized = b.initialized := rfl
@[simp] theorem Bus.advance_rom (p : Nat) (zero dir : Bool) : (b.advance p zero dir).rom = setRomBit b.rom p dir := rfl
@[simp] theorem Bus.advance_lastDiscrepancy (p : Nat) (zero dir : Bool) :
    (b.advance p zero dir).lastDiscrepancy = b.lastDiscrepancy := rfl
@[simp] theorem Bus.advance_lastFamilyDiscrepancy (p : Nat) (zero dir : Bool) :
    (b.advance p zero dir).lastFamilyDiscrepancy = if zero && decide (p ≤ 8) then p else b.lastFamilyDiscrepancy := rfl
@[simp] theorem Bus.advance_lastDeviceFlag (p : Nat) (zero dir : Bool) :
    (b.advance p zero dir).lastDeviceFlag = b.lastDeviceFlag := rfl

/-- Overwriting a slot of the wire twice keeps the last one. -/
@[simp] theorem State.withWire_withWire (w w' : Wire) : (s.withWire w).withWire w' = s.withWire w' := rfl

end Sys2Proof.Machine
end

