-- ==== Sys2Proof/Laws/Bits.lean ====
section
/-! SUPPORT. Bits and bytes: what `byteBits`, `byteOfBits`, `romBit`, `setRomBit`, `romByte` and `romBytes` give. -/

namespace Sys2Proof.Machine

open Sys2Proof

@[simp] theorem byteBits_length (v : Byte) : (byteBits v).length = 8 := by simp [byteBits]

theorem getLsbD_byteOfBits (bs : List Bool) (i : Nat) : (byteOfBits bs).getLsbD i = (decide (i < 8) && bs.getD i false) := by
  induction bs generalizing i with
  | nil => simp [byteOfBits]
  | cons b bs ih =>
    cases i with
    | zero => cases b <;> simp [byteOfBits]
    | succ i => cases b <;> simp [byteOfBits, BitVec.getLsbD_shiftLeft, ih, BitVec.getLsbD_one] <;> grind

/-- A byte is fixed by the list of its eight bits. -/
theorem byteOfBits_eq (bs : List Bool) (v : Byte) (h : ∀ k, k < 8 → v.getLsbD k = bs.getD k false) : byteOfBits bs = v := by
  apply BitVec.eq_of_getLsbD_eq
  intro i hi
  rw [getLsbD_byteOfBits, h i hi]
  simp [hi]

theorem byteOfBits_byteBits (v : Byte) : byteOfBits (byteBits v) = v :=
  byteOfBits_eq _ _ fun k hk => by simp [byteBits, List.getD, hk]

@[simp] theorem getLsbD_romByte (r : RomCode) (i j : Nat) :
    (romByte r i).getLsbD j = (decide (j < 8) && r.getLsbD (8 * i + j)) := by
  simp [romByte, BitVec.getLsbD_extractLsb']

@[simp] theorem romBytes_length (r : RomCode) : (romBytes r).length = 8 := by simp [romBytes]

theorem romBytes_getD (r : RomCode) (k : Nat) (hk : k < 8) : (romBytes r).getD k 0 = romByte r k := by
  simp [romBytes, List.getD, hk]

/-- Storing a bit at a position gives that bit there (00 R15, 43 R166). -/
theorem romBit_setRomBit_same (r : RomCode) (p : Nat) (dir : Bool) (h1 : 1 ≤ p) (h64 : p ≤ 64) :
    romBit (setRomBit r p dir) p = dir := by
  have h : p - 1 < 64 := by omega
  cases dir <;> simp [romBit, setRomBit, h]

/-- Storing a bit at a position leaves every other position alone (43 R166). -/
theorem romBit_setRomBit_other (r : RomCode) (p q : Nat) (dir : Bool) (h1 : 1 ≤ p) (hq : 1 ≤ q) (hne : q ≠ p) :
    romBit (setRomBit r p dir) q = romBit r q := by
  have h : q - 1 ≠ p - 1 := by omega
  cases dir
  · simp only [romBit, setRomBit, Bool.false_eq_true, if_false, BitVec.getLsbD_and, BitVec.getLsbD_not,
      BitVec.getLsbD_shiftLeft, BitVec.getLsbD_one]
    by_cases hq' : q - 1 < 64
    · have : ¬ (p - 1 ≤ q - 1 ∧ q - 1 - (p - 1) = 0) := by omega
      simp [hq']; omega
    · simp [hq', BitVec.getLsbD_of_ge _ _ (Nat.le_of_not_lt hq')]
  · simp only [romBit, setRomBit, if_true, BitVec.getLsbD_or, BitVec.getLsbD_shiftLeft, BitVec.getLsbD_one]
    have : ¬ (p - 1 ≤ q - 1 ∧ q - 1 - (p - 1) = 0) := by omega
    simp; omega

/-- Two ROM codes with the same bit at every position are equal (00 R15). -/
theorem romCode_ext (r r' : RomCode) (h : ∀ p, 1 ≤ p → p ≤ 64 → romBit r p = romBit r' p) : r = r' := by
  apply BitVec.eq_of_getLsbD_eq
  intro i hi
  have := h (i + 1) (by omega) (by omega)
  simpa [romBit] using this

end Sys2Proof.Machine
end

