-- ==== Sys2Proof/Laws/Crc.lean ====
section
/-! SUPPORT. The CRC-8 function (spec/44_crc8.md R186): how it runs over a sequence, and that it is linear in each round. -/

namespace Sys2Proof.Machine

open Sys2Proof

@[simp] theorem crc8_nil : crc8 [] = 0 := rfl

theorem crc8_snoc (d : List Byte) (b : Byte) : crc8 (d ++ [b]) = crc8Byte (crc8 d) b := by
  simp [crc8, List.foldl_append]

/-- One round depends only on the XOR of its arguments, up to the bits still to come. -/
theorem crc8Round_xor (c b c' b' : Byte) : crc8Round (c ^^^ c') (b ^^^ b') = crc8Round c b ^^^ crc8Round c' b' := by
  simp only [crc8Round, show (c ^^^ c' ^^^ (b ^^^ b')).getLsbD 0 = ((c ^^^ b).getLsbD 0 ^^ (c' ^^^ b').getLsbD 0) by
    simp only [BitVec.getLsbD_xor]; cases c.getLsbD 0 <;> cases c'.getLsbD 0 <;> cases b.getLsbD 0 <;> cases b'.getLsbD 0 <;> rfl]
  cases (c ^^^ b).getLsbD 0 <;> cases (c' ^^^ b').getLsbD 0 <;> simp [BitVec.ushiftRight_xor_distrib, BitVec.xor_assoc]
  · rw [BitVec.xor_comm (c' >>> 1)]

theorem crc8Rounds_xor (n : Nat) (c b c' b' : Byte) :
    crc8Rounds n (c ^^^ c') (b ^^^ b') = crc8Rounds n c b ^^^ crc8Rounds n c' b' := by
  induction n generalizing c b c' b' with
  | zero => rfl
  | succ n ih => simp only [crc8Rounds, crc8Round_xor, BitVec.ushiftRight_xor_distrib, ih]

/-- `crc8_byte` is linear over XOR in its two arguments together (44 R187 (c) rests on this). -/
theorem crc8Byte_xor (c b c' b' : Byte) : crc8Byte (c ^^^ c') (b ^^^ b') = crc8Byte c b ^^^ crc8Byte c' b' :=
  crc8Rounds_xor 8 c b c' b'

/-- The CRC of a ROM code, byte by byte. -/
theorem romCrc_eq (r : RomCode) :
    romCrc r = crc8Byte (crc8 ((List.range 7).map fun k => romByte r k)) (romByte r 7) := by
  rw [romCrc, romBytes, List.range_succ, List.map_append, List.map_singleton, crc8_snoc]

@[simp] theorem romCrc_zero : romCrc 0 = 0 := by decide +kernel

end Sys2Proof.Machine
end

