-- ==== Sys2Proof/Laws/Decode.lean ====
section
/-! SUPPORT. The fields of an encoded word (spec/30_encoding.md R83), and what the decoder does on each opcode. -/

namespace Sys2Proof

theorem getLsbD_commandWord (op a : Byte) (arg : Half) (n : Nat) :
    (commandWord op a arg).getLsbD n =
      if n < 16 then arg.getLsbD n else if n < 24 then a.getLsbD (n - 16) else op.getLsbD (n - 24) := by
  simp only [commandWord, BitVec.getLsbD_append]
  split
  · rfl
  · by_cases h : n < 24
    · rw [if_pos h, if_pos (by omega)]
    · rw [if_neg h, if_neg (by omega), show n - 16 - 8 = n - 24 by omega]

@[simp] theorem fieldOp_commandWord (op a : Byte) (arg : Half) : fieldOp (commandWord op a arg) = op := by
  apply BitVec.eq_of_getLsbD_eq
  intro n hn
  rw [fieldOp, BitVec.getLsbD_extractLsb', getLsbD_commandWord]
  rw [if_neg (by omega), if_neg (by omega), show 24 + n - 24 = n by omega]
  simp [hn]

@[simp] theorem fieldA_commandWord (op a : Byte) (arg : Half) : fieldA (commandWord op a arg) = a := by
  apply BitVec.eq_of_getLsbD_eq
  intro n hn
  rw [fieldA, BitVec.getLsbD_extractLsb', getLsbD_commandWord]
  rw [if_neg (by omega), if_pos (by omega), show 16 + n - 16 = n by omega]
  simp [hn]

@[simp] theorem fieldArg_commandWord (op a : Byte) (arg : Half) : fieldArg (commandWord op a arg) = arg := by
  apply BitVec.eq_of_getLsbD_eq
  intro n hn
  rw [fieldArg, BitVec.getLsbD_extractLsb', getLsbD_commandWord]
  rw [if_pos (by omega), show 0 + n = n by omega]
  simp [hn]

theorem fieldOp_encode (i : Instr) : fieldOp (encode i) = i.opcode := by simp [encode]
theorem fieldA_encode (i : Instr) : fieldA (encode i) = i.aField := by simp [encode]
theorem fieldArg_encode (i : Instr) : fieldArg (encode i) = i.argField := by simp [encode]

theorem getLsbD_encode_low (i : Instr) (n : Nat) (h : n < 16) : (encode i).getLsbD n = i.argField.getLsbD n := by
  rw [encode, getLsbD_commandWord, if_pos h]

theorem getLsbD_encode_mid (i : Instr) (n : Nat) (h : 16 ≤ n) (h' : n < 24) :
    (encode i).getLsbD n = i.aField.getLsbD (n - 16) := by
  rw [encode, getLsbD_commandWord, if_neg (by omega), if_pos h']

/-- The byte operand of a word is the low byte of its `arg` field. -/
theorem operandByte_eq (w : Word) : operandByte w = (fieldArg w).setWidth 8 := by
  apply BitVec.eq_of_getLsbD_eq
  intro n hn
  simp [operandByte, fieldArg, BitVec.getLsbD_extractLsb', hn]
  omega

/-- The bit operand of a word is bit 0 of its `arg` field. -/
theorem operandBit_eq (w : Word) : operandBit w = (fieldArg w).getLsbD 0 := by
  simp [operandBit, fieldArg]

/-- The ROM index of a word is the low three bits of its `arg` field. -/
theorem operandRomIndex_eq (w : Word) : operandRomIndex w = ((fieldArg w).setWidth 3).toFin := by
  have : w.extractLsb' 0 3 = (fieldArg w).setWidth 3 := by
    apply BitVec.eq_of_getLsbD_eq
    intro n hn
    simp [fieldArg, BitVec.getLsbD_extractLsb', hn]
    omega
  rw [operandRomIndex, this]

end Sys2Proof
end

