-- ==== Sys2Proof/Laws/Memory.lean ====
section
/-! SUPPORT. DBUF: reading after writing, writing elsewhere, and that every operation keeps the canonical form
(spec/20_memory.md R46 to R49). -/

namespace Sys2Proof.Machine

open Sys2Proof

theorem Memory.lookup_store_same (m : Memory) (a : Nat) (v : Byte) : Memory.lookup (Memory.store m a v) a = some v := by
  induction m with
  | nil => simp [Memory.store, Memory.lookup]
  | cons c m ih =>
    obtain ⟨k, u⟩ := c
    unfold Memory.store
    split
    · simp [Memory.lookup]
    · split
      · simp [Memory.lookup]
      · have : k ≠ a := fun h => by simp_all
        simp [Memory.lookup, this, ih]

theorem Memory.lookup_store_other (m : Memory) (a b : Nat) (v : Byte) (h : b ≠ a) :
    Memory.lookup (Memory.store m a v) b = Memory.lookup m b := by
  have h' : a ≠ b := fun e => h e.symm
  induction m with
  | nil => simp [Memory.store, Memory.lookup, h']
  | cons c m ih =>
    obtain ⟨k, u⟩ := c
    unfold Memory.store
    split
    · simp [Memory.lookup, h']
    · split
      · rename_i e
        subst e
        simp [Memory.lookup, h']
      · simp [Memory.lookup, ih]

/-- What `storeList` leaves at every address: the stored byte inside the stored range, the old one outside. -/
theorem Memory.lookup_storeList (vs : List Byte) (m : Memory) (a b : Nat) :
    Memory.lookup (Memory.storeList m a vs) b =
      if a ≤ b ∧ b < a + vs.length then some (vs.getD (b - a) 0) else Memory.lookup m b := by
  induction vs generalizing m a with
  | nil => simp [Memory.storeList]
  | cons v vs ih =>
    simp only [Memory.storeList, ih, List.length_cons]
    by_cases hb : b = a
    · subst hb
      simp [Memory.lookup_store_same]
    · rw [Memory.lookup_store_other _ _ _ _ hb]
      by_cases h1 : a + 1 ≤ b
      · have e : b - a = (b - (a + 1)) + 1 := by omega
        have h2 : a ≤ b := by omega
        simp only [e, List.getD_cons_succ, h1, h2, true_and]
        congr 1
        simp; omega
      · have h2 : ¬ a ≤ b := by omega
        simp [h1, h2]

theorem Memory.mem_store (m : Memory) (a : Nat) (v : Byte) (c : Host.Cell) (h : c ∈ Memory.store m a v) :
    c = (a, v) ∨ c ∈ m := by
  induction m with
  | nil => simpa [Memory.store] using h
  | cons d m ih =>
    obtain ⟨k, u⟩ := d
    unfold Memory.store at h
    split at h
    · simpa using h
    · split at h
      · simp only [List.mem_cons] at h ⊢; tauto
      · simp only [List.mem_cons] at h ⊢
        rcases h with h | h
        · tauto
        · have := ih h; tauto

/-- Writing a byte below `L_BUF` keeps the canonical form. -/
theorem Memory.store_wf (lBuf : Nat) (m : Memory) (a : Nat) (v : Byte) (h : Memory.wf lBuf m) (ha : a < lBuf) :
    Memory.wf lBuf (Memory.store m a v) := by
  constructor
  · have hp := h.1
    clear h
    induction m with
    | nil => simp [Memory.store]
    | cons c m ih =>
      obtain ⟨k, u⟩ := c
      obtain ⟨h1, h2⟩ := List.pairwise_cons.1 hp
      unfold Memory.store
      split
      · rename_i hlt
        refine List.pairwise_cons.2 ⟨?_, hp⟩
        intro d hd
        rcases List.mem_cons.1 hd with rfl | hd
        · exact hlt
        · exact Nat.lt_trans hlt (h1 d hd)
      · split
        · rename_i e
          subst e
          exact List.pairwise_cons.2 ⟨h1, h2⟩
        · rename_i h3 h4
          refine List.pairwise_cons.2 ⟨?_, ih h2⟩
          intro d hd
          rcases Memory.mem_store m a v d hd with rfl | hd
          · simp only; omega
          · exact h1 d hd
  · intro c hc
    rcases Memory.mem_store m a v c hc with rfl | hc
    · exact ha
    · exact h.2 c hc

/-- Writing bytes below `L_BUF` keeps the canonical form. -/
theorem Memory.storeList_wf (lBuf : Nat) (vs : List Byte) (m : Memory) (a : Nat) (h : Memory.wf lBuf m)
    (ha : a + vs.length ≤ lBuf) : Memory.wf lBuf (Memory.storeList m a vs) := by
  induction vs generalizing m a with
  | nil => exact h
  | cons v vs ih =>
    simp only [List.length_cons] at ha
    exact ih _ _ (Memory.store_wf lBuf m a v h (by omega)) (by omega)

/-- The buffer after reset has the canonical form. -/
theorem Memory.reset_wf (lBuf : Nat) (c : Config) (epoch : Nat) : Memory.wf lBuf (State.resetWith c epoch).dbuf := by
  simp [State.resetWith, Memory.wf]

/-! ### The state's bytes -/

theorem State.dbufByte_dbufStore_same (s : State) (a : Nat) (v : Byte) : (s.dbufStore a v).dbufByte a = v := by
  simp [State.dbufByte, Memory.lookup_store_same]

theorem State.dbufByte_dbufStore_other (s : State) (a b : Nat) (v : Byte) (h : b ≠ a) :
    (s.dbufStore a v).dbufByte b = s.dbufByte b := by
  simp [State.dbufByte, Memory.lookup_store_other _ _ _ _ h]

/-- Bytes stored from index 0 on read back; every later byte reads as before (20 R46 to R48). -/
theorem State.dbufByte_dbufStoreList (s : State) (vs : List Byte) (a : Nat) :
    (s.dbufStoreList vs).dbufByte a = if a < vs.length then vs.getD a 0 else s.dbufByte a := by
  simp only [State.dbufByte, State.dbufStoreList_dbuf, State.dbufStoreList_epoch, Memory.lookup_storeList]
  by_cases h : a < vs.length <;> simp [h]

@[simp] theorem State.dbufBytes_length (s : State) (n : Nat) : (s.dbufBytes n).length = n := by simp [State.dbufBytes]

end Sys2Proof.Machine
end

