-- ==== Sys2Proof/Laws/Wire.lean ====
section
/-! SUPPORT. The signal procedures as slots (spec/20_memory.md R65): each procedure of spec/41_signal_primitives.md is
`Wire.play` of its slots, and what `Wire.play` does to each field. -/

namespace Sys2Proof.Machine

open Sys2Proof

theorem filter_insertPin (pin : PinId) (l : List PinId) :
    (insertPin pin l).filter (· != pin) = l.filter (· != pin) := by
  induction l with
  | nil => simp [insertPin]
  | cons q qs ih =>
    unfold insertPin
    split
    · simp
    · split
      · rename_i h
        simp [h]
      · simp only [List.filter_cons, ih]

/-! ### `Wire.playSlot` and `Wire.play`, field by field -/

variable (t : Timing) (w : Wire)

@[simp] theorem Wire.playSlot_driven (slot : Slot) :
    (w.playSlot t slot).driven = w.driven.filter (· != slot.pin) := rfl
@[simp] theorem Wire.playSlot_crit (slot : Slot) : (w.playSlot t slot).crit = false := rfl
@[simp] theorem Wire.playSlot_events (slot : Slot) :
    (w.playSlot t slot).events = (slotEvents t slot).reverse ++ w.events := rfl
@[simp] theorem Wire.playSlot_answers (slot : Slot) :
    (w.playSlot t slot).answers = w.answers.drop slot.sampleCount := rfl
@[simp] theorem Wire.playSlot_samples (slot : Slot) :
    (w.playSlot t slot).samples = w.samples + slot.sampleCount := rfl

@[simp] theorem Wire.play_nil : w.play t [] = w := rfl
@[simp] theorem Wire.play_cons (slot : Slot) (slots : List Slot) :
    w.play t (slot :: slots) = (w.playSlot t slot).play t slots := rfl

theorem Wire.play_append (xs ys : List Slot) : w.play t (xs ++ ys) = (w.play t xs).play t ys := by
  simp [Wire.play, List.foldl_append]

/-- How many samples a sequence of slots takes. -/
def sampleTotal (slots : List Slot) : Nat := (slots.map Slot.sampleCount).sum

@[simp] theorem sampleTotal_nil : sampleTotal [] = 0 := rfl
@[simp] theorem sampleTotal_cons (slot : Slot) (slots : List Slot) :
    sampleTotal (slot :: slots) = slot.sampleCount + sampleTotal slots := by simp [sampleTotal]
@[simp] theorem sampleTotal_append (xs ys : List Slot) : sampleTotal (xs ++ ys) = sampleTotal xs + sampleTotal ys := by
  simp [sampleTotal]

theorem Wire.play_answers (slots : List Slot) : (w.play t slots).answers = w.answers.drop (sampleTotal slots) := by
  induction slots generalizing w with
  | nil => simp
  | cons slot slots ih => simp [ih, List.drop_drop]

theorem Wire.play_samples (slots : List Slot) : (w.play t slots).samples = w.samples + sampleTotal slots := by
  induction slots generalizing w with
  | nil => simp
  | cons slot slots ih => simp [ih, Nat.add_assoc]

/-- The trace of a sequence of slots is the old trace and then the slots' events (20 R59, R65). -/
theorem Wire.play_trace (slots : List Slot) : (w.play t slots).trace = w.trace ++ slots.flatMap (slotEvents t) := by
  induction slots generalizing w with
  | nil => simp
  | cons slot slots ih =>
    rw [Wire.play_cons, ih]
    simp [Wire.trace]

theorem Wire.play_driven_sublist (slots : List Slot) : ((w.play t slots).driven).Sublist w.driven := by
  induction slots generalizing w with
  | nil => simp
  | cons slot slots ih => exact (ih _).trans (by simp)

/-- An idle wire side is idle after any slots (41 R137). -/
theorem Wire.play_idle (slots : List Slot) (hd : w.driven = []) (hc : w.crit = false) :
    (w.play t slots).driven = [] ∧ (w.play t slots).crit = false := by
  induction slots generalizing w with
  | nil => exact ⟨hd, hc⟩
  | cons slot slots ih => exact ih _ (by simp [hd]) rfl

/-- Slots on one pin leave every other line as it was (10 R22, 20 R76). -/
theorem Wire.play_drive_other (slots : List Slot) (pin q : PinId) (h : ∀ x ∈ slots, x.pin = pin) (hq : q ≠ pin) :
    (w.play t slots).drive q = w.drive q := by
  induction slots generalizing w with
  | nil => rfl
  | cons slot slots ih =>
    have hp : slot.pin = pin := h slot (by simp)
    simp only [Wire.play_cons, ih _ (fun x hx => h x (by simp [hx]))]
    simp [Wire.drive, hp, hq]

/-- The answers still to come after `n` samples have been drawn. -/
theorem Wire.play_answerAt (slots : List Slot) (k : Nat) :
    (w.play t slots).answerAt k = w.answerAt (sampleTotal slots + k) := by
  simp [Wire.answerAt, Wire.play_answers, Wire.play_samples, List.getD, Nat.add_assoc]

theorem Wire.play_bitAt (slots : List Slot) (k : Nat) :
    (w.play t slots).bitAt k = w.bitAt (sampleTotal slots + k) := by
  simp [Wire.bitAt, Wire.play_answerAt]

/-! ### The procedures as slots -/

theorem levelPresence_eq (v : Level) : levelPresence v = decide (v = .low) := by cases v <;> rfl
theorem levelBit_eq (v : Level) : levelBit v = decide (v = .high) := by cases v <;> rfl
theorem presenceLevel_decide (v : Level) : presenceLevel (decide (v = .low)) = v := by cases v <;> rfl
theorem bitLevel_decide (v : Level) : bitLevel (decide (v = .high)) = v := by cases v <;> rfl

/-- `reset_slot` is one reset slot; its answer is the presence of the sample (41 R122). -/
theorem resetSlot_eq (pin : PinId) :
    resetSlot t pin w = (decide (w.answerAt 0 = .low), w.playSlot t (.reset pin (decide (w.answerAt 0 = .low)))) := by
  simp [resetSlot, Wire.sample, Wire.playSlot, slotEvents, Wire.emit, Wire.delay, Wire.release, Wire.driveLow,
    Wire.critEnter, Wire.critLeave, Wire.answerAt, levelPresence_eq, presenceLevel_decide, Slot.pin, Slot.sampleCount,
    filter_insertPin]

/-- `write_bit` is one write slot (41 R124). -/
theorem writeBit_eq (pin : PinId) (b : Bool) : writeBit t pin b w = w.playSlot t (.write pin b) := by
  simp [writeBit, writeLow, Wire.playSlot, slotEvents, Wire.emit, Wire.delay, Wire.release, Wire.driveLow,
    Wire.critEnter, Wire.critLeave, Slot.pin, Slot.sampleCount, filter_insertPin]

/-- `read_bit` is one read slot; its bit is 1 iff the sample is `H` (41 R126). -/
theorem readBit_eq (pin : PinId) : readBit t pin w = (w.bitAt 0, w.playSlot t (.read pin (w.bitAt 0))) := by
  simp [readBit, Wire.bitAt, Wire.sample, Wire.playSlot, slotEvents, Wire.emit, Wire.delay, Wire.release, Wire.driveLow,
    Wire.critEnter, Wire.critLeave, Wire.answerAt, levelBit_eq, bitLevel_decide, Slot.pin, Slot.sampleCount,
    filter_insertPin]

theorem writeBits_eq (pin : PinId) (bs : List Bool) :
    writeBits t pin bs w = w.play t (bs.map fun b => .write pin b) := by
  induction bs generalizing w with
  | nil => rfl
  | cons b bs ih => simp [writeBits, writeBit_eq, ih]

/-- `write_byte` is eight write slots, bit 0 first (41 R128). -/
theorem writeByte_eq (pin : PinId) (v : Byte) : writeByte t pin v w = w.play t (writeSlots pin [v]) := by
  simp [writeByte, writeBits_eq, writeSlots]

theorem writeByteList_eq (pin : PinId) (vs : List Byte) : writeByteList t pin vs w = w.play t (writeSlots pin vs) := by
  induction vs generalizing w with
  | nil => rfl
  | cons v vs ih =>
    have : writeSlots pin (v :: vs) = writeSlots pin [v] ++ writeSlots pin vs := by simp [writeSlots]
    rw [writeByteList, writeByte_eq, ih, this, Wire.play_append]

@[simp] theorem sampleTotal_writeSlots (pin : PinId) (vs : List Byte) : sampleTotal (writeSlots pin vs) = 0 := by
  induction vs with
  | nil => rfl
  | cons v vs ih =>
    have e : writeSlots pin (v :: vs) = (byteBits v).map (fun b => Slot.write pin b) ++ writeSlots pin vs := by
      simp [writeSlots]
    rw [e, sampleTotal_append, ih]
    simp [sampleTotal, Function.comp_def, Slot.sampleCount]

theorem Wire.readSlots_succ (pin : PinId) (start n : Nat) :
    w.readSlots pin start (n + 1) = .read pin (w.bitAt start) :: w.readSlots pin (start + 1) n := by
  simp only [Wire.readSlots, List.range_succ_eq_map, List.map_cons, List.map_map, Nat.add_zero]
  refine congrArg _ (List.map_congr_left fun k _ => ?_)
  simp [Nat.add_assoc, Nat.add_comm 1 k]

@[simp] theorem Wire.readSlots_zero (pin : PinId) (start : Nat) : w.readSlots pin start 0 = [] := rfl

theorem Wire.readSlots_add (pin : PinId) (start m n : Nat) :
    w.readSlots pin start (m + n) = w.readSlots pin start m ++ w.readSlots pin (start + m) n := by
  induction m generalizing start with
  | zero => simp
  | succ m ih =>
    rw [show m + 1 + n = (m + n) + 1 by omega, Wire.readSlots_succ, Wire.readSlots_succ, ih]
    simp [Nat.add_assoc, Nat.add_comm 1 m]

@[simp] theorem sampleTotal_readSlots (pin : PinId) (start n : Nat) : sampleTotal (w.readSlots pin start n) = n := by
  induction n generalizing start with
  | zero => rfl
  | succ n ih => simp [Wire.readSlots_succ, ih, Slot.sampleCount, Nat.add_comm]

/-- Read slots of a wire side that has already played slots, in terms of the earlier wire side. -/
theorem Wire.play_readSlots (slots : List Slot) (pin : PinId) (start n : Nat) :
    (w.play t slots).readSlots pin start n = w.readSlots pin (sampleTotal slots + start) n := by
  simp [Wire.readSlots, Wire.play_bitAt, Nat.add_assoc]

/-- `n` read slots: the bits of the next `n` samples, in order. -/
theorem readBits_eq (pin : PinId) (n : Nat) :
    readBits t pin n w = ((List.range n).map (fun k => w.bitAt k), w.play t (w.readSlots pin 0 n)) := by
  induction n generalizing w with
  | zero => rfl
  | succ n ih =>
    have e : ∀ k, (w.playSlot t (.read pin (w.bitAt 0))).bitAt k = w.bitAt (1 + k) :=
      fun k => Wire.play_bitAt t w [.read pin (w.bitAt 0)] k
    have e' : (w.playSlot t (.read pin (w.bitAt 0))).readSlots pin 0 n = w.readSlots pin 1 n :=
      Wire.play_readSlots t w [.read pin (w.bitAt 0)] pin 0 n
    simp only [readBits, readBit_eq, ih, e, e', Wire.readSlots_succ, Wire.play_cons, List.range_succ_eq_map,
      List.map_cons, List.map_map, Nat.zero_add]
    simp [Function.comp_def, Nat.add_comm 1]

/-- `read_byte`: the byte whose bit `k` is the `k`-th sample (41 R130). -/
theorem readByte_eq (pin : PinId) (v : Byte) (h : ∀ k, k < 8 → v.getLsbD k = w.bitAt k) :
    readByte t pin w = (v, w.play t (w.readSlots pin 0 8)) := by
  simp only [readByte, readBits_eq]
  rw [byteOfBits_eq _ v]
  intro k hk
  rw [h k hk]
  simp [List.getD, hk]

/-- The byte that the samples from number `n` on give. -/
def Wire.byteAt (w : Wire) (n : Nat) : Byte := byteOfBits ((List.range 8).map fun k => w.bitAt (n + k))

theorem Wire.getLsbD_byteAt (n j : Nat) (hj : j < 8) : (w.byteAt n).getLsbD j = w.bitAt (n + j) := by
  rw [Wire.byteAt, getLsbD_byteOfBits]
  simp [hj, List.getD]

theorem Wire.play_byteAt (slots : List Slot) (n : Nat) :
    (w.play t slots).byteAt n = w.byteAt (sampleTotal slots + n) := by
  simp [Wire.byteAt, Wire.play_bitAt, Nat.add_assoc]

/-- `n` bytes read: byte `k` is the samples from `8k` on (41 R134). -/
theorem readByteList_eq (pin : PinId) (n : Nat) :
    readByteList t pin n w = ((List.range n).map (fun k => w.byteAt (8 * k)), w.play t (w.readSlots pin 0 (8 * n))) := by
  induction n generalizing w with
  | zero => rfl
  | succ n ih =>
    have e0 := readByte_eq t w pin (w.byteAt 0) fun k hk => by simpa using Wire.getLsbD_byteAt w 0 k hk
    have e2 : (w.play t (w.readSlots pin 0 8)).readSlots pin 0 (8 * n) = w.readSlots pin 8 (8 * n) := by
      simp [Wire.play_readSlots]
    simp only [readByteList, e0, ih, e2]
    rw [show 8 * (n + 1) = 8 + 8 * n by omega, Wire.readSlots_add, Wire.play_append, List.range_succ_eq_map]
    simp [Function.comp_def, Wire.play_byteAt, Nat.mul_succ, Nat.add_comm 8]

/-! ### The discipline of the trace (60 R217) -/

theorem TracePhase.run_append (ph : TracePhase) (xs ys : List Event) :
    ph.run (xs ++ ys) = (ph.run xs).bind fun ph' => ph'.run ys := by
  induction xs generalizing ph with
  | nil => rfl
  | cons e es ih =>
    simp only [List.cons_append, TracePhase.run]
    cases ph.next e with
    | none => rfl
    | some ph' => exact ih ph'

theorem disciplined_append (xs ys : List Event) (hx : disciplined xs) (hy : disciplined ys) : disciplined (xs ++ ys) := by
  simpa [disciplined, TracePhase.run_append, hx] using hy

theorem disciplined_slotEvents (slot : Slot) : disciplined (slotEvents t slot) := by
  cases slot <;> simp [disciplined, slotEvents, TracePhase.run, TracePhase.next]

theorem disciplined_slots (slots : List Slot) : disciplined (slots.flatMap (slotEvents t)) := by
  induction slots with
  | nil => rfl
  | cons slot slots ih => exact disciplined_append _ _ (disciplined_slotEvents t slot) ih

/-- Every event of a slot names the slot's pin or none. -/
theorem slotEvents_pin (slot : Slot) : ∀ e ∈ slotEvents t slot, e.pin? = none ∨ e.pin? = some slot.pin := by
  cases slot <;> simp [slotEvents, Event.pin?, Slot.pin]

theorem writeSlots_pin (pin : PinId) (vs : List Byte) : ∀ x ∈ writeSlots pin vs, x.pin = pin := by
  intro x hx
  simp only [writeSlots, List.mem_flatMap, List.mem_map] at hx
  obtain ⟨v, _, b, _, rfl⟩ := hx
  rfl

theorem Wire.readSlots_pin (pin : PinId) (start n : Nat) : ∀ x ∈ w.readSlots pin start n, x.pin = pin := by
  intro x hx
  simp only [Wire.readSlots, List.mem_map] at hx
  obtain ⟨k, _, rfl⟩ := hx
  rfl

end Sys2Proof.Machine
end

