-- ==== Sys2Proof/Laws/Response.lean ====
section
/-! SUPPORT. The response, the checks and the registry: `ret` and `raise` as answers in the spec's vector notation, what a check
lets through, what the registry reads after a write, and what `findPin` finds. -/

namespace Sys2Proof.Machine

open Sys2Proof

/-! ### The response word (30 R88) -/

theorem responseWord_ok (data : Half) : responseWord .ok data = okWord data := by
  apply BitVec.eq_of_getLsbD_eq
  intro i hi
  simp only [responseWord, Status.okBit, Status.code, okWord, if_true, BitVec.getLsbD_append, BitVec.getLsbD_or,
    BitVec.getLsbD_setWidth]
  by_cases h : i < 16
  · have h31 : (0x80000000#32).getLsbD i = false := by
      revert h; revert i; decide
    simp only [h, h31, show i < 32 by omega, if_true, decide_true, Bool.true_and, Bool.false_or]
  · have hd : data.getLsbD i = false := BitVec.getLsbD_of_ge _ _ (by omega)
    rw [hd]
    have : ∀ i, i < 32 → ¬ i < 16 → (if i < 16 then false else if i - 16 < 8 then (0#8).getLsbD (i - 16)
        else if i - 16 - 8 < 4 then (0#4).getLsbD (i - 16 - 8) else if i - 16 - 8 - 4 < 3 then (0#3).getLsbD (i - 16 - 8 - 4)
        else (1#1).getLsbD (i - 16 - 8 - 4 - 3)) = (0x80000000#32).getLsbD i := by decide
    simpa [h] using this i hi h

theorem responseWord_fail (st : Status) (h : st ≠ .ok) : responseWord st 0 = failWord st.code.toNat := by
  cases st <;> first | (exact absurd rfl h) | decide

theorem State.ret_eq (s : State) (data : Half) : s.ret data = s.answered (okWord data) := by
  simp [State.ret, State.respond, State.answered, responseWord_ok]

theorem State.raise_eq (s : State) (st : Status) (h : st ≠ .ok) : s.raise st = s.answered (failWord st.code.toNat) := by
  simp only [State.raise, State.respond, State.answered, ← responseWord_fail st h]

/-- Writing a response twice keeps the last one. -/
@[simp] theorem State.answered_answered (s : State) (v w : Word) : (s.answered v).answered w = s.answered w := rfl

/-! ### Checks (30 R91 to R94) -/

theorem State.onBus_usable (s : State) (h : Nat) (run : State → State) (hu : s.usable h) : s.onBus h run = run s := by
  simp [State.onBus, State.checked, State.checkHandle, hu.2, Nat.not_le.2 hu.1]

theorem State.onBus_missing (s : State) (h : Nat) (run : State → State) (hm : s.cfg.nBus ≤ h) :
    s.onBus h run = s.answered (failWord 2) := by
  simp [State.onBus, State.checked, State.checkHandle, hm, State.raise_eq, Status.code]

theorem State.onBus_uninitialized (s : State) (h : Nat) (run : State → State) (hm : h < s.cfg.nBus)
    (hi : (s.busAt h).initialized = false) : s.onBus h run = s.answered (failWord 3) := by
  simp [State.onBus, State.checked, State.checkHandle, Nat.not_le.2 hm, hi, State.raise_eq, Status.code]

/-- The three ways an operation on a bus can go. -/
theorem State.onBus_cases (s : State) (h : Nat) (run : State → State) :
    (s.usable h ∧ s.onBus h run = run s) ∨ (s.cfg.nBus ≤ h ∧ s.onBus h run = s.answered (failWord 2)) ∨
    ((h < s.cfg.nBus ∧ (s.busAt h).initialized = false) ∧ s.onBus h run = s.answered (failWord 3)) := by
  by_cases h1 : s.cfg.nBus ≤ h
  · exact .inr (.inl ⟨h1, s.onBus_missing h run h1⟩)
  · have h2 : h < s.cfg.nBus := Nat.lt_of_not_le h1
    cases hi : (s.busAt h).initialized with
    | true => exact .inl ⟨⟨h2, hi⟩, s.onBus_usable h run ⟨h2, hi⟩⟩
    | false => exact .inr (.inr ⟨⟨h2, rfl⟩, s.onBus_uninitialized h run h2 hi⟩)

/-- Every operation that goes through the guard answers as 30 R91 says when the guard stops it. -/
theorem guardedBy_onBus (s : State) (h : Nat) (run : State → State) : guardedBy s h (.next (s.onBus h run)) :=
  ⟨fun hm => by rw [s.onBus_missing h run hm], fun hm hi => by rw [s.onBus_uninitialized h run hm hi]⟩

theorem State.checked_length_ok (s : State) (len : Nat) (run : State → State) (h : len ≤ s.cfg.lBuf) :
    s.checked (s.checkLength len) run = run s := by
  simp [State.checked, State.checkLength, Nat.not_lt.2 h]

theorem State.checked_length_bad (s : State) (len : Nat) (run : State → State) (h : s.cfg.lBuf < len) :
    s.checked (s.checkLength len) run = s.answered (failWord 7) := by
  simp [State.checked, State.checkLength, h, State.raise_eq, Status.code]

theorem State.checked_index_ok (s : State) (idx : Nat) (run : State → State) (h : idx < s.cfg.lBuf) :
    s.checked (s.checkIndex idx) run = run s := by
  simp [State.checked, State.checkIndex, Nat.not_le.2 h]

theorem State.checked_index_bad (s : State) (idx : Nat) (run : State → State) (h : s.cfg.lBuf ≤ idx) :
    s.checked (s.checkIndex idx) run = s.answered (failWord 7) := by
  simp [State.checked, State.checkIndex, h, State.raise_eq, Status.code]

/-! ### The registry (10 R21 to R30) -/

theorem State.busAt_setBus_same (s : State) (h : Nat) (b : Bus) (hl : h < s.bus.length) : (s.setBus h b).busAt h = b := by
  simp [State.busAt, State.setBus, List.getD, hl]

theorem State.busAt_setBus_other (s : State) (h k : Nat) (b : Bus) (hk : k ≠ h) : (s.setBus h b).busAt k = s.busAt k := by
  simp [State.busAt, State.setBus, List.getD, List.getElem?_set_ne (Ne.symm hk)]

/-- Reading a slot after a write to slot `h`: the new slot, or what was there. -/
theorem State.busAt_setBus (s : State) (h k : Nat) (b : Bus) :
    (s.setBus h b).busAt k = if k = h ∧ h < s.bus.length then b else s.busAt k := by
  by_cases hk : k = h
  · subst hk
    by_cases hl : k < s.bus.length
    · simp [hl, s.busAt_setBus_same k b hl]
    · simp [hl, State.setBus, List.set_eq_of_length_le (Nat.le_of_not_lt hl)]
  · simp [hk, s.busAt_setBus_other h k b hk]

/-- An initialized slot exists. -/
theorem State.lt_length_of_initialized (s : State) (h : Nat) (hi : (s.busAt h).initialized = true) : h < s.bus.length := by
  by_contra hl
  rw [State.busAt, List.getD_eq_default _ _ (Nat.le_of_not_lt hl)] at hi
  exact absurd hi (by decide)

theorem State.findPin_some (s : State) (pin : PinId) (h : Nat) :
    s.findPin pin = some h ↔
      h < s.count ∧ (s.busAt h).pin = pin ∧ ∀ k, k < h → (s.busAt k).pin ≠ pin := by
  rw [State.findPin, List.find?_range_eq_some]
  simp only [beq_iff_eq, List.mem_range, Bool.not_eq_eq_eq_not, Bool.not_true, beq_eq_false_iff_ne, ne_eq]
  tauto

theorem State.findPin_none (s : State) (pin : PinId) :
    s.findPin pin = none ↔ ∀ h, h < s.count → (s.busAt h).pin ≠ pin := by
  simp [State.findPin, List.find?_eq_none]

/-- What ACQUIRE can do (40 R106). -/
theorem State.acquire_cases (s : State) (pin : PinId) :
    (∃ h, s.findPin pin = some h ∧ s.acquire pin = s.answered (okWord (BitVec.ofNat 16 h))) ∨
    (s.findPin pin = none ∧ s.count = s.cfg.nBus ∧ s.acquire pin = s.answered (failWord 1)) ∨
    (s.findPin pin = none ∧ s.count ≠ s.cfg.nBus ∧
      s.acquire pin = (s.allocate pin).answered (okWord (BitVec.ofNat 16 s.count))) := by
  unfold State.acquire
  cases hf : s.findPin pin with
  | some h => exact .inl ⟨h, rfl, s.ret_eq _⟩
  | none =>
    by_cases hc : s.count = s.cfg.nBus
    · exact .inr (.inl ⟨rfl, hc, by simp [hc, State.raise_eq, Status.code]⟩)
    · exact .inr (.inr ⟨rfl, hc, by simp [hc, State.ret_eq]⟩)

end Sys2Proof.Machine
end

