-- ==== Sys2Proof/Laws/Search.lean ====
section
/-! SUPPORT. The loop of a search pass (spec/43_search.md R163 to R167): everything `searchFrom` can do, said once; and the three
ways a pass can begin. -/

namespace Sys2Proof.Machine

open Sys2Proof

/-- The direction chosen at position `q` from the `j`-th pair of samples (43 R165's table without its abort row). -/
def Wire.dirAt (w : Wire) (b : Bus) (q j : Nat) : Bool :=
  if w.bitAt (2 * j) = false ∧ w.bitAt (2 * j + 1) = false then
    (if q < b.lastDiscrepancy then romBit b.rom q else decide (q = b.lastDiscrepancy))
  else w.bitAt (2 * j)

/-- The `j`-th pair of samples is a discrepancy at which the address `r` takes a 0 at position `q`. -/
abbrev Wire.zeroTakenAt (w : Wire) (r : RomCode) (q j : Nat) : Prop :=
  w.bitAt (2 * j) = false ∧ w.bitAt (2 * j + 1) = false ∧ romBit r q = false

/-- The slots of `k` positions from `p` on, for the address `r` (43 R163). -/
def Wire.loopSlots (w : Wire) (pin : PinId) (r : RomCode) (p k : Nat) : List Slot :=
  (List.range k).flatMap fun j => [.read pin (w.bitAt (2 * j)), .read pin (w.bitAt (2 * j + 1)), .write pin (romBit r (p + j))]

/-- What `k` finished positions from `p` on have done to the slot `b`. -/
structure LoopFacts (b b' : Bus) (w : Wire) (p k : Nat) : Prop where
  pin : b'.pin = b.pin
  initialized : b'.initialized = b.initialized
  lastDiscrepancy : b'.lastDiscrepancy = b.lastDiscrepancy
  lastDeviceFlag : b'.lastDeviceFlag = b.lastDeviceFlag
  stored : ∀ j, j < k → romBit b'.rom (p + j) = w.dirAt b (p + j) j
  kept : ∀ q, 1 ≤ q → (q < p ∨ p + k ≤ q) → romBit b'.rom q = romBit b.rom q
  answered : ∀ j, j < k → ¬ (w.bitAt (2 * j) = true ∧ w.bitAt (2 * j + 1) = true)

/-- `out` is the last of the positions `p + j`, `j < k`, with the property, or `old` if there is none. -/
def lastOr (P : Nat → Prop) (p k old out : Nat) : Prop :=
  (∃ j, j < k ∧ P j ∧ out = p + j ∧ ∀ i, j < i → i < k → ¬ P i) ∨ (out = old ∧ ∀ j, j < k → ¬ P j)

theorem lastOr_step (P : Nat → Prop) (p k old out : Nat) (c : Prop) [Decidable c] (hc : c ↔ P 0)
    (h : lastOr (fun j => P (j + 1)) (p + 1) k (if c then p else old) out) : lastOr P p (k + 1) old out := by
  rcases h with ⟨j, hj, hP, rfl, hl⟩ | ⟨rfl, hn⟩
  · refine .inl ⟨j + 1, by omega, hP, by omega, fun i h1 h2 => ?_⟩
    obtain ⟨i, rfl⟩ : ∃ i', i = i' + 1 := ⟨i - 1, by omega⟩
    exact hl i (by omega) (by omega)
  · by_cases h0 : c
    · refine .inl ⟨0, by omega, hc.1 h0, by simp [h0], fun i h1 h2 => ?_⟩
      obtain ⟨i, rfl⟩ : ∃ i', i = i' + 1 := ⟨i - 1, by omega⟩
      exact hn i (by omega)
    · refine .inr ⟨by simp [h0], fun j hj => ?_⟩
      cases j with
      | zero => exact fun h => h0 (hc.2 h)
      | succ j => exact hn j (by omega)

/-- The wire side after one finished position. -/
theorem Wire.position_bitAt (t : Timing) (w : Wire) (pin : PinId) (x y d : Bool) (i : Nat) :
    (w.play t [.read pin x, .read pin y, .write pin d]).bitAt i = w.bitAt (2 + i) := by
  rw [Wire.play_bitAt]; rfl

theorem Wire.loopSlots_succ (t : Timing) (w : Wire) (pin : PinId) (r : RomCode) (p k : Nat) (x y d : Bool)
    (hx : w.bitAt 0 = x) (hy : w.bitAt 1 = y) (hd : romBit r p = d) :
    w.loopSlots pin r p (k + 1) =
      [.read pin x, .read pin y, .write pin d] ++
        (w.play t [.read pin x, .read pin y, .write pin d]).loopSlots pin r (p + 1) k := by
  simp only [Wire.loopSlots, List.range_succ_eq_map, List.flatMap_cons, List.flatMap_map, Wire.position_bitAt]
  subst hx hy hd
  simp only [Nat.mul_zero, Nat.zero_add, Nat.add_zero]
  congr 1
  refine List.flatMap_congr fun j _ => ?_
  rw [show 2 * (j + 1) = 2 + 2 * j by omega, show 2 + 2 * j + 1 = 2 + (2 * j + 1) by omega,
    show p + (j + 1) = p + 1 + j by omega]

theorem chooseDir_eq (b : Bus) (p : Nat) (x y : Bool) :
    chooseDir b p x y = if x = true ∧ y = true then none
      else some (if x = false ∧ y = false then
        (if p < b.lastDiscrepancy then romBit b.rom p else decide (p = b.lastDiscrepancy)) else x) := by
  cases x <;> cases y <;> simp [chooseDir, discrepancyDir]
  rfl

/-- Lift the facts about the positions after `p` to the positions from `p` on. -/
theorem LoopFacts.step (t : Timing) (b b' : Bus) (w : Wire) (p k : Nat) (x y d zero : Bool) (hp : 1 ≤ p) (hp64 : p ≤ 64)
    (hx : w.bitAt 0 = x) (hy : w.bitAt 1 = y) (hxy : ¬ (x = true ∧ y = true)) (hd : d = w.dirAt b p 0)
    (h : LoopFacts (b.advance p zero d) b' (w.play t [.read b.pin x, .read b.pin y, .write b.pin d]) (p + 1) k) :
    LoopFacts b b' w p (k + 1) ∧ romBit b'.rom p = d := by
  have hpd : romBit b'.rom p = d := by
    rw [h.kept p hp (.inl (by omega)), Bus.advance_rom, romBit_setRomBit_same _ _ _ hp hp64]
  refine ⟨⟨h.pin, h.initialized, h.lastDiscrepancy, h.lastDeviceFlag, ?_, ?_, ?_⟩, hpd⟩
  · intro j hj
    cases j with
    | zero => simpa [hd] using hpd
    | succ j =>
      have := h.stored j (by omega)
      rw [show p + (j + 1) = p + 1 + j by omega, this]
      simp only [Wire.dirAt, Wire.position_bitAt, Bus.advance_lastDiscrepancy, Bus.advance_rom]
      rw [romBit_setRomBit_other _ _ _ _ hp (by omega) (by omega), show 2 * (j + 1) = 2 + 2 * j by omega,
        show 2 + 2 * j + 1 = 2 + (2 * j + 1) by omega]
      exact if_congr Iff.rfl rfl rfl
  · intro q hq h'
    rw [h.kept q hq (by omega), Bus.advance_rom, romBit_setRomBit_other _ _ _ _ hp hq (by omega)]
  · intro j hj
    cases j with
    | zero => simpa [hx, hy] using hxy
    | succ j =>
      have := h.answered j (by omega)
      simp only [Wire.position_bitAt] at this
      rwa [show 2 * (j + 1) = 2 + 2 * j by omega, show 2 + 2 * j + 1 = 2 + (2 * j + 1) by omega]

/-- Everything the loop can do: abort at the first position where both bits read 1, or resolve every position. -/
theorem searchFrom_cases (t : Timing) (n p lastZero : Nat) (b : Bus) (w : Wire) (hp : 1 ≤ p) (hn : p + n ≤ 65) :
    (∃ k b', k < n ∧ LoopFacts b b' w p k ∧ w.bitAt (2 * k) = true ∧ w.bitAt (2 * k + 1) = true ∧
      searchFrom t n p lastZero b w = .aborted b'
        (w.play t (w.loopSlots b.pin b'.rom p k ++ [.read b.pin true, .read b.pin true]))) ∨
    (∃ b' lz, LoopFacts b b' w p n ∧
      lastOr (fun j => w.zeroTakenAt b'.rom (p + j) j) p n lastZero lz ∧
      lastOr (fun j => w.zeroTakenAt b'.rom (p + j) j ∧ p + j ≤ 8) p n b.lastFamilyDiscrepancy
        b'.lastFamilyDiscrepancy ∧
      searchFrom t n p lastZero b w = .resolved b' lz (w.play t (w.loopSlots b.pin b'.rom p n))) := by
  induction n generalizing p lastZero b w with
  | zero =>
    refine .inr ⟨b, lastZero, ⟨rfl, rfl, rfl, rfl, ?_, fun _ _ _ => rfl, ?_⟩, .inr ⟨rfl, ?_⟩, .inr ⟨rfl, ?_⟩, rfl⟩
    all_goals
      intro j hj
      exact absurd hj (Nat.not_lt_zero j)
  | succ n ih =>
    obtain ⟨x, hx⟩ : ∃ x, w.bitAt 0 = x := ⟨_, rfl⟩
    obtain ⟨y, hy⟩ : ∃ y, w.bitAt 1 = y := ⟨_, rfl⟩
    have hy' : (w.playSlot t (.read b.pin x)).bitAt 0 = y := by
      rw [← hy]; exact Wire.play_bitAt t w [.read b.pin x] 0
    simp only [searchFrom, readBit_eq, hx, hy', chooseDir_eq]
    by_cases hxy : x = true ∧ y = true
    · obtain ⟨rfl, rfl⟩ := hxy
      refine .inl ⟨0, b, by omega, ⟨rfl, rfl, rfl, rfl, ?_, fun _ _ _ => rfl, ?_⟩, hx, hy, rfl⟩
      all_goals
        intro j hj
        exact absurd hj (Nat.not_lt_zero j)
    · simp only [hxy, if_false]
      obtain ⟨d, hd⟩ : ∃ d, d = w.dirAt b p 0 := ⟨_, rfl⟩
      have hd' : (if x = false ∧ y = false then
          (if p < b.lastDiscrepancy then romBit b.rom p else decide (p = b.lastDiscrepancy)) else x) = d := by
        rw [hd, Wire.dirAt]; simp [hx, hy]
      rw [hd', writeBit_eq]
      have hz : ∀ r : RomCode, romBit r p = d →
          ((zeroTaken x y d = true) ↔ w.zeroTakenAt r (p + 0) 0) := by
        intro r hr
        simp only [zeroTaken, Wire.zeroTakenAt, Nat.mul_zero, Nat.zero_add, hx, hy, Nat.add_zero, hr]
        cases x <;> cases y <;> cases d <;> simp
      rcases ih (p + 1) (if zeroTaken x y d = true then p else lastZero) (b.advance p (zeroTaken x y d) d)
          (w.play t [.read b.pin x, .read b.pin y, .write b.pin d]) (by omega) (by omega) with
        ⟨k, b', hk, hf, h1, h2, he⟩ | ⟨b', lz, hf, hlz, hlf, he⟩
      · obtain ⟨hF, hbit⟩ := LoopFacts.step t b b' w p k x y d _ hp (by omega) hx hy hxy hd hf
        refine .inl ⟨k + 1, b', by omega, hF, ?_, ?_, ?_⟩
        · rwa [Wire.position_bitAt, show 2 + 2 * k = 2 * (k + 1) by omega] at h1
        · rwa [Wire.position_bitAt, show 2 + (2 * k + 1) = 2 * (k + 1) + 1 by omega] at h2
        · rw [Wire.loopSlots_succ t w b.pin b'.rom p k x y d hx hy hbit, List.append_assoc, Wire.play_append]
          exact he
      · obtain ⟨hF, hbit⟩ := LoopFacts.step t b b' w p n x y d _ hp (by omega) hx hy hxy hd hf
        have shift : ∀ j, (w.play t [.read b.pin x, .read b.pin y, .write b.pin d]).zeroTakenAt b'.rom (p + 1 + j) j ↔
            w.zeroTakenAt b'.rom (p + (j + 1)) (j + 1) := by
          intro j
          simp only [Wire.zeroTakenAt, Wire.position_bitAt]
          rw [show 2 * (j + 1) = 2 + 2 * j by omega, show 2 + 2 * j + 1 = 2 + (2 * j + 1) by omega,
            show p + (j + 1) = p + 1 + j by omega]
        refine .inr ⟨b', lz, hF, ?_, ?_, ?_⟩
        · refine lastOr_step _ _ _ _ _ (zeroTaken x y d = true) (hz b'.rom hbit) ?_
          simpa only [shift] using hlz
        · refine lastOr_step _ _ _ _ _ (zeroTaken x y d = true ∧ p ≤ 8) (and_congr (hz b'.rom hbit) Iff.rfl) ?_
          simp only [shift] at hlf
          simpa only [Bus.advance_lastFamilyDiscrepancy, Bool.and_eq_true, decide_eq_true_eq,
            show ∀ j, p + 1 + j = p + (j + 1) from fun j => by omega] using hlf
        · rw [Wire.loopSlots_succ t w b.pin b'.rom p n x y d hx hy hbit, Wire.play_append]
          exact he

@[simp] theorem sampleTotal_loopSlots (w : Wire) (pin : PinId) (r : RomCode) (p k : Nat) :
    sampleTotal (w.loopSlots pin r p k) = 2 * k := by
  induction k with
  | zero => rfl
  | succ k ih =>
    simp only [Wire.loopSlots, List.range_succ, List.flatMap_append, sampleTotal_append] at ih ⊢
    rw [ih]
    simp [Slot.sampleCount]
    omega

theorem Wire.loopSlots_pin (w : Wire) (pin : PinId) (r : RomCode) (p k : Nat) :
    ∀ x ∈ w.loopSlots pin r p k, x.pin = pin := by
  intro x hx
  simp only [Wire.loopSlots, List.mem_flatMap, List.mem_cons, List.not_mem_nil, or_false] at hx
  obtain ⟨j, _, rfl | rfl | rfl⟩ := hx <;> rfl

/-- How a search begins: with the flag set; with no presence; or with the loop, after one reset and the command byte
(43 R160 to R162). -/
theorem State.search_cases (s : State) (h : Nat) (cmdByte : Byte) :
    ((s.busAt h).lastDeviceFlag = true ∧ s.search h cmdByte = s.answered (failWord 9)) ∨
    ((s.busAt h).lastDeviceFlag = false ∧ s.wire.answerAt 0 ≠ .low ∧
      s.search h cmdByte = ((s.withWire (s.wire.play s.timing [.reset (s.pinOf h) false])).clearSearch h).answered
        (failWord 4)) ∨
    ((s.busAt h).lastDeviceFlag = false ∧ s.wire.answerAt 0 = .low ∧
      s.search h cmdByte = s.endPass h (searchFrom s.timing 64 1 0 (s.busAt h)
        (s.wire.play s.timing (.reset (s.pinOf h) true :: writeSlots (s.pinOf h) [cmdByte])))) := by
  unfold State.search
  cases hf : (s.busAt h).lastDeviceFlag with
  | true => exact .inl ⟨rfl, by simp [State.raise_eq, Status.code]⟩
  | false =>
    simp only [resetSlot_eq]
    by_cases ha : s.wire.answerAt 0 = .low
    · refine .inr (.inr ⟨trivial, ha, ?_⟩)
      simp [ha, writeByte_eq]
    · refine .inr (.inl ⟨trivial, ha, ?_⟩)
      simp [ha, State.raise_eq, Status.code]

end Sys2Proof.Machine
end

