-- ==== Sys2Proof/Laws/Effect.lean ====
section
/-! SUPPORT. What an operation can do, said once for all of them but ACQUIRE (which `State.acquire_cases` covers): `exec_effect`.
Later proofs about every instruction cite it and unfold no meaning. -/

namespace Sys2Proof.Machine

open Sys2Proof

theorem isResponse_okWord (data : Half) : isResponse (okWord data) := ⟨.ok, data, (responseWord_ok data).symm, .inl rfl⟩

theorem isResponse_failWord (st : Status) (h : st ≠ .ok) : isResponse (failWord st.code.toNat) :=
  ⟨st, 0, (responseWord_fail st h).symm, .inr rfl⟩

/-- The operations that write a search field. -/
abbrev searchFamily (i : Instr) (h : Nat) : Prop := i = .search h ∨ i = .alarmSearch h ∨ i = .resetSearch h

/-- Everything an operation other than ACQUIRE can do: one response; at most one registry slot changed, and that only by the
search family; stores to DBUF where `storesTo` says and within `L_BUF`; and the slots of one pin played on the wire side. -/
def Effect (i : Instr) (s t : State) : Prop :=
  ∃ (bus : List Bus) (vs : List Byte) (first : Nat) (slots : List Slot) (w : Word),
    t = ({ s with bus := bus, dbuf := Memory.storeList s.dbuf first vs, wire := s.wire.play s.cfg.timing slots } : State).answered w ∧
    isResponse w ∧
    (bus = s.bus ∨ ∃ h b, searchFamily i h ∧ s.usable h ∧ bus = s.bus.set h b ∧ b.pin = (s.busAt h).pin ∧
      b.initialized = (s.busAt h).initialized ∧ ((s.busAt h).inv → b.inv)) ∧
    (∀ a, first ≤ a → a < first + vs.length → storesTo i a) ∧
    (8 ≤ s.cfg.lBuf → vs ≠ [] → first + vs.length ≤ s.cfg.lBuf) ∧
    (∀ x ∈ slots, ∃ h, i.handle? = some h ∧ x.pin = (s.busAt h).pin)

theorem Effect.only (i : Instr) (s : State) (w : Word) (h : isResponse w) : Effect i s (s.answered w) :=
  ⟨s.bus, [], 0, [], w, rfl, h, .inl rfl, by simp, by simp, by simp⟩

theorem Effect.slots (i : Instr) (s : State) (h : Nat) (hi : i.handle? = some h) (slots : List Slot) (w : Word) (hw : isResponse w)
    (hp : ∀ x ∈ slots, x.pin = (s.busAt h).pin) :
    Effect i s ((s.withWire (s.wire.play s.cfg.timing slots)).answered w) :=
  ⟨s.bus, [], 0, slots, w, rfl, hw, .inl rfl, by simp, by simp, fun x hx => ⟨h, hi, hp x hx⟩⟩

theorem Effect.stores (i : Instr) (s : State) (h : Nat) (hi : i.handle? = some h) (slots : List Slot) (w : Word) (hw : isResponse w)
    (hp : ∀ x ∈ slots, x.pin = (s.busAt h).pin) (vs : List Byte) (hs : ∀ a, a < vs.length → storesTo i a)
    (hl : 8 ≤ s.cfg.lBuf → vs.length ≤ s.cfg.lBuf) :
    Effect i s (((s.withWire (s.wire.play s.cfg.timing slots)).dbufStoreList vs).answered w) :=
  ⟨s.bus, vs, 0, slots, w, rfl, hw, .inl rfl, fun a _ h => hs a (by omega), fun h _ => by have := hl h; omega,
    fun x hx => ⟨h, hi, hp x hx⟩⟩

theorem Effect.slotWrite (i : Instr) (s : State) (h : Nat) (hi : i.handle? = some h) (slots : List Slot) (w : Word) (hw : isResponse w)
    (hp : ∀ x ∈ slots, x.pin = (s.busAt h).pin) (b : Bus) (hf : searchFamily i h) (hu : s.usable h)
    (h1 : b.pin = (s.busAt h).pin) (h2 : b.initialized = (s.busAt h).initialized) (h3 : (s.busAt h).inv → b.inv) :
    Effect i s (((s.withWire (s.wire.play s.cfg.timing slots)).setBus h b).answered w) :=
  ⟨s.bus.set h b, [], 0, slots, w, rfl, hw, .inr ⟨h, b, hf, hu, rfl, h1, h2, h3⟩, by simp, by simp, fun x hx => ⟨h, hi, hp x hx⟩⟩

theorem Effect.slotStores (i : Instr) (s : State) (h : Nat) (hi : i.handle? = some h) (slots : List Slot) (w : Word) (hw : isResponse w)
    (hp : ∀ x ∈ slots, x.pin = (s.busAt h).pin) (b : Bus) (hf : searchFamily i h) (hu : s.usable h)
    (h1 : b.pin = (s.busAt h).pin) (h2 : b.initialized = (s.busAt h).initialized) (h3 : (s.busAt h).inv → b.inv)
    (vs : List Byte) (hs : ∀ a, a < vs.length → storesTo i a) (hl : 8 ≤ s.cfg.lBuf → vs.length ≤ s.cfg.lBuf) :
    Effect i s ((((s.withWire (s.wire.play s.cfg.timing slots)).setBus h b).dbufStoreList vs).answered w) :=
  ⟨s.bus.set h b, vs, 0, slots, w, rfl, hw, .inr ⟨h, b, hf, hu, rfl, h1, h2, h3⟩, fun a _ h => hs a (by omega),
    fun h _ => by have := hl h; omega, fun x hx => ⟨h, hi, hp x hx⟩⟩

theorem Effect.onBus (i : Instr) (s : State) (h : Nat) (run : State → State)
    (hr : s.usable h → Effect i s (run s)) : Effect i s (s.onBus h run) := by
  rcases s.onBus_cases h run with ⟨hu, e⟩ | ⟨_, e⟩ | ⟨_, e⟩ <;> rw [e]
  · exact hr hu
  · exact Effect.only i s _ (isResponse_failWord .invalidHandle (by decide))
  · exact Effect.only i s _ (isResponse_failWord .notInitialized (by decide))

theorem Effect.checkedLength (i : Instr) (s : State) (n : Nat) (run : State → State)
    (hr : n ≤ s.cfg.lBuf → Effect i s (run s)) : Effect i s (s.checked (s.checkLength n) run) := by
  by_cases h : n ≤ s.cfg.lBuf
  · rw [s.checked_length_ok n run h]; exact hr h
  · rw [s.checked_length_bad n run (by omega)]
    exact Effect.only i s _ (isResponse_failWord .invalidArgument (by decide))

theorem Effect.checkedIndex (i : Instr) (s : State) (n : Nat) (run : State → State)
    (hr : n < s.cfg.lBuf → Effect i s (run s)) : Effect i s (s.checked (s.checkIndex n) run) := by
  by_cases h : n < s.cfg.lBuf
  · rw [s.checked_index_ok n run h]; exact hr h
  · rw [s.checked_index_bad n run (by omega)]
    exact Effect.only i s _ (isResponse_failWord .invalidArgument (by decide))

/-- A slot cleared keeps its invariant (10 R43). -/
theorem Bus.clearSearch_inv {b : Bus} (h : b.inv) : b.clearSearch.inv :=
  ⟨h.1, by simp [Bus.clearSearch], by simp [Bus.clearSearch], romCrc_zero, .inl ⟨rfl, rfl, rfl, rfl⟩⟩

theorem LoopFacts.clearSearch_inv {b b' : Bus} {w : Wire} {p k : Nat} (hF : LoopFacts b b' w p k) (h : b.inv) : b'.clearSearch.inv :=
  ⟨by rw [← h.1, ← hF.initialized]; rfl, by simp [Bus.clearSearch], by simp [Bus.clearSearch], romCrc_zero, .inl ⟨rfl, rfl, rfl, rfl⟩⟩

/-- A pass that succeeds leaves a slot that meets the invariant (43 R169, R171). -/
theorem LoopFacts.done_inv {b b' : Bus} {w : Wire} {lz : Nat} (hF : LoopFacts b b' w 1 64)
    (hlz : lastOr (fun j => w.zeroTakenAt b'.rom (1 + j) j) 1 64 0 lz)
    (hlf : lastOr (fun j => w.zeroTakenAt b'.rom (1 + j) j ∧ 1 + j ≤ 8) 1 64 b.lastFamilyDiscrepancy b'.lastFamilyDiscrepancy)
    (h1 : romCrc b'.rom = 0) (h2 : ¬ romByte b'.rom 0 = 0) (h : b.inv) :
    Bus.inv { b' with lastDiscrepancy := lz, lastDeviceFlag := lastDeviceAfter lz } := by
  refine ⟨by rw [← h.1, ← hF.initialized], ?_, ?_, h1, .inr ⟨h2, ?_, ?_⟩⟩
  · rcases hlz with ⟨j, hj, _, rfl, _⟩ | ⟨rfl, _⟩ <;> simp only <;> omega
  · rcases hlf with ⟨j, hj, ⟨_, h8⟩, e, _⟩ | ⟨e, _⟩ <;> simp only [e]
    · exact h8
    · exact h.2.2.1
  · simp [lastDeviceAfter]; rfl
  · rcases hlz with ⟨j, hj, hz, rfl, _⟩ | ⟨rfl, _⟩
    · exact .inr hz.2.2
    · exact .inl rfl

/-- The slots of a pass name one pin. -/
theorem passSlots_pin (c : Byte) (pin : PinId) (ys : List Slot) (hy : ∀ x ∈ ys, x.pin = pin) :
    ∀ x ∈ (.reset pin true :: writeSlots pin [c]) ++ ys, x.pin = pin := by
  intro x hx
  rcases List.mem_append.1 hx with hx | hx
  · rcases List.mem_cons.1 hx with rfl | hx
    · rfl
    · exact writeSlots_pin pin [c] x hx
  · exact hy x hx

theorem Effect.search (i : Instr) (s : State) (h : Nat) (c : Byte) (hi : i = .search h ∨ i = .alarmSearch h)
    (hu : s.usable h) : Effect i s (s.search h c) := by
  have hh : i.handle? = some h := by rcases hi with rfl | rfl <;> rfl
  have hf : searchFamily i h := by
    rcases hi with rfl | rfl
    · exact .inl rfl
    · exact .inr (.inl rfl)
  have hst : ∀ a, a < 8 → storesTo i a := by rcases hi with rfl | rfl <;> exact fun a h => h
  rcases s.search_cases h c with ⟨_, e⟩ | ⟨_, _, e⟩ | ⟨_, _, e⟩
  · rw [e]; exact Effect.only i s _ (isResponse_failWord .noMoreDevices (by decide))
  · rw [e]
    exact Effect.slotWrite i s h hh [.reset (s.pinOf h) false] _ (isResponse_failWord .noPresence (by decide))
      (by simp [Slot.pin, State.pinOf]) _ hf hu rfl rfl Bus.clearSearch_inv
  · rw [e]
    rcases searchFrom_cases s.timing 64 1 0 (s.busAt h)
      (s.wire.play s.timing (.reset (s.pinOf h) true :: writeSlots (s.pinOf h) [c])) (by omega) (by omega) with
      ⟨k, b', _, hF, _, _, he⟩ | ⟨b', lz, hF, hlz, hlf, he⟩
    · rw [he, ← Wire.play_append, State.endPass, State.raise_eq _ _ (by decide)]
      refine Effect.slotWrite i s h hh _ _ (isResponse_failWord .searchAborted (by decide)) (passSlots_pin c _ _ ?_) _ hf hu
        hF.pin hF.initialized (hF.clearSearch_inv)
      intro y hy
      rcases List.mem_append.1 hy with hy | hy
      · exact Wire.loopSlots_pin _ _ _ _ _ y hy
      · simp at hy; subst hy; rfl
    · rw [he, ← Wire.play_append]
      have hpins := passSlots_pin c (s.pinOf h) _ (Wire.loopSlots_pin (s.wire.play s.timing (.reset (s.pinOf h) true :: writeSlots (s.pinOf h) [c])) (s.busAt h).pin b'.rom 1 64)
      unfold State.endPass
      simp only
      split
      · rw [State.raise_eq _ _ (by decide)]
        exact Effect.slotWrite i s h hh _ _ (isResponse_failWord .crcMismatch (by decide)) hpins _ hf hu hF.pin hF.initialized hF.clearSearch_inv
      · rename_i h1
        split
        · rw [State.raise_eq _ _ (by decide)]
          exact Effect.slotWrite i s h hh _ _ (isResponse_failWord .zeroFamily (by decide)) hpins _ hf hu hF.pin hF.initialized hF.clearSearch_inv
        · rename_i h2
          rw [State.ret_eq]
          exact Effect.slotStores i s h hh _ _ (isResponse_okWord 0) hpins
            { b' with lastDiscrepancy := lz, lastDeviceFlag := lastDeviceAfter lz } hf hu hF.pin hF.initialized (hF.done_inv hlz hlf (by simpa using h1) h2) (romBytes b'.rom)
            (fun a ha => hst a (by simpa using ha)) (fun h8 => by simpa using h8)

/-- Every operation but ACQUIRE answers a next state, and does no more than `Effect` says. -/
theorem exec_effect (i : Instr) (s : State) (hi : ∀ pin, i ≠ .acquire pin) : ∃ t, exec i s = .next t ∧ Effect i s t := by
  cases i with
  | acquire pin => exact absurd rfl (hi pin)
  | lookup pin =>
    refine ⟨_, rfl, ?_⟩
    split
    · rw [State.ret_eq]; exact Effect.only _ s _ (isResponse_okWord _)
    · rw [State.raise_eq _ _ (by decide)]; exact Effect.only _ s _ (isResponse_failWord .notFound (by decide))
  | bufWr idx v =>
    refine ⟨_, rfl, Effect.checkedIndex _ s idx _ fun hl => ?_⟩
    rw [State.ret_eq]
    exact ⟨s.bus, [v], idx, [], _, rfl, isResponse_okWord 0, .inl rfl, fun a h1 h2 => by
      simp only [List.length_singleton] at h2; simp only [storesTo]; omega, fun _ _ => by simp; omega, by simp⟩
  | bufRd idx =>
    refine ⟨_, rfl, Effect.checkedIndex _ s idx _ fun hl => ?_⟩
    rw [State.ret_eq]; exact Effect.only _ s _ (isResponse_okWord _)
  | rdState h =>
    refine ⟨_, rfl, Effect.onBus _ s h _ fun hu => ?_⟩
    rw [State.ret_eq]; exact Effect.only _ s _ (isResponse_okWord _)
  | rdRom h k =>
    refine ⟨_, rfl, Effect.onBus _ s h _ fun hu => ?_⟩
    rw [State.ret_eq]; exact Effect.only _ s _ (isResponse_okWord _)
  | reset h =>
    refine ⟨_, rfl, Effect.onBus _ s h _ fun hu => ?_⟩
    rw [resetSlot_eq]
    have : s.wire.playSlot s.timing (.reset (s.pinOf h) (decide (s.wire.answerAt 0 = .low))) =
      s.wire.play s.cfg.timing [.reset (s.pinOf h) (decide (s.wire.answerAt 0 = .low))] := rfl
    rw [this]
    generalize decide (s.wire.answerAt 0 = .low) = pr
    cases pr
    rotate_left
    · dsimp only
      rw [State.ret_eq]
      exact Effect.slots _ s h rfl _ _ (isResponse_okWord _) (by simp [Slot.pin, State.pinOf])
    · dsimp only
      rw [State.raise_eq _ _ (by decide)]
      exact Effect.slots _ s h rfl _ _ (isResponse_failWord .noPresence (by decide)) (by simp [Slot.pin, State.pinOf])
  | writeBit h b =>
    refine ⟨_, rfl, Effect.onBus _ s h _ fun hu => ?_⟩
    rw [State.ret_eq, writeBit_eq]
    exact Effect.slots _ s h rfl [.write (s.pinOf h) b] _ (isResponse_okWord _) (by simp [Slot.pin, State.pinOf])
  | readBit h =>
    refine ⟨_, rfl, Effect.onBus _ s h _ fun hu => ?_⟩
    rw [readBit_eq]; dsimp only; rw [State.ret_eq]
    exact Effect.slots _ s h rfl [.read (s.pinOf h) _] _ (isResponse_okWord _) (by simp [Slot.pin, State.pinOf])
  | writeByte h v =>
    refine ⟨_, rfl, Effect.onBus _ s h _ fun hu => ?_⟩
    rw [State.ret_eq, writeByte_eq]
    exact Effect.slots _ s h rfl _ _ (isResponse_okWord _) (writeSlots_pin _ _)
  | readByte h =>
    refine ⟨_, rfl, Effect.onBus _ s h _ fun hu => ?_⟩
    rw [readByte_eq _ _ _ (s.wire.byteAt 0) fun k hk => by simpa using Wire.getLsbD_byteAt s.wire 0 k hk]; dsimp only; rw [State.ret_eq]
    exact Effect.slots _ s h rfl _ _ (isResponse_okWord _) (Wire.readSlots_pin _ _ _ _)
  | writeBytes h n =>
    refine ⟨_, rfl, Effect.onBus _ s h _ fun hu => Effect.checkedLength _ s n _ fun hl => ?_⟩
    rw [State.ret_eq, writeByteList_eq]
    exact Effect.slots _ s h rfl _ _ (isResponse_okWord _) (writeSlots_pin _ _)
  | readBytes h n =>
    refine ⟨_, rfl, Effect.onBus _ s h _ fun hu => Effect.checkedLength _ s n _ fun hl => ?_⟩
    rw [readByteList_eq]; dsimp only; rw [State.ret_eq]
    exact Effect.stores _ s h rfl _ _ (isResponse_okWord _) (Wire.readSlots_pin _ _ _ _) _ (fun a ha => by simpa [storesTo] using ha) (fun _ => by simpa using hl)
  | skipRom h =>
    refine ⟨_, rfl, Effect.onBus _ s h _ fun hu => ?_⟩
    rw [State.ret_eq, writeByte_eq]
    exact Effect.slots _ s h rfl _ _ (isResponse_okWord _) (writeSlots_pin _ _)
  | readRom h =>
    refine ⟨_, rfl, Effect.onBus _ s h _ fun hu => ?_⟩
    rw [resetSlot_eq]
    generalize decide (s.wire.answerAt 0 = .low) = pr
    cases pr
    · dsimp only
      rw [State.raise_eq _ _ (by decide)]
      exact Effect.slots _ s h rfl [.reset _ _] _ (isResponse_failWord .noPresence (by decide)) (by simp [Slot.pin, State.pinOf])
    · dsimp only
      rw [writeByte_eq, readByteList_eq]
      have hpl : ∀ ys zs, Wire.play s.timing (Wire.play s.timing (s.wire.playSlot s.timing (.reset (s.pinOf h) true)) ys) zs =
        s.wire.play s.cfg.timing (.reset (s.pinOf h) true :: (ys ++ zs)) := by
        intro ys zs; rw [Wire.play_cons, Wire.play_append]; rfl
      simp only [hpl]
      have hp : ∀ (w : Wire) c, ∀ x ∈ (Slot.reset (s.pinOf h) true :: (writeSlots (s.pinOf h) c ++ w.readSlots (s.pinOf h) 0 (8 * 8))), x.pin = (s.busAt h).pin := by
        intro w c x hx
        simp only [List.mem_cons, List.mem_append] at hx
        rcases hx with rfl | hx | hx
        · rfl
        · exact writeSlots_pin _ _ x hx
        · exact Wire.readSlots_pin _ _ _ _ x hx
      split
      · rw [State.ret_eq]
        exact Effect.stores _ s h rfl _ _ (isResponse_okWord _) (hp _ _) _ (fun a ha => by simpa [storesTo] using ha) (fun _ => by simpa)
      · rw [State.raise_eq _ _ (by decide)]
        exact Effect.slots _ s h rfl _ _ (isResponse_failWord .crcMismatch (by decide)) (hp _ _)
  | matchRom h =>
    refine ⟨_, rfl, Effect.onBus _ s h _ fun hu => ?_⟩
    rw [State.ret_eq, State.matchRom, writeByteList_eq]
    exact Effect.slots _ s h rfl _ _ (isResponse_okWord _) (writeSlots_pin _ _)
  | select h =>
    refine ⟨_, rfl, Effect.onBus _ s h _ fun hu => ?_⟩
    rw [resetSlot_eq]
    generalize decide (s.wire.answerAt 0 = .low) = pr
    cases pr
    · dsimp only
      rw [State.raise_eq _ _ (by decide)]
      exact Effect.slots _ s h rfl [.reset _ _] _ (isResponse_failWord .noPresence (by decide)) (by simp [Slot.pin, State.pinOf])
    · dsimp only
      rw [State.ret_eq, State.matchRom, writeByteList_eq, ← Wire.play_cons]
      refine Effect.slots _ s h rfl (.reset (s.pinOf h) true :: writeSlots (s.pinOf h) (cmdMatchRom :: s.dbufBytes 8)) _ (isResponse_okWord _) ?_
      intro x hx
      rcases List.mem_cons.1 hx with rfl | hx
      · rfl
      · exact writeSlots_pin _ _ x hx
  | search h => refine ⟨_, rfl, Effect.onBus _ s h _ fun hu => ?_⟩; exact Effect.search _ s h cmdSearchRom (.inl rfl) hu
  | alarmSearch h => refine ⟨_, rfl, Effect.onBus _ s h _ fun hu => ?_⟩; exact Effect.search _ s h cmdAlarmSearch (.inr rfl) hu
  | resetSearch h =>
    refine ⟨_, rfl, Effect.onBus _ s h _ fun hu => ?_⟩
    rw [State.ret_eq]
    exact ⟨s.bus.set h (s.busAt h).clearSearch, [], 0, [], _, rfl, isResponse_okWord 0,
      .inr ⟨h, _, .inr (.inr rfl), hu, rfl, rfl, rfl, Bus.clearSearch_inv⟩, by simp, by simp, by simp⟩
  | crc8 n =>
    refine ⟨_, rfl, Effect.checkedLength _ s n _ fun hl => ?_⟩
    rw [State.ret_eq]; exact Effect.only _ s _ (isResponse_okWord _)
  | verify n =>
    refine ⟨_, rfl, Effect.checkedLength _ s n _ fun hl => ?_⟩
    split
    · rw [State.ret_eq]; exact Effect.only _ s _ (isResponse_okWord _)
    · rw [State.raise_eq _ _ (by decide)]; exact Effect.only _ s _ (isResponse_failWord .crcMismatch (by decide))

end Sys2Proof.Machine
end

