-- ==== Sys2Proof/Laws/Pass.lean ====
section
/-! SUPPORT. A search pass from its command on (spec/43_search.md): what its loop's facts mean in the terms of the statements, and
that it depends on nothing but the bits the samples give. -/

namespace Sys2Proof.Machine

open Sys2Proof

/-- The slots with which every pass starts: one reset, then the command byte (43 R161, R162). -/
def passStart (pin : PinId) (c : Byte) : List Slot := .reset pin true :: writeSlots pin [c]

theorem passStart_bitAt (t : Timing) (w : Wire) (pin : PinId) (c : Byte) (k : Nat) :
    (w.play t (passStart pin c)).bitAt k = w.bitAt (1 + k) := by
  rw [Wire.play_bitAt]; simp [passStart, Slot.sampleCount]

theorem passStart_idAt (t : Timing) (w : Wire) (pin : PinId) (c : Byte) (j : Nat) :
    (w.play t (passStart pin c)).bitAt (2 * j) = w.idAt (j + 1) := by
  rw [passStart_bitAt, Wire.idAt]; congr 1; omega
theorem passStart_cmpAt (t : Timing) (w : Wire) (pin : PinId) (c : Byte) (j : Nat) :
    (w.play t (passStart pin c)).bitAt (2 * j + 1) = w.cmpAt (j + 1) := by
  rw [passStart_bitAt, Wire.cmpAt]; congr 1; omega

/-- The start and the positions together are `Wire.passSlots`. -/
theorem passStart_loopSlots (t : Timing) (w : Wire) (pin : PinId) (c : Byte) (r : RomCode) (k : Nat) :
    passStart pin c ++ (w.play t (passStart pin c)).loopSlots pin r 1 k = w.passSlots pin c r k := by
  simp only [passStart, Wire.passSlots, List.cons_append]
  unfold Wire.loopSlots
  congr 2
  refine List.flatMap_congr fun j _ => ?_
  have e1 := passStart_idAt t w pin c j
  have e2 := passStart_cmpAt t w pin c j
  simp only [passStart] at e1 e2
  rw [e1, e2, Wire.positionSlots, Nat.add_comm 1 j]

/-- Either search on a usable handle is `State.search` with its command byte (43 R158, R159). -/
theorem exec_isSearch (s : State) (h : Nat) (i : Instr) (c : Byte) (hi : isSearch i h c) (hu : s.usable h) :
    exec i s = .next (s.search h c) := by
  rcases hi with ⟨rfl, rfl⟩ | ⟨rfl, rfl⟩
  · show Host.Outcome.next (s.onBus h fun s => s.search h cmdSearchRom) = _
    rw [s.onBus_usable h _ hu]; rfl
  · show Host.Outcome.next (s.onBus h fun s => s.search h cmdAlarmSearch) = _
    rw [s.onBus_usable h _ hu]; rfl

/-- With the flag clear and presence, a search runs its loop (43 R160 to R162). -/
theorem exec_isSearch_pass (s : State) (h : Nat) (i : Instr) (c : Byte) (hi : isSearch i h c) (hu : s.usable h)
   (hf : (s.busAt h).lastDeviceFlag = false) (ha : s.wire.answerAt 0 = .low) :
   exec i s = .next (s.endPass h (searchFrom s.timing 64 1 0 (s.busAt h)
        (s.wire.play s.timing (passStart (s.pinOf h) c)))) := by
  rw [exec_isSearch s h i c hi hu]
  rcases s.search_cases h c with ⟨e, _⟩ | ⟨_, e, _⟩ | ⟨_, _, e⟩
  · rw [hf] at e; cases e
  · exact absurd ha e
  · rw [e]; rfl

/-- The bits the loop stores are those of 43 R165's table. -/
theorem resolves_of_dirAt (t : Timing) (w : Wire) (pin : PinId) (c : Byte) (b b' : Bus) (k : Nat)
   (hF : ∀ j, j < k → romBit b'.rom (1 + j) = (w.play t (passStart pin c)).dirAt b (1 + j) j) : resolves b w b'.rom k := by
  intro p h1 h2
  have := hF (p - 1) (by omega)
  rw [show 1 + (p - 1) = p by omega] at this
  rw [this, Wire.dirAt, passStart_idAt, passStart_cmpAt, show p - 1 + 1 = p by omega]

/-- The last of the loop's positions with a property is the highest. -/
theorem highestOr_of_lastOr (P : Nat → Prop) (Q : Nat → Prop) (lim old out : Nat) (hl : lim ≤ 64) (hPQ : ∀ j, j < 64 → (Q j ↔ (P (1 + j) ∧ 1 + j ≤ lim)))
  (hP0 : ¬ P 0) (hlast : lastOr Q 1 64 old out) : highestOr P lim old out := by
  rcases hlast with ⟨j, hj, hq, rfl, hn⟩ | ⟨rfl, hn⟩
  · have := (hPQ j hj).1 hq
    refine .inl ⟨this.1, this.2, fun q h1 h2 hp => ?_⟩
    refine hn (q - 1) (by omega) (by omega) ((hPQ _ (by omega)).2 ?_)
    rw [show 1 + (q - 1) = q by omega]; exact ⟨hp, h2⟩
  · refine .inr ⟨rfl, fun q hq hp => ?_⟩
    cases q with
    | zero => exact hP0 hp
    | succ q => exact hn q (by omega) ((hPQ q (by omega)).2 (by rw [Nat.add_comm 1 q]; exact ⟨hp, hq⟩))

/-- The end of a loop: aborted, or resolved with this `last_zero`. -/
def passEnd (b : Bus) (olz : Option Nat) (w : Wire) : PassEnd :=
  match olz with
  | none => .aborted b w
  | some lz => .resolved b lz w

/-- The loop depends on the wire side only through the bits its samples give: for every wire side that gives the same bits, and
every timing table, it stores the same and plays the same slots. -/
theorem searchFrom_shape (n p lz : Nat) (b : Bus) (w : Wire) : ∃ b' olz slots, b'.pin = b.pin ∧ (∀ x ∈ slots, Slot.pin x = b.pin) ∧ ∀ (t : Timing) (w' : Wire),
    (∀ k, w'.bitAt k = w.bitAt k) → searchFrom t n p lz b w' = passEnd b' olz (w'.play t slots) := by
  induction n generalizing p lz b w with
  | zero => exact ⟨b, some lz, [], rfl, by simp, fun t w' _ => rfl⟩
  | succ n ih =>
    cases hc : chooseDir b p (w.bitAt 0) (w.bitAt 1) with
    | none =>
      refine ⟨b, none, [.read b.pin (w.bitAt 0), .read b.pin (w.bitAt 1)], rfl, by simp [Slot.pin], fun t w' hw => ?_⟩
      have e : (w'.playSlot t (.read b.pin (w.bitAt 0))).bitAt 0 = w.bitAt 1 := by
        rw [← hw 1]; exact Wire.play_bitAt t w' [.read b.pin (w.bitAt 0)] 0
      simp only [searchFrom, readBit_eq, hw 0, e, hc]; rfl
    | some d =>
      obtain ⟨b', olz, slots, hp, hps, hrec⟩ := ih (p + 1) (if zeroTaken (w.bitAt 0) (w.bitAt 1) d then p else lz) (b.advance p (zeroTaken (w.bitAt 0) (w.bitAt 1) d) d)
        (w.play Timing.standard [.read b.pin (w.bitAt 0), .read b.pin (w.bitAt 1), .write b.pin d])
      refine ⟨b', olz, [.read b.pin (w.bitAt 0), .read b.pin (w.bitAt 1), .write b.pin d] ++ slots, hp, ?_, fun t w' hw => ?_⟩
      · intro x hx
        rcases List.mem_append.1 hx with hx | hx
        · simp at hx; rcases hx with rfl | rfl | rfl <;> rfl
        · exact hps x hx
      · have e : (w'.playSlot t (.read b.pin (w.bitAt 0))).bitAt 0 = w.bitAt 1 := by
          rw [← hw 1]; exact Wire.play_bitAt t w' [.read b.pin (w.bitAt 0)] 0
        rw [Wire.play_append]
        have := hrec t (w'.play t [.read b.pin (w.bitAt 0), .read b.pin (w.bitAt 1), .write b.pin d]) (by
          intro k; rw [Wire.position_bitAt, Wire.position_bitAt, hw])
        rw [← this]
        simp only [searchFrom, readBit_eq, hw 0, e, hc, writeBit_eq]; rfl

/-- Two wire sides that differ in their events at most. -/
def sameButEvents (w w' : Wire) : Prop := w' = { w with events := w'.events }

theorem sameButEvents_answer {w w' : Wire} (h : sameButEvents w w') (k : Nat) : w'.answerAt k = w.answerAt k := by rw [h]; rfl
theorem sameButEvents_bit {w w' : Wire} (h : sameButEvents w w') (k : Nat) : w'.bitAt k = w.bitAt k := by rw [h]; rfl

theorem sameButEvents_play (t t' : Timing) (slots slots' : List Slot) (hs : slots.map Slot.pin = slots'.map Slot.pin)
   (hc : slots.map Slot.sampleCount = slots'.map Slot.sampleCount) (w w' : Wire) (h : sameButEvents w w') : sameButEvents (w.play t slots) (w'.play t' slots') := by
  induction slots generalizing w w' slots' with
  | nil => cases slots' with
    | nil => exact h
    | cons => simp at hs
  | cons x xs ih => cases slots' with
    | nil => simp at hs
    | cons y ys =>
      simp only [List.map_cons, List.cons.injEq] at hs hc
      rw [Wire.play_cons, Wire.play_cons]
      refine ih ys hs.2 hc.2 _ _ ?_
      rw [h]
      simp [sameButEvents, Wire.playSlot, hs.1, hc.1]

/-- The same slots under two timing tables leave traces that differ in `Delay` arguments at most (00 R13). -/
theorem trace_withoutTime_play (t t' : Timing) (slots : List Slot) (w w' : Wire) (h : w'.trace.map Event.withoutTime = w.trace.map Event.withoutTime) :
   (w'.play t' slots).trace.map Event.withoutTime = (w.play t slots).trace.map Event.withoutTime := by
  rw [Wire.play_trace, Wire.play_trace, List.map_append, List.map_append, h]
  congr 1
  simp only [List.map_flatMap]
  refine List.flatMap_congr fun x _ => ?_
  cases x <;> simp [slotEvents, Event.withoutTime]

/-- The events of two sequences of slots are the same only if the slots are, where the write-1 and write-0
low times differ (20 R65). -/
theorem slotEvents_injective (t : Timing) (hne : t.tW1l ≠ t.tW0l) (xs ys : List Slot)
    (h : xs.flatMap (slotEvents t) = ys.flatMap (slotEvents t)) : xs = ys := by
  induction xs generalizing ys with
  | nil =>
    cases ys with
    | nil => rfl
    | cons y ys => cases y <;> simp [slotEvents] at h
  | cons x xs ih =>
    cases ys with
    | nil => cases x <;> simp [slotEvents] at h
    | cons y ys =>
      have hlvl : ∀ a b, presenceLevel a = presenceLevel b → a = b := by decide
      have hbit : ∀ a b, bitLevel a = bitLevel b → a = b := by decide
      cases x <;> cases y <;>
        simp only [List.flatMap_cons, slotEvents, List.cons_append, List.nil_append, List.cons.injEq, reduceCtorEq, false_and, and_false,
          Event.driveLow.injEq, Event.release.injEq, Event.sample.injEq, Event.delay.injEq, true_and] at h
      · obtain ⟨rfl, _, ⟨_, e⟩, h⟩ := h
        rw [hlvl _ _ e, ih _ h]
      · rename_i b _ b'
        obtain ⟨rfl, e, _, _, h⟩ := h
        have : b = b' := by cases b <;> cases b' <;> simp_all
        rw [this, ih _ h]
      · obtain ⟨rfl, _, ⟨_, e⟩, h⟩ := h
        rw [hbit _ _ e, ih _ h]

end Sys2Proof.Machine
end

