-- ==== Sys2Proof/Laws/PerInstr.lean ====
section
/-! SUPPORT. Statements made for every instruction as syntax, one lemma per constructor (LAWS.json `per_instruction`). -/

namespace Sys2Proof.Laws.UsedBits

open Sys2Proof

/-- An encoding carries no bit outside the bits its operation uses (30 R99: unused fields 0), and its opcode field is the table's
opcode (30 R86). -/
def Statement (i : Instr) : Prop := encode i &&& i.usedMask = encode i ∧ fieldOp (encode i) = i.opcode

/-- A word with nothing above bit `k` of its `arg` and with the whole `a` field used. -/
theorem of_arg (i : Instr) (hm : ∀ n, n < 32 → 16 ≤ n → i.usedMask.getLsbD n = true)
    (ha : ∀ n, n < 16 → i.usedMask.getLsbD n = false → i.argField.getLsbD n = false) : Statement i := by
  refine ⟨?_, fieldOp_encode i⟩
  apply BitVec.eq_of_getLsbD_eq
  intro n hn
  rw [BitVec.getLsbD_and]
  by_cases h16 : 16 ≤ n
  · rw [hm n hn h16, Bool.and_true]
  · rw [getLsbD_encode_low i n (by omega)]
    cases hu : i.usedMask.getLsbD n with
    | true => simp
    | false => simp [ha n (by omega) hu]

/-- A word with no `a` field and the whole `arg` field used. -/
theorem of_len (i : Instr) (hm : ∀ n, n < 32 → (n < 16 ∨ 24 ≤ n) → i.usedMask.getLsbD n = true) (ha : i.aField = 0) :
    Statement i := by
  refine ⟨?_, fieldOp_encode i⟩
  apply BitVec.eq_of_getLsbD_eq
  intro n hn
  rw [BitVec.getLsbD_and]
  by_cases h : n < 16 ∨ 24 ≤ n
  · rw [hm n hn h, Bool.and_true]
  · rw [getLsbD_encode_mid i n (by omega) (by omega), ha]
    simp

/-- The shape of an operation whose `arg` field is 0. -/
theorem of_no_arg (i : Instr) (hm : ∀ n, n < 32 → 16 ≤ n → i.usedMask.getLsbD n = true) (ha : i.argField = 0) : Statement i :=
  of_arg i hm fun n _ _ => by simp [ha]

theorem byteArg (byte : Byte) : ∀ n, n < 16 → (0xFFFF00FF#32).getLsbD n = false → (byte.setWidth 16).getLsbD n = false := by
  intro n hn hu
  have : 8 ≤ n := by
    by_contra h
    have : ∀ n, n < 8 → (0xFFFF00FF#32).getLsbD n = true := by decide
    rw [this n (by omega)] at hu
    exact absurd hu (by decide)
  rw [BitVec.getLsbD_setWidth, BitVec.getLsbD_of_ge _ _ this, Bool.and_false]

theorem romIndexArg (i : Fin 8) : ∀ n, n < 16 → (0xFFFF0007#32).getLsbD n = false → (BitVec.ofNat 16 i.val).getLsbD n = false := by
  revert i
  decide

theorem bitArg (bit : Bool) :
    ∀ n, n < 16 → (0xFFFF0001#32).getLsbD n = false → ((BitVec.ofBool bit).setWidth 16).getLsbD n = false := by
  revert bit
  decide

theorem lenArg (v : Half) : ∀ n, n < 16 → (0xFFFFFFFF#32).getLsbD n = false → v.getLsbD n = false := by
  intro n hn hu
  have : ∀ n, n < 16 → (0xFFFFFFFF#32).getLsbD n = true := by decide
  rw [this n hn] at hu
  exact absurd hu (by decide)

theorem acquire (pin : PinId) : Statement (.acquire pin) := of_no_arg _ (by simp only [Instr.usedMask]; decide) rfl
theorem lookup (pin : PinId) : Statement (.lookup pin) := of_no_arg _ (by simp only [Instr.usedMask]; decide) rfl
theorem bufWr (idx : Nat) (byte : Byte) : Statement (.bufWr idx byte) := of_arg _ (by simp only [Instr.usedMask]; decide) (byteArg byte)
theorem bufRd (idx : Nat) : Statement (.bufRd idx) := of_no_arg _ (by simp only [Instr.usedMask]; decide) rfl
theorem rdState (h : Nat) : Statement (.rdState h) := of_no_arg _ (by simp only [Instr.usedMask]; decide) rfl
theorem rdRom (h : Nat) (i : Fin 8) : Statement (.rdRom h i) := of_arg _ (by simp only [Instr.usedMask]; decide) (romIndexArg i)
theorem reset (h : Nat) : Statement (.reset h) := of_no_arg _ (by simp only [Instr.usedMask]; decide) rfl
theorem writeBit (h : Nat) (bit : Bool) : Statement (.writeBit h bit) := of_arg _ (by simp only [Instr.usedMask]; decide) (bitArg bit)
theorem readBit (h : Nat) : Statement (.readBit h) := of_no_arg _ (by simp only [Instr.usedMask]; decide) rfl
theorem writeByte (h : Nat) (byte : Byte) : Statement (.writeByte h byte) := of_arg _ (by simp only [Instr.usedMask]; decide) (byteArg byte)
theorem readByte (h : Nat) : Statement (.readByte h) := of_no_arg _ (by simp only [Instr.usedMask]; decide) rfl
theorem writeBytes (h : Nat) (len : Nat) : Statement (.writeBytes h len) := of_arg _ (by simp only [Instr.usedMask]; decide) (lenArg _)
theorem readBytes (h : Nat) (len : Nat) : Statement (.readBytes h len) := of_arg _ (by simp only [Instr.usedMask]; decide) (lenArg _)
theorem skipRom (h : Nat) : Statement (.skipRom h) := of_no_arg _ (by simp only [Instr.usedMask]; decide) rfl
theorem readRom (h : Nat) : Statement (.readRom h) := of_no_arg _ (by simp only [Instr.usedMask]; decide) rfl
theorem matchRom (h : Nat) : Statement (.matchRom h) := of_no_arg _ (by simp only [Instr.usedMask]; decide) rfl
theorem select (h : Nat) : Statement (.select h) := of_no_arg _ (by simp only [Instr.usedMask]; decide) rfl
theorem search (h : Nat) : Statement (.search h) := of_no_arg _ (by simp only [Instr.usedMask]; decide) rfl
theorem alarmSearch (h : Nat) : Statement (.alarmSearch h) := of_no_arg _ (by simp only [Instr.usedMask]; decide) rfl
theorem resetSearch (h : Nat) : Statement (.resetSearch h) := of_no_arg _ (by simp only [Instr.usedMask]; decide) rfl
theorem crc8 (len : Nat) : Statement (.crc8 len) := of_len _ (by simp only [Instr.usedMask]; decide) rfl
theorem verify (len : Nat) : Statement (.verify len) := of_len _ (by simp only [Instr.usedMask]; decide) rfl

end Sys2Proof.Laws.UsedBits
end

