-- ==== Sys2Proof/Laws/RefLine.lean ====
section
/-! SUPPORT. The reference lines (spec/20_memory.md R66 to R76): no slot changes a device's ROM code or alarm flag, so every slot
keeps a line legal; a slot changes only its own pin's line; and a search reaches exactly the devices that answer its byte. -/

namespace Sys2Proof.Machine

open Sys2Proof

/-! ### A device keeps its ROM code and its alarm flag (20 R66: "fixed") -/

@[simp] theorem Device.afterReset_rom (d : Device) : d.afterReset.rom = d.rom := rfl
@[simp] theorem Device.afterReset_alarm (d : Device) : d.afterReset.alarm = d.alarm := rfl
@[simp] theorem Device.afterWrite_rom (d : Device) (b : Bool) : (d.afterWrite b).rom = d.rom := by
  unfold Device.afterWrite; repeat' split
  all_goals rfl
@[simp] theorem Device.afterWrite_alarm (d : Device) (b : Bool) : (d.afterWrite b).alarm = d.alarm := by
  unfold Device.afterWrite; repeat' split
  all_goals rfl
@[simp] theorem Device.afterRead_rom (d : Device) : d.afterRead.rom = d.rom := by
  unfold Device.afterRead; split <;> rfl
@[simp] theorem Device.afterRead_alarm (d : Device) : d.afterRead.alarm = d.alarm := by
  unfold Device.afterRead; split <;> rfl

/-! ### A line keeps its devices -/

/-- A slot changes nothing of a line's devices but their modes (20 R66, R75: "its device set does not change"). -/
theorem Line.after_deviceList (l : Line) (slot : Slot) :
    (l.after slot).deviceList.map (fun d => (d.rom, d.alarm)) = l.deviceList.map fun d => (d.rom, d.alarm) := by
  cases l <;> cases slot <;> simp [Line.after, Line.deviceList, Function.comp_def]

theorem Line.after_roms (l : Line) (slot : Slot) :
    (l.after slot).deviceList.map Device.rom = l.deviceList.map Device.rom := by
  simpa [Function.comp_def] using congrArg (List.map Prod.fst) (l.after_deviceList slot)

/-- Legality is a property of the ROM codes alone. -/
theorem Line.legal_iff_roms (l : Line) : l.legal ↔
    (∀ r ∈ l.deviceList.map Device.rom, romCrc r = 0 ∧ romByte r 0 ≠ 0) ∧ (l.deviceList.map Device.rom).Nodup := by
  simp [Line.legal, Device.valid]

/-- Every slot keeps a line legal (20 R66). -/
theorem Line.after_legal (l : Line) (slot : Slot) : (l.after slot).legal ↔ l.legal := by
  rw [Line.legal_iff_roms, Line.legal_iff_roms, Line.after_roms]

/-! ### The lines of all pins (20 R76) -/

@[simp] theorem Lines.after_same (ls : Lines) (slot : Slot) : ls.after slot slot.pin = (ls slot.pin).after slot := if_pos rfl

/-- A slot leaves the line of every other pin as it is (20 R76). -/
theorem Lines.after_other (ls : Lines) (slot : Slot) (pin : PinId) (h : pin ≠ slot.pin) : ls.after slot pin = ls pin := if_neg h

/-- The slots of an operation on one bus are answered by that bus's line alone. -/
theorem Lines.agrees_of_pin (ls : Lines) (pin : PinId) (slots : List Slot) (h : ∀ slot ∈ slots, slot.pin = pin) :
    ls.agrees slots = (ls pin).agrees slots := by
  induction slots generalizing ls with
  | nil => rfl
  | cons x xs ih =>
    have hx : x.pin = pin := h x (by simp)
    subst hx
    rw [Lines.agrees, Line.agrees, ih _ fun y hy => h y (by simp [hy]), Lines.after_same]

/-- ... and change that line alone. -/
theorem Lines.afterAll_of_pin (ls : Lines) (pin : PinId) (slots : List Slot) (h : ∀ slot ∈ slots, slot.pin = pin) :
    ls.afterAll slots pin = (ls pin).afterAll slots := by
  induction slots generalizing ls with
  | nil => rfl
  | cons x xs ih =>
    have hx : x.pin = pin := h x (by simp)
    subst hx
    exact (ih (ls.after x) fun y hy => h y (by simp [hy])).trans (by rw [Lines.after_same]; rfl)

/-! ### Searching a line -/

/-- `answersSearch` names the devices that the two search bytes put into the search (20 R68). -/
theorem Device.commandMode_search (d : Device) (cmdByte : Byte) :
    d.commandMode cmdByte = .search 1 .trueBit ↔ d.answersSearch cmdByte = true := by
  unfold Device.commandMode Device.answersSearch
  split
  · simp_all
  · split
    · cases d.alarm <;> simp_all
    · simp_all; repeat' split
      all_goals simp

end Sys2Proof.Machine
end

