-- ==== Sys2Proof/Machine/Asm.lean ====
section
/-! DEFINITION. The assembler notation of spec/30_encoding.md R99 and the pseudo-instructions of R100 ("for the programs of
`95_test_vectors.md`" only; no operation uses them). -/

namespace Sys2Proof.Machine

open Sys2Proof

/-- The mnemonic of an operation (30 R86). -/
def mnemonic : Instr → String
  | .acquire _ => "ACQUIRE"
  | .lookup _ => "LOOKUP"
  | .bufWr _ _ => "BUF_WR"
  | .bufRd _ => "BUF_RD"
  | .rdState _ => "RD_STATE"
  | .rdRom _ _ => "RD_ROM"
  | .reset _ => "RESET"
  | .writeBit _ _ => "WRITE_BIT"
  | .readBit _ => "READ_BIT"
  | .writeByte _ _ => "WRITE_BYTE"
  | .readByte _ => "READ_BYTE"
  | .writeBytes _ _ => "WRITE_BYTES"
  | .readBytes _ _ => "READ_BYTES"
  | .skipRom _ => "SKIP_ROM"
  | .readRom _ => "READ_ROM"
  | .matchRom _ => "MATCH_ROM"
  | .select _ => "SELECT"
  | .search _ => "SEARCH"
  | .alarmSearch _ => "ALARM_SEARCH"
  | .resetSearch _ => "RESET_SEARCH"
  | .crc8 _ => "CRC8"
  | .verify _ => "VERIFY"

/-- The operands of an operation in 30 R86's order. -/
def asmOperands : Instr → List Nat
  | .acquire pin => [pin.toNat]
  | .lookup pin => [pin.toNat]
  | .bufWr idx byte => [idx, byte.toNat]
  | .bufRd idx => [idx]
  | .rdState h => [h]
  | .rdRom h i => [h, i.val]
  | .reset h => [h]
  | .writeBit h bit => [h, bit.toNat]
  | .readBit h => [h]
  | .writeByte h byte => [h, byte.toNat]
  | .readByte h => [h]
  | .writeBytes h len => [h, len]
  | .readBytes h len => [h, len]
  | .skipRom h => [h]
  | .readRom h => [h]
  | .matchRom h => [h]
  | .select h => [h]
  | .search h => [h]
  | .alarmSearch h => [h]
  | .resetSearch h => [h]
  | .crc8 len => [len]
  | .verify len => [len]

/-- One line of assembler: `MNEMONIC operand, operand`, numbers in decimal (30 R99). -/
def asmLine (i : Instr) : String := mnemonic i ++ " " ++ ", ".intercalate ((asmOperands i).map toString)

/-- `LDADDR b0, ..., b7`: eight BUF_WR, ascending index (30 R100). -/
def ldaddr (bs : List Byte) : List Instr := (List.range 8).map fun k => .bufWr k (bs.getD k 0)

/-- `RDADDR`: eight BUF_RD, ascending index (30 R100). -/
def rdaddr : List Instr := (List.range 8).map fun k => .bufRd k

end Sys2Proof.Machine
end

