-- ==== Sys2Proof/Tests/Slice0.lean ====
section
/-! SUPPORT. Tests: ill-formed terms each check refuses, words written out from the spec's encoding, one step per test with the
result the spec's vectors (spec/95_test_vectors.md, cited V<n>) or rules give, and for each statement a witness that meets its
hypotheses. -/

namespace Sys2Proof.Tests

open Sys2Proof Sys2Proof.Machine

/-! ### Helpers -/

/-- The next state, if the outcome is one. -/
def nextOf : Host.Outcome State Fault Refusal → Option State
  | .next t => some t
  | .fault _ => none
  | .refused _ => none

/-- The response of an operation that answers a next state. -/
def rspOf (i : Instr) (s : State) : Option Word := (nextOf (exec i s)).map State.rsp

/-- The events an operation adds. -/
def addedBy (i : Instr) (s : State) : Option (List Event) :=
  (nextOf (exec i s)).map fun t => t.wire.trace.drop s.wire.trace.length

/-- Two buses of which one is acquired on pin 5, `L_BUF = 16`, the vectors' configuration; the line gives these answers. -/
def bed (b : Bus) (answers : List Level) : State :=
  { cfg := Config.vectors, count := 1, bus := [b, Bus.free], dbuf := [], cmd := 0, rsp := 0, busy := false, rspValid := false,
    wire := Wire.idle answers 0, host := [], epoch := 0 }

/-- Bus 0 fresh on pin 5. -/
def fresh : Bus := Bus.acquired 5

/-- The bed with bytes in DBUF from index 0 on. -/
def loaded (vs : List Byte) : State := (bed fresh []).dbufStoreList vs

/-- Nothing acquired yet. -/
def empty : State := { bed Bus.free [] with count := 0 }

/-- Both buses taken, by pins 5 and 9. -/
def full : State := { bed fresh [] with count := 2, bus := [fresh, Bus.acquired 9] }

/-- The levels read slots see for these bits. -/
def levels (bits : List Bool) : List Level := bits.map bitLevel

/-- The bits of a byte sequence in wire order, from the bytes' numbers (20 R50). -/
def bitsOf (ns : List Nat) : List Bool := ns.flatMap fun n => (List.range 8).map fun k => n.testBit k

/-- Presence, then the pair of samples of every search position. -/
def passAnswers (pairs : List (Bool × Bool)) : List Level := .low :: pairs.flatMap fun p => [bitLevel p.1, bitLevel p.2]

/-- The pairs of samples a single device gives (20 R69). -/
def alone (ns : List Nat) : List (Bool × Bool) := (bitsOf ns).map fun b => (b, !b)

/-- Devices A, B and C of V40. -/
def romA : List Nat := [0x28, 0x01, 0, 0, 0, 0, 0, 0x29]
def romB : List Nat := [0x28, 0x02, 0, 0, 0, 0, 0, 0x70]
def romC : List Nat := [0x10, 0x01, 0, 0, 0, 0, 0, 0xCC]

/-- The 64-bit number of eight bytes, byte 0 least significant (20 R51). -/
def codeOf (ns : List Nat) : RomCode := BitVec.ofNat 64 (ns.foldr (fun n acc => n + 256 * acc) 0)

/-- The slot after pass 1 of V40: C found, `ld = 4`, `lfd = 4`. -/
def afterC : Bus := { fresh with rom := codeOf romC, lastDiscrepancy := 4, lastFamilyDiscrepancy := 4 }

/-- The answers of V40 pass 1: C's bits, but both 0 at position 4. -/
def pass1 : List Level := passAnswers ((alone romC).set 3 (false, false))

/-- The answers of V40 pass 2: B's bits, but both 0 at positions 4 and 9. -/
def pass2 : List Level := passAnswers (((alone romB).set 3 (false, false)).set 8 (false, false))

/-! ### WellFormed: each check refuses an ill-formed term -/

theorem test_wf_handle : (Instr.reset 256).wf = false ∧ (Instr.reset 255).wf = true := by decide
theorem test_wf_index : (Instr.bufWr 256 0).wf = false ∧ (Instr.bufRd 256).wf = false ∧ (Instr.bufRd 255).wf = true := by decide
theorem test_wf_length : (Instr.writeBytes 0 65536).wf = false ∧ (Instr.crc8 65536).wf = false ∧ (Instr.crc8 65535).wf = true := by
  decide
theorem test_wf_config : ¬ Config.sized { Config.vectors with nBus := 0 } ∧ ¬ Config.sized { Config.vectors with nBus := 257 } ∧
    ¬ Config.sized { Config.vectors with lBuf := 7 } ∧ ¬ Config.sized { Config.vectors with lBuf := 257 } ∧
    Config.wf Config.vectors := by decide
theorem test_wf_timing_fits : ∀ t ∈ [{ Timing.standard with tRstl := 65536 }, { Timing.standard with tPds := 65536 },
    { Timing.standard with tRsth := 65536 }, { Timing.standard with tRec := 65536 }, { Timing.standard with tSlot := 65536 }],
    ¬ t.wf := by decide
theorem test_wf_timing_order : ∀ t ∈ [{ Timing.standard with tW1l := 71, tW0l := 72 }, { Timing.standard with tW0l := 71 },
    { Timing.standard with tRdl := 62 }, { Timing.standard with tRds := 65 }, { Timing.standard with tW1l := 60 }], ¬ t.wf := by
  decide

/-! ### Decode: words written out as `op`, `a`, `arg` from 30 R83 to R86 -/

theorem test_decode_registry : decode 0b00000001_00000101_0000000000000000 = .instr (.acquire 5) ∧
    decode 0b00000010_00001001_0000000000000000 = .instr (.lookup 9) ∧ decode 0x02FFFFFF = .instr (.lookup 255) := by decide
theorem test_decode_buffer : decode 0b00000011_00001111_0000000011111111 = .instr (.bufWr 15 0xFF) ∧
    decode 0x0300AB28 = .instr (.bufWr 0 0x28) ∧ decode 0b00000100_00010000_0000000000000000 = .instr (.bufRd 16) := by decide
theorem test_decode_readback : decode 0b00000101_00000010_0000000000000000 = .instr (.rdState 2) ∧
    decode 0b00000110_00000001_0000000000000111 = .instr (.rdRom 1 7) ∧ decode 0x0600000F = .instr (.rdRom 0 7) := by decide
theorem test_decode_bits : decode 0b00010000_00000010_0000000000000000 = .instr (.reset 2) ∧
    decode 0b00010001_00000000_0000000000000001 = .instr (.writeBit 0 true) ∧ decode 0x1100FFFE = .instr (.writeBit 0 false) ∧
    decode 0b00010010_00000001_0000000000000000 = .instr (.readBit 1) := by decide
theorem test_decode_bytes : decode 0b00010011_00000001_0000000010100101 = .instr (.writeByte 1 0xA5) ∧
    decode 0x1300AB44 = .instr (.writeByte 0 0x44) ∧ decode 0b00010100_00000011_0000000000000000 = .instr (.readByte 3) := by decide
theorem test_decode_runs : decode 0b00010101_00000010_0000000000010001 = .instr (.writeBytes 2 17) ∧
    decode 0b00010110_00000000_0000000100000011 = .instr (.readBytes 0 259) := by decide
theorem test_decode_rom : decode 0b00100000_00000001_0000000000000000 = .instr (.skipRom 1) ∧
    decode 0b00100001_00000001_0000000000000000 = .instr (.readRom 1) ∧
    decode 0b00100010_00000001_0000000000000000 = .instr (.matchRom 1) ∧
    decode 0b00100011_00000001_0000000000000000 = .instr (.select 1) := by decide
theorem test_decode_search : decode 0b00110000_00000001_0000000000000000 = .instr (.search 1) ∧
    decode 0b00110001_00000001_0000000000000000 = .instr (.alarmSearch 1) ∧
    decode 0b00110010_00000001_0000000000000000 = .instr (.resetSearch 1) := by decide
theorem test_decode_crc : decode 0b01000000_00000000_0000000000000111 = .instr (.crc8 7) ∧ decode 0x40FF0007 = .instr (.crc8 7) ∧
    decode 0b01000001_00000000_0000000100000000 = .instr (.verify 256) := by decide
/-- V70, each refused by the name of its opcode. -/
theorem test_decode_reserved : decode 0x00000000 = .reserved 0x00 ∧ decode 0x07000000 = .reserved 0x07 ∧
    decode 0x0F123456 = .reserved 0x0F ∧ decode 0x17000000 = .reserved 0x17 ∧ decode 0x24000000 = .reserved 0x24 ∧
    decode 0x33000000 = .reserved 0x33 ∧ decode 0x42000000 = .reserved 0x42 ∧ decode 0xFFFFFFFF = .reserved 0xFF := by decide
theorem test_encode_words : encode (.bufWr 15 0xFF) = 0x030F00FF ∧ encode (.writeBytes 2 17) = 0x15020011 ∧
    encode (.crc8 7) = 0x40000007 ∧ encode (.rdRom 0 7) = 0x06000007 := by decide
theorem test_decodeTableWord : decodeTableWord 32 0x13000044 = some (.writeByte 0 0x44) ∧ decodeTableWord 32 0x07000000 = none ∧
    decodeTableWord 40 0x0113000044 = none := by decide
theorem test_withFetchWord :
    (nextOf (step (empty.withFetchWord 32 0x01070000))).map (fun t => (t.rsp, t.count)) = some (0x80000000, 1) := by decide
/-- 30 R99, R100: an assembly line. -/
theorem test_asm : asmLine (.writeByte 0 0x44) = "WRITE_BYTE 0, 68" := by decide

/-! ### One step of each operation -/

theorem test_acquire_existing : rspOf (.acquire 9) full = some 0x80000001 ∧ rspOf (.acquire 7) full = some 0x01000000 := by
  decide -- V1
theorem test_acquire_new : (nextOf (exec (.acquire 9) (bed fresh []))).map (fun t => (t.rsp, t.count, t.busAt 1, t.wire.trace)) =
    some (0x80000001, 2, Bus.acquired 9, [.release 9]) := by decide -- V1
theorem test_lookup : rspOf (.lookup 9) full = some 0x80000001 ∧ rspOf (.lookup 7) full = some 0x08000000 := by decide -- V1
theorem test_lookup_free_slot : rspOf (.lookup 0) empty = some 0x08000000 := by decide -- V2
theorem test_bufWr : (nextOf (exec (.bufWr 15 0xFF) (bed fresh []))).map (fun t => (t.rsp, t.dbuf)) =
    some (0x80000000, [(15, 0xFF)]) := by decide -- V4
theorem test_bufWr_range : rspOf (.bufWr 16 1) (bed fresh []) = some 0x07000000 := by decide -- V4
theorem test_bufRd : rspOf (.bufRd 0) (loaded [0x28]) = some 0x80000028 ∧ rspOf (.bufRd 16) (bed fresh []) = some 0x07000000 := by
  decide -- V4
theorem test_rdState : rspOf (.rdState 0) (bed { fresh with lastDiscrepancy := 64, lastFamilyDiscrepancy := 8 } []) =
    some 0x80000440 ∧ rspOf (.rdState 0) (bed { fresh with lastFamilyDiscrepancy := 4, lastDeviceFlag := true } []) =
    some 0x80000A00 := by decide -- V6
theorem test_rdState_guard : rspOf (.rdState 1) (bed fresh []) = some 0x03000000 ∧
    rspOf (.rdState 2) (bed fresh []) = some 0x02000000 ∧ rspOf (.rdState 255) (bed fresh []) = some 0x02000000 := by decide -- V5
theorem test_rdRom : rspOf (.rdRom 0 7) (bed afterC []) = some 0x800000CC ∧ rspOf (.rdRom 0 0) (bed afterC []) = some 0x80000010 := by
  decide -- 40 R117
theorem test_reset_presence : addedBy (.reset 0) (bed fresh [.low]) = some [.critEnter, .driveLow 5, .delay 480, .release 5,
    .delay 70, .sample 5 .low, .critLeave, .delay 410] ∧ rspOf (.reset 0) (bed fresh [.low]) = some 0x80000001 ∧
    ((slotEvents Timing.standard (.reset 5 true)).flatMap Event.calls).length = 9 := by decide -- V10; 20 R53: nine calls (log 22)
theorem test_reset_empty : rspOf (.reset 0) (bed fresh [.high]) = some 0x04000000 := by decide -- V11
theorem test_writeBit_one : addedBy (.writeBit 0 true) (bed fresh []) = some [.critEnter, .driveLow 5, .delay 6, .release 5,
    .delay 64, .delay 1, .critLeave] := by decide -- V13
theorem test_writeBit_saturates : addedBy (.writeBit 0 false) { bed fresh [] with cfg := { Config.vectors with timing :=
    { Timing.standard with tSlot := 50 } } } = some [.critEnter, .driveLow 5, .delay 60, .release 5, .delay 0, .delay 1, .critLeave] := by
  decide -- V14
theorem test_readBit : addedBy (.readBit 0) (bed fresh [.high]) = some [.critEnter, .driveLow 5, .delay 6, .release 5, .delay 9,
    .sample 5 .high, .delay 55, .critLeave] ∧ rspOf (.readBit 0) (bed fresh [.high]) = some 0x80000001 := by decide -- V15
theorem test_readBit_low : rspOf (.readBit 0) (bed fresh [.low]) = some 0x80000000 ∧
    rspOf (.readBit 1) (bed fresh []) = some 0x03000000 := by decide -- V15
theorem test_writeByte : addedBy (.writeByte 0 0x44) (bed fresh []) =
    some (([false, false, true, false, false, false, true, false].map fun b => Slot.write 5 b).flatMap
      (slotEvents Timing.standard)) := by decide -- V16
theorem test_readByte : rspOf (.readByte 0) (bed fresh (levels [false, false, false, true, false, true, false, false])) =
    some 0x80000028 ∧ rspOf (.readByte 0) (bed fresh (levels [true, false, false, false, false, false, false, false])) =
    some 0x80000001 := by decide -- V17
theorem test_writeBytes : addedBy (.writeBytes 0 2) (loaded [0x55, 0x28]) =
    some (([true, false, true, false, true, false, true, false, false, false, false, true, false, true, false, false].map
      fun b => Slot.write 5 b).flatMap (slotEvents Timing.standard)) := by decide -- V20
theorem test_writeBytes_checks : rspOf (.writeBytes 0 17) (bed fresh []) = some 0x07000000 ∧
    rspOf (.writeBytes 2 17) (bed fresh []) = some 0x02000000 ∧ rspOf (.writeBytes 1 17) (bed fresh []) = some 0x03000000 ∧
    addedBy (.writeBytes 0 0) (bed fresh []) = some [] := by decide -- V20, V71
theorem test_readBytes : (nextOf (exec (.readBytes 0 2) (bed fresh (levels (bitsOf [0x28, 0x01]))))).map (fun t => (t.rsp, t.dbuf)) =
    some (0x80000000, [(0, 0x28), (1, 0x01)]) := by decide -- V22
theorem test_readBytes_checks : rspOf (.readBytes 0 17) (bed fresh []) = some 0x07000000 := by decide -- V21
theorem test_skipRom : addedBy (.skipRom 0) (bed fresh []) =
    some (([false, false, true, true, false, false, true, true].map fun b => Slot.write 5 b).flatMap
      (slotEvents Timing.standard)) := by decide -- V30
theorem test_readRom : (nextOf (exec (.readRom 0) (bed fresh (.low :: levels (bitsOf romA))))).map
    (fun t => (t.rsp, t.dbufBytes 8, (t.busAt 0).rom)) = some (0x80000000, [0x28, 1, 0, 0, 0, 0, 0, 0x29], 0) := by
  decide +kernel -- V31
theorem test_readRom_ones : (nextOf (exec (.readRom 0) (bed fresh (.low :: levels (List.replicate 64 true))))).map
    (fun t => (t.rsp, t.dbuf)) = some (0x06000000, []) := by decide +kernel -- V32
theorem test_matchRom : addedBy (.matchRom 0) (loaded [0x28, 2, 0, 0, 0, 0, 0, 0x70]) =
    some (((bitsOf [0x55, 0x28, 2, 0, 0, 0, 0, 0, 0x70]).map fun b => Slot.write 5 b).flatMap (slotEvents Timing.standard)) := by
  decide +kernel -- V35
theorem test_select_empty : rspOf (.select 0) (bed fresh [.high]) = some 0x04000000 ∧
    (addedBy (.select 0) (bed fresh [.high])).map List.length = some 8 := by decide -- V34
theorem test_select : (addedBy (.select 0) { loaded [0x28, 2, 0, 0, 0, 0, 0, 0x70] with wire := Wire.idle [.low] 0 }).map
    delayTotal = some 6072 := by decide +kernel -- V34
/-- V40 passes 1 and 2, and V53's time. -/
theorem test_search : (nextOf (exec (.search 0) (bed fresh pass1))).map (fun t => (t.rsp, t.busAt 0, t.dbufBytes 8)) =
    some (0x80000000, afterC, [0x10, 1, 0, 0, 0, 0, 0, 0xCC]) ∧
    (nextOf (exec (.search 0) (bed afterC pass2))).map (fun t => (t.busAt 0, delayTotal t.wire.trace)) =
    some ({ fresh with rom := codeOf romB, lastDiscrepancy := 9, lastFamilyDiscrepancy := 4 }, 15032) := by decide +kernel
/-- V48 (stuck-low line) and V49 (a wrong CRC). -/
theorem test_search_fails : (nextOf (exec (.search 0) (bed fresh (List.replicate 129 .low)))).map
    (fun t => (t.rsp, t.busAt 0, t.dbuf)) = some (0x0A000000, fresh, []) ∧
    (nextOf (exec (.search 0) (bed fresh (passAnswers (alone [0x28, 1, 0, 0, 0, 0, 0, 0xA9]))))).map
    (fun t => (t.rsp, t.busAt 0)) = some (0x06000000, fresh) := by decide +kernel
theorem test_alarmSearch_abort : rspOf (.alarmSearch 0) (bed fresh [.low, .high, .high]) = some 0x05000000 ∧
    (addedBy (.alarmSearch 0) (bed fresh [.low, .high, .high])).map List.length = some 80 := by decide -- V44
theorem test_alarmSearch : (nextOf (exec (.alarmSearch 0) (bed fresh (passAnswers (alone romB))))).map
    (fun t => (t.rsp, (t.busAt 0).rom, (t.busAt 0).lastDeviceFlag)) = some (0x80000000, codeOf romB, true) := by
  decide +kernel -- V46
theorem test_resetSearch : (nextOf (exec (.resetSearch 0) (bed afterC []))).map (fun t => (t.rsp, t.busAt 0, t.wire.trace)) =
    some (0x80000000, fresh, []) := by decide -- V47
theorem test_crc8 : rspOf (.crc8 7) (loaded [0x02, 0x1C, 0xB8, 1, 0, 0, 0, 0xA2]) = some 0x800000A2 ∧
    rspOf (.crc8 17) (bed fresh []) = some 0x07000000 := by decide +kernel -- V64
theorem test_verify : rspOf (.verify 8) (loaded [0x02, 0x1C, 0xB8, 1, 0, 0, 0, 0xA2]) = some 0x80000000 ∧
    rspOf (.verify 7) (loaded [0x02, 0x1C, 0xB8, 1, 0, 0, 0, 0xA2]) = some 0x06000000 := by decide +kernel -- V64
theorem test_crc8_values : crc8 [0x01, 0x02] = 0x78 ∧ crc8 (List.replicate 8 0xFF) = 0xC9 ∧
    crc8 [0x28, 0xFF, 0x4B, 0x46, 0x92, 0x16, 0x04] = 0x78 ∧ crc8 [0x10, 0x50, 0xA9, 0x0A, 0x02, 0x08, 0x00] = 0x37 := by
  decide +kernel -- V63
/-- 20 R60 with V13's merged form. -/
theorem test_normalTrace : normalTrace (slotEvents Timing.standard (.write 5 true)) =
    [.critEnter, .driveLow 5, .delay 6, .release 5, .delay 65, .critLeave] ∧ normalTrace [.delay 0, .delay 3, .delay 0] = [.delay 3] := by
  decide

/-! ### Witnesses: a state and operands that meet a statement's hypotheses -/

/-- The bed with a command offered. -/
def offering (w : Word) : State := { bed fresh [] with host := [.command w] }

/-- What the guard can find: a bus that is missing, one that is free, one that is usable. -/
abbrev guardCases (s : State) : Prop := s.cfg.nBus ≤ 2 ∧ (1 < s.cfg.nBus ∧ (s.busAt 1).initialized = false) ∧ s.usable 0

theorem witness_DecodeOfEncodeIsTheInstruction : (Instr.writeBytes 255 65535).wf = true ∧ (Instr.bufWr 255 0xFF).wf = true := by
  decide
theorem witness_UnusedCommandBitsAreIgnored : decode 0x0105BEEF = .instr (.acquire 5) ∧
    0x01050000 &&& (Instr.acquire 5).usedMask = 0x0105BEEF &&& (Instr.acquire 5).usedMask := by decide
theorem witness_DecodedInstructionIsWellFormed : decode 0x15FFFFFF = .instr (.writeBytes 255 65535) := by decide
theorem witness_ReservedCommandAnswersIllegal : ∀ op ∈ [0x00, 0x07, 0x0F, 0x17, 0x1F, 0x24, 0x2F, 0x33, 0x3F, 0x42, 0xFF],
    (offering (commandWord (BitVec.ofNat 8 op) 0x12 0x3456)).busy = false ∧
    (offering (commandWord (BitVec.ofNat 8 op) 0x12 0x3456)).host = .command (commandWord (BitVec.ofNat 8 op) 0x12 0x3456) :: [] ∧
    ∃ w, w = commandWord (BitVec.ofNat 8 op) 0x12 0x3456 ∧
      (fieldOp w = 0x00 ∨ (0x07 ≤ fieldOp w ∧ fieldOp w ≤ 0x0F) ∨ (0x17 ≤ fieldOp w ∧ fieldOp w ≤ 0x1F) ∨
        (0x24 ≤ fieldOp w ∧ fieldOp w ≤ 0x2F) ∨ (0x33 ≤ fieldOp w ∧ fieldOp w ≤ 0x3F) ∨ 0x42 ≤ fieldOp w) := by
  intro op hop
  refine ⟨rfl, rfl, _, rfl, ?_⟩
  simp only [List.mem_cons, List.not_mem_nil, or_false] at hop
  rcases hop with rfl | rfl | rfl | rfl | rfl | rfl | rfl | rfl | rfl | rfl | rfl <;> decide
theorem witness_StepRunsTheDecodedCommand : (offering 0x10000000).busy = false ∧
    (offering 0x10000000).host = .command 0x10000000 :: [] ∧ decode 0x10000000 = .instr (.reset 0) := by decide
theorem witness_EveryAcceptedCommandGetsOneResponse : (offering 0).busy = false ∧ (offering 0).host = .command 0 :: [] := by decide
theorem witness_NothingHappensWithoutAnAcceptedCommand : (bed fresh []).host = [] ∧
    { offering 0 with busy := true }.busy = true ∧ { offering 0 with busy := true }.host = .command 0 :: [] := by decide
/-- From an idle engine, and from one busy in the middle of a slot (70 R231). -/
theorem witness_HardwareResetLeavesTheResetValues : { bed fresh [] with host := [.hardReset] }.host = .hardReset :: [] ∧
    0 < (bed fresh []).cfg.nBus ∧ ∃ s : State, s = { bed afterC [] with
      busy := true, dbuf := [(0, 7)], host := [.hardReset],
      wire := { driven := [5], crit := true, events := [.driveLow 5, .critEnter], answers := [], samples := 0 } } ∧
      s.busy = true ∧ s.host = .hardReset :: [] ∧ s.wire.drive 5 = .low := ⟨rfl, by decide, _, rfl, rfl, rfl, by decide⟩
theorem witness_StraightAfterResetNoBusIsUsable : Config.sized { Config.vectors with nBus := 1, lBuf := 8 } ∧
    Config.sized { Config.vectors with nBus := 256, lBuf := 256 } ∧ (Instr.reset 0).handle? = some 0 ∧
    (Instr.select 255).handle? = some 255 := by decide
theorem witness_InvariantHoldsAfterReset : Config.sized { Config.vectors with nBus := 1, lBuf := 8 } ∧
    Config.sized { Config.vectors with nBus := 256, lBuf := 256 } := by decide

/-- A state with an enumeration under way meets the invariant. -/
theorem bed_inv (host : List HostInput) : State.Inv { bed afterC [] with host := host } where
  sized := (by decide : Config.vectors.sized)
  slots := rfl
  countLe := (by decide : 1 ≤ 2)
  allocated := fun h hh => by
    have : h = 0 := Nat.lt_one_iff.1 hh
    subst this
    change Bus.inv afterC
    decide +kernel
  free := fun h hh => by
    match h with
    | 0 => exact absurd (show 1 ≤ 0 from hh) (by decide)
    | 1 => rfl
    | _ + 2 => rfl
  distinct := fun h k hh hk _ => (Nat.lt_one_iff.1 hh).trans (Nat.lt_one_iff.1 hk).symm
  buffer := (by decide : Memory.wf 16 [])
  idle := ⟨rfl, rfl, rfl⟩
  response := fun h => Bool.noConfusion h
  trace := rfl

theorem witness_EveryHandleIsCheckedFirst : (Instr.search 1).handle? = some 1 ∧ (bed fresh []).cfg.nBus ≤ 2 ∧
    (1 < (bed fresh []).cfg.nBus ∧ ((bed fresh []).busAt 1).initialized = false) ∧ State.Inv { bed afterC [] with host := [] } ∧
    (bed afterC []).count ≤ 1 ∧ 1 < (bed afterC []).cfg.nBus :=
  ⟨rfl, by decide, by decide, bed_inv [], by decide, by decide⟩
theorem witness_EveryStepKeepsTheInvariant : ∃ t, State.Inv { bed afterC [] with host := [.command 0x32000000] } ∧
    step { bed afterC [] with host := [.command 0x32000000] } = .next t ∧ t.busAt 0 = fresh :=
  ⟨_, bed_inv _, rfl, by decide⟩
theorem witness_NoStepChangesTheConfiguration : ∃ t, step (offering 0x01070000) = .next t ∧ t.count = 2 := ⟨_, rfl, by decide⟩
theorem witness_AcquireReturnsAllocatesOrReportsFull :
    (1 < full.count ∧ (full.busAt 1).pin = 9 ∧ ∀ k, k < 1 → (full.busAt k).pin ≠ 9) ∧
    ((∀ h, h < full.count → (full.busAt h).pin ≠ 7) ∧ full.count = full.cfg.nBus) ∧
    ((∀ h, h < (bed fresh []).count → ((bed fresh []).busAt h).pin ≠ 0) ∧ (bed fresh []).count ≠ (bed fresh []).cfg.nBus) := by
  decide
theorem witness_AcquireIsIdempotent : ∃ t, (bed fresh []).bus.length = (bed fresh []).cfg.nBus ∧
    (bed fresh []).count ≤ (bed fresh []).cfg.nBus ∧ exec (.acquire 9) (bed fresh []) = .next t ∧ t.count = 2 :=
  ⟨_, by decide, by decide, rfl, by decide⟩
theorem witness_LookupFindsTheHandleOrNotFound :
    (1 < full.count ∧ (full.busAt 1).pin = 9 ∧ ∀ k, k < 1 → (full.busAt k).pin ≠ 9) ∧
    ∀ h, h < full.count → (full.busAt h).pin ≠ 7 := by decide
theorem witness_BufWrStoresOneByte : 15 < (bed fresh []).cfg.lBuf ∧ (bed fresh []).cfg.lBuf ≤ 16 := by decide
theorem witness_BufRdReturnsTheByte : 15 < (bed fresh []).cfg.lBuf ∧ (bed fresh []).cfg.lBuf ≤ 16 := by decide
theorem witness_RdStatePacksTheSearchState :
    guardCases (bed { fresh with lastDiscrepancy := 127, lastFamilyDiscrepancy := 15 } []) ∧
    ((bed { fresh with lastDiscrepancy := 127, lastFamilyDiscrepancy := 15 } []).busAt 0).lastDiscrepancy < 128 ∧
    ((bed { fresh with lastDiscrepancy := 127, lastFamilyDiscrepancy := 15 } []).busAt 0).lastFamilyDiscrepancy < 16 := by decide
theorem witness_RdRomReturnsTheRomByte : guardCases (bed afterC []) := by decide
theorem witness_ResetDetectsPresence : guardCases (bed fresh [.low]) ∧ guardCases (bed fresh [.high]) := by decide
theorem witness_WriteBitEmitsOneSlot : guardCases (bed fresh []) := by decide
theorem witness_ReadBitReturnsTheSample : guardCases (bed fresh [.high]) := by decide
theorem witness_WriteByteSendsLowBitFirst : guardCases (bed fresh []) := by decide
theorem witness_ReadByteTakesLowBitFirst : guardCases (bed fresh (levels (bitsOf [0x28]))) ∧
    ∀ k, k < 8 → (0x28 : Byte).getLsbD k = (bed fresh (levels (bitsOf [0x28]))).wire.bitAt k := by decide
theorem witness_WriteBytesSendsTheBuffer : guardCases (bed fresh []) ∧ (bed fresh []).cfg.lBuf < 17 ∧
    16 ≤ (bed fresh []).cfg.lBuf := by decide
theorem witness_ReadBytesFillsTheBuffer : guardCases (bed fresh []) ∧ (bed fresh []).cfg.lBuf < 17 ∧
    16 ≤ (bed fresh []).cfg.lBuf := by decide
theorem witness_SkipRomSendsItsCommandByte : guardCases (bed fresh []) := by decide

theorem forall_positions (P : Nat → Prop) (h : ∀ p, p < 65 → 1 ≤ p → P p) : ∀ p, 1 ≤ p → p ≤ 64 → P p :=
  fun p h1 h2 => h p (Nat.lt_succ_of_le h2) h1

theorem witness_ReadRomReturnsAValidatedAddress :
    guardCases (bed fresh [.high]) ∧ (bed fresh [.high]).wire.answerAt 0 = .high ∧
    (bed fresh (.low :: levels (bitsOf romA))).wire.answerAt 0 = .low ∧ romCrc (codeOf romA) = 0 ∧
    (∀ p, 1 ≤ p → p ≤ 64 → romBit (codeOf romA) p = (bed fresh (.low :: levels (bitsOf romA))).wire.bitAt p) ∧
    romCrc (BitVec.allOnes 64) ≠ 0 ∧
    (∀ p, 1 ≤ p → p ≤ 64 → romBit (BitVec.allOnes 64) p =
      (bed fresh (.low :: levels (List.replicate 64 true))).wire.bitAt p) :=
  ⟨by decide, by decide, by decide, by decide +kernel, forall_positions _ (by decide +kernel), by decide +kernel,
    forall_positions _ (by decide +kernel)⟩
theorem witness_MatchRomSendsTheAddress : guardCases (bed fresh []) := by decide
theorem witness_SelectResetsThenMatches : guardCases (bed fresh [.high]) ∧ (bed fresh [.high]).wire.answerAt 0 = .high ∧
    guardCases (bed fresh [.low]) ∧ (bed fresh [.low]).wire.answerAt 0 = .low := by decide
theorem witness_SearchStopsAfterTheLastDevice : isSearch (.alarmSearch 0) 0 0xEC ∧ isSearch (.search 0) 0 0xF0 ∧
    (bed { fresh with lastDeviceFlag := true } []).usable 0 ∧
    ((bed { fresh with lastDeviceFlag := true } []).busAt 0).lastDeviceFlag = true :=
  ⟨.inr ⟨rfl, rfl⟩, .inl ⟨rfl, rfl⟩, by decide, by decide⟩
theorem witness_SearchWithoutPresenceClearsTheState : isSearch (.search 0) 0 0xF0 ∧ (bed afterC [.high]).usable 0 ∧
    ((bed afterC [.high]).busAt 0).lastDeviceFlag = false ∧ (bed afterC [.high]).wire.answerAt 0 = .high :=
  ⟨.inl ⟨rfl, rfl⟩, by decide, by decide, by decide⟩

/-- V45: device A, silent from position 11 on. -/
def silenced : State := bed fresh (passAnswers ((alone romA).take 10 ++ [(true, true)]))

theorem witness_SearchAbortsWhereNobodyAnswers : isSearch (.search 0) 0 0xF0 ∧ silenced.usable 0 ∧
    (silenced.busAt 0).lastDeviceFlag = false ∧ silenced.wire.answerAt 0 = .low ∧
    (∀ q, q < 11 → 1 ≤ q → ¬ (silenced.wire.idAt q = true ∧ silenced.wire.cmpAt q = true)) ∧ silenced.wire.idAt 11 = true ∧
    silenced.wire.cmpAt 11 = true :=
  ⟨.inl ⟨rfl, rfl⟩, by decide, by decide, by decide, by decide, by decide, by decide⟩
/-- What a full pass needs of bus 0: usable, flag clear, presence, and an answer at every position. -/
abbrev fullPass (s : State) : Prop := s.usable 0 ∧ 0 < s.bus.length ∧ (s.busAt 0).lastDeviceFlag = false ∧
  s.wire.answerAt 0 = .low ∧ ∀ q, q < 65 → 1 ≤ q → ¬ (s.wire.idAt q = true ∧ s.wire.cmpAt q = true)

theorem fullPasses : fullPass (bed fresh pass1) ∧ fullPass (bed fresh (List.replicate 129 .low)) ∧
    fullPass (bed fresh (passAnswers (alone [0x28, 1, 0, 0, 0, 0, 0, 0xA9]))) := by decide

/-- The hypotheses of a full pass, for V40 pass 1 (an address), V48 (family code 0) and V49 (a wrong CRC). -/
theorem witness_FullSearchPassResolvesAnAddress : isSearch (.search 0) 0 0xF0 ∧ ∀ s ∈ [bed fresh pass1,
      bed fresh (List.replicate 129 .low), bed fresh (passAnswers (alone [0x28, 1, 0, 0, 0, 0, 0, 0xA9]))],
    s.usable 0 ∧ 0 < s.bus.length ∧ (s.busAt 0).lastDeviceFlag = false ∧ s.wire.answerAt 0 = .low ∧
    ∀ q, 1 ≤ q → q ≤ 64 → ¬ (s.wire.idAt q = true ∧ s.wire.cmpAt q = true) := by
  refine ⟨.inl ⟨rfl, rfl⟩, fun s hs => ?_⟩
  have h : fullPass s := by
    simp only [List.mem_cons, List.not_mem_nil, or_false] at hs
    rcases hs with rfl | rfl | rfl
    exacts [fullPasses.1, fullPasses.2.1, fullPasses.2.2]
  exact ⟨h.1, h.2.1, h.2.2.1, h.2.2.2.1, forall_positions _ h.2.2.2.2⟩
theorem witness_SearchFindsASingleDevice : isSearch (.alarmSearch 0) 0 0xEC ∧
    (bed afterC (passAnswers (alone romA))).usable 0 ∧ ((bed afterC (passAnswers (alone romA))).busAt 0).lastDeviceFlag = false ∧
    romCrc (codeOf romA) = 0 ∧ romByte (codeOf romA) 0 ≠ 0 ∧ (bed afterC (passAnswers (alone romA))).wire.answerAt 0 = .low ∧
    ∀ p, 1 ≤ p → p ≤ 64 → (bed afterC (passAnswers (alone romA))).wire.idAt p = romBit (codeOf romA) p ∧
      (bed afterC (passAnswers (alone romA))).wire.cmpAt p = !romBit (codeOf romA) p :=
  ⟨.inr ⟨rfl, rfl⟩, by decide, by decide, by decide +kernel, by decide +kernel, by decide,
    forall_positions _ (by decide +kernel)⟩
theorem witness_FailedPassLeavesAFreshSlot : ∃ t, isSearch (.search 0) 0 0xF0 ∧ (bed afterC [.high]).usable 0 ∧
    0 < (bed afterC [.high]).bus.length ∧ ((bed afterC [.high]).busAt 0).lastDeviceFlag = false ∧
    exec (.search 0) (bed afterC [.high]) = .next t ∧ t.rsp.getLsbD 31 = false :=
  ⟨_, .inl ⟨rfl, rfl⟩, by decide, by decide, by decide, rfl, by decide⟩
/-- The command byte sent (presence) and not sent (no presence, a bad handle, the flag set). -/
theorem witness_AlarmSearchDiffersOnlyInItsCommandByte : (∃ t u, exec (.search 0) (bed fresh [.low, .high, .high]) = .next t ∧
      exec (.alarmSearch 0) (bed fresh [.low, .high, .high]) = .next u ∧ (bed fresh [.low, .high, .high]).usable 0 ∧
      ((bed fresh [.low, .high, .high]).busAt 0).lastDeviceFlag = false ∧
      (bed fresh [.low, .high, .high]).wire.answerAt 0 = .low ∧ u.wire.trace ≠ t.wire.trace) ∧
    (∃ t u, exec (.search 0) (bed fresh [.high]) = .next t ∧ exec (.alarmSearch 0) (bed fresh [.high]) = .next u ∧
      ¬ (bed fresh [.high]).wire.answerAt 0 = .low) ∧ ¬ (bed fresh []).usable 1 ∧
    ¬ ((bed { fresh with lastDeviceFlag := true } []).busAt 0).lastDeviceFlag = false :=
  ⟨⟨_, _, rfl, rfl, by decide, by decide, by decide, by decide⟩, ⟨_, _, rfl, rfl, by decide⟩, by decide, by decide⟩
theorem witness_ResetSearchClearsTheSearchState : guardCases (bed afterC []) := by decide

/-- Devices A, B and C on one line (V40), with these alarm flags. -/
def devicesABC (a b c : Bool) : List Device :=
  [Device.fresh (codeOf romA) a, Device.fresh (codeOf romB) b, Device.fresh (codeOf romC) c]

/-- These devices on pin 5, and a stuck-low line on every other pin. -/
def bench (ds : List Device) : Lines := fun pin => if pin = 5 then .devices ds else .stuckLow

/-- The bed with device B alone to answer (V46). -/
def findingB : State := bed fresh (passAnswers (alone romB))

/-- The slots of an ALARM_SEARCH that only B answers. -/
def slotsB : List Slot := findingB.wire.passSlots 5 0xEC (codeOf romB) 64

/-- The 201 slots of V40 pass 2, in order. -/
def slots2 : List Slot := (bed afterC pass2).wire.passSlots 5 0xF0 (codeOf romB) 64

/-- 20 R66: a legal line, every device `Idle` before the first slot. -/
theorem devicesABC_legal : ∀ a b c, (Line.devices (devicesABC a b c)).legal ∧ (Line.devices (devicesABC a b c)).unused = true := by
  decide +kernel
/-- 20 R66: two devices with one ROM code are no legal line; nor is a device with family code 0. -/
theorem test_line_legal : ¬ (Line.devices [Device.fresh (codeOf romA) false, Device.fresh (codeOf romA) true]).legal ∧
    ¬ (Line.devices [Device.fresh 0 false]).legal := by decide +kernel
/-- 20 R76: a reset slot on pin 9 leaves the devices on pin 5 idle; one on pin 5 does not. -/
theorem test_lines_independent : (bench (devicesABC true true true)).after (.reset 9 true) 5 = .devices (devicesABC true true true) ∧
    ((bench (devicesABC true true true)).after (.reset 5 true) 5).unused = false := by decide

/-- Slots of one pin that its line answers are answered by the bench. -/
theorem bench_agrees (ds : List Device) (slots : List Slot) (hp : (slots.all fun slot => slot.pin == 5) = true)
    (h : (Line.devices ds).agrees slots = true) : (bench ds).agrees slots = true := by
  rw [Lines.agrees_of_pin (bench ds) 5 slots (by simpa using hp)]
  exact h

theorem slotsB_agree : (bench (devicesABC false true false)).agrees slotsB = true :=
  bench_agrees _ _ (by decide +kernel) (by decide +kernel)
theorem slotsB_trace : (findingB.search 0 0xEC).wire.trace =
    findingB.wire.trace ++ slotsB.flatMap (slotEvents Timing.standard) := by decide +kernel
theorem slots2_agree : (bench (devicesABC true true true)).agrees slots2 = true :=
  bench_agrees _ _ (by decide +kernel) (by decide +kernel)
theorem slots2_trace : ((bed afterC pass2).search 0 0xF0).wire.trace =
    (bed afterC pass2).wire.trace ++ slots2.flatMap (slotEvents Timing.standard) := by decide +kernel

/-- ALARM_SEARCH of V40's devices with B alone in alarm (V46), and with none in alarm (V44). -/
theorem witness_FreshSearchFindsTheFirstDevice : (∃ t, isSearch (.alarmSearch 0) 0 0xEC ∧ findingB.usable 0 ∧
      0 < findingB.bus.length ∧ findingB.cfg.timing.tW1l ≠ findingB.cfg.timing.tW0l ∧
      (findingB.busAt 0).lastDeviceFlag = false ∧ (findingB.busAt 0).lastDiscrepancy = 0 ∧
      bench (devicesABC false true false) (findingB.busAt 0).pin = .devices (devicesABC false true false) ∧
      devicesABC false true false ≠ [] ∧ (∀ d ∈ devicesABC false true false, d.valid) ∧
      exec (.alarmSearch 0) findingB = .next t ∧
      t.wire.trace = findingB.wire.trace ++ slotsB.flatMap (slotEvents findingB.cfg.timing) ∧
      (bench (devicesABC false true false)).agrees slotsB = true ∧ searchedRoms (devicesABC false true false) 0xEC ≠ []) ∧
    ∃ t slots, isSearch (.alarmSearch 0) 0 0xEC ∧ exec (.alarmSearch 0) (bed fresh [.low, .high, .high]) = .next t ∧
      t.wire.trace = (bed fresh [.low, .high, .high]).wire.trace ++ slots.flatMap (slotEvents Timing.standard) ∧
      (bench (devicesABC false false false)).agrees slots = true ∧ searchedRoms (devicesABC false false false) 0xEC = [] :=
  ⟨⟨findingB.search 0 0xEC, .inr ⟨rfl, rfl⟩, by decide, by decide, by decide, by decide, by decide, rfl, by decide,
    (devicesABC_legal _ _ _).1.1, rfl, slotsB_trace, slotsB_agree, by decide⟩,
   ⟨_, .reset 5 true :: (writeSlots 5 [0xEC] ++ [.read 5 true, .read 5 true]), .inr ⟨rfl, rfl⟩, rfl, by decide,
    bench_agrees _ _ (by decide) (by decide), by decide⟩⟩

theorem afterC_frontier : afterC.atFrontier (searchedRoms (devicesABC true true true) 0xF0) := by
  have h : ∀ d ∈ devicesABC true true true, ∀ p, p < 65 → (4 < p ∧ romBit afterC.rom p = false ∧ romBit d.rom p = true) →
      ∃ q, q < p ∧ (1 ≤ q ∧ romBit d.rom q ≠ romBit afterC.rom q) := by decide
  refine ⟨by decide, .inr ⟨by decide, by decide, codeOf romA, by decide, by decide, ?_⟩, ?_⟩
  · have h' : ∀ q, q < 4 → 1 ≤ q → romBit (codeOf romA) q = romBit afterC.rom q := by decide
    exact fun q h1 h2 => h' q h2 h1
  · rintro p h1 h2 h3 ⟨r, hr, h4, h5⟩
    obtain ⟨d, hd, rfl⟩ := List.mem_map.1 hr
    obtain ⟨q, hq, hq1, hne⟩ := h d (List.mem_filter.1 hd).1 p (by omega) ⟨h1, h3, h4⟩
    exact hne (h5 q hq1 hq)

/-- SEARCH of V40's line, pass 2. -/
theorem witness_NextSearchFindsTheNextDevice : ∃ t, isSearch (.search 0) 0 0xF0 ∧ (bed afterC pass2).usable 0 ∧
    0 < (bed afterC pass2).bus.length ∧ (bed afterC pass2).cfg.timing.tW1l ≠ (bed afterC pass2).cfg.timing.tW0l ∧
    ((bed afterC pass2).busAt 0).lastDeviceFlag = false ∧ ((bed afterC pass2).busAt 0).lastDiscrepancy ≠ 0 ∧
    bench (devicesABC true true true) ((bed afterC pass2).busAt 0).pin = .devices (devicesABC true true true) ∧
    (∀ d ∈ devicesABC true true true, d.valid) ∧
    ((bed afterC pass2).busAt 0).atFrontier (searchedRoms (devicesABC true true true) 0xF0) ∧
    exec (.search 0) (bed afterC pass2) = .next t ∧
    t.wire.trace = (bed afterC pass2).wire.trace ++ slots2.flatMap (slotEvents (bed afterC pass2).cfg.timing) ∧
    (bench (devicesABC true true true)).agrees slots2 = true :=
  ⟨(bed afterC pass2).search 0 0xF0, .inl ⟨rfl, rfl⟩, by decide, by decide, by decide, by decide, by decide, rfl,
    (devicesABC_legal _ _ _).1.1, afterC_frontier, rfl, slots2_trace, slots2_agree⟩

/-- After V46's search the bus is still usable, and its flag is set. -/
theorem findingB_found : (findingB.search 0 0xEC).usable 0 ∧ ((findingB.search 0 0xEC).busAt 0).lastDeviceFlag = true := by
  decide +kernel

/-- After the last device a search adds nothing to the trace (43 R160). -/
theorem search_after_last (s : State) (hu : s.usable 0) (hf : (s.busAt 0).lastDeviceFlag = true) (tm : Timing) :
    exec (.alarmSearch 0) s = .next (s.raise .noMoreDevices) ∧
    (s.raise .noMoreDevices).wire.trace = s.wire.trace ++ [].flatMap (slotEvents tm) :=
  ⟨(exec_isSearch s 0 (.alarmSearch 0) 0xEC (.inr ⟨rfl, rfl⟩) hu).trans (congrArg _ (if_pos hf)), (List.append_nil _).symm⟩

/-- V46: of three devices B alone is in alarm; ALARM_SEARCH twice, `Ok` and `NoMoreDevices`. -/
theorem witness_RepeatedSearchFindsEveryDeviceOnce : ∃ t u, isSearch (.alarmSearch 0) 0 0xEC ∧ findingB.usable 0 ∧
    0 < findingB.bus.length ∧ findingB.cfg.timing.tW1l ≠ findingB.cfg.timing.tW0l ∧
    (findingB.busAt 0).lastDeviceFlag = false ∧ (findingB.busAt 0).lastDiscrepancy = 0 ∧
    bench (devicesABC false true false) (findingB.busAt 0).pin = .devices (devicesABC false true false) ∧
    (bench (devicesABC false true false) (findingB.busAt 0).pin).legal ∧ searchedRoms (devicesABC false true false) 0xEC ≠ [] ∧
    [t].length = (searchedRoms (devicesABC false true false) 0xEC).length ∧
    runsOnLines (.alarmSearch 0) findingB (bench (devicesABC false true false)) ([t] ++ [u]) :=
  ⟨findingB.search 0 0xEC, (findingB.search 0 0xEC).raise .noMoreDevices, .inr ⟨rfl, rfl⟩, by decide, by decide, by decide,
    by decide, by decide, rfl, (devicesABC_legal false true false).1, by decide, by decide, rfl, slotsB, slotsB_trace,
    slotsB_agree, (search_after_last _ findingB_found.1 findingB_found.2 Timing.standard).1, [],
    (search_after_last _ findingB_found.1 findingB_found.2 _).2, rfl, trivial⟩
/-- Slots on two pins that the bench answers, and a pin without a slot. -/
theorem witness_LinesAreIndependentAndStayLegal : (bench (devicesABC true true true) 5).legal ∧
    (bench (devicesABC true true true)).agrees [.reset 9 true, .reset 5 true, .read 9 false, .read 5 true] = true ∧
    ∀ slot ∈ [Slot.reset 9 true, .reset 5 true, .read 9 false, .read 5 true], slot.pin ≠ 7 := by
  refine ⟨(devicesABC_legal true true true).1, by decide, ?_⟩
  intro slot h
  simp only [List.mem_cons, List.not_mem_nil, or_false] at h
  rcases h with rfl | rfl | rfl | rfl <;> decide
theorem witness_NoDeviceIsLeftWhenDiscrepancyIsZero :
    Bus.atFrontier { fresh with rom := codeOf romA, lastDeviceFlag := true } [codeOf romA] := by
  refine ⟨by decide, .inl rfl, ?_⟩
  rintro p _ _ h ⟨r, hr, h1, _⟩
  rw [List.mem_singleton.1 hr] at h1
  exact absurd (h1.symm.trans h) (by decide)

theorem witness_Crc8AnswersTheBufferCrc : (bed fresh []).cfg.lBuf < 17 ∧ 16 ≤ (bed fresh []).cfg.lBuf := by decide
theorem witness_VerifyTestsTheBufferCrc : (bed fresh []).cfg.lBuf < 17 ∧ 16 ≤ (bed fresh []).cfg.lBuf := by decide
theorem witness_CrcHasItsEquivalentForms : ([1, 2] : List Byte).length = ([3, 4] : List Byte).length := by decide
theorem witness_CrcDetectsEverySingleBitError : romCrc (codeOf romA) = 0 ∧ 0 < 64 ∧ 63 < 64 := by decide +kernel
theorem witness_OnlyStoredBufferBytesChange : ∃ t, exec (.bufWr 3 7) (bed fresh []) = .next t ∧ ¬ storesTo (.bufWr 3 7) 4 ∧
    t.dbuf = [(3, 7)] := ⟨_, rfl, fun h => absurd (show 4 = 3 from h) (by decide), by decide⟩
theorem witness_OnlyTheNamedSlotChanges : (∃ t, exec (.acquire 9) (bed fresh []) = .next t ∧ t.busAt 1 = Bus.acquired 9) ∧
    (∃ t, exec (.resetSearch 0) (bed afterC []) = .next t ∧ (Instr.resetSearch 0).handle? ≠ some 1 ∧ t.busAt 0 = fresh) ∧
    ∃ t, exec (.readBit 0) (bed fresh [.low]) = .next t ∧
      (∀ h, Instr.readBit 0 ≠ .search h ∧ Instr.readBit 0 ≠ .alarmSearch h ∧ Instr.readBit 0 ≠ .resetSearch h) :=
  ⟨⟨_, rfl, by decide⟩, ⟨_, rfl, by decide, by decide⟩, ⟨_, rfl, fun _ => ⟨by simp, by simp, by simp⟩⟩⟩
theorem witness_EveryEventNamesTheBusPin : ∃ t, (Instr.writeBit 1 true).handle? = some 1 ∧ exec (.writeBit 1 true) full = .next t ∧
    (9 : PinId) ≠ 5 ∧ t.wire.trace.length = 7 := ⟨_, rfl, rfl, by decide, by decide⟩
theorem witness_EveryOperationLeavesTheWireIdle : ∃ t, (bed fresh [.low]).wire.driven = [] ∧ (bed fresh [.low]).wire.crit = false ∧
    exec (.reset 0) (bed fresh [.low]) = .next t ∧ t.wire.trace.length = 8 := ⟨_, rfl, rfl, rfl, by decide⟩
theorem witness_RegistryAndCrcOperationsStayOffTheWire : (∃ t, exec (.crc8 1) (loaded [2]) = .next t ∧ t.rsp = 0x800000BC) ∧
    ∃ t, exec (.acquire 9) (bed fresh []) = .next t ∧ t.wire.trace = [.release 9] :=
  ⟨⟨_, rfl, by decide⟩, ⟨_, rfl, by decide⟩⟩
theorem witness_TimingChangesOnlyDelayArguments : ∃ t u, exec (.reset 0) (bed fresh [.low]) = .next t ∧
    exec (.reset 0) { bed fresh [.low] with cfg := { Config.vectors with timing := { Timing.standard with tRstl := 500 } } } = .next u ∧
    t.wire.trace ≠ u.wire.trace := ⟨_, _, rfl, rfl, by decide⟩

/-- V19: 0xA5 written on the loopback line and read back. -/
def looped : State := bed fresh (levels (bitsOf [0xA5]))

/-- The loopback line on pin 5, and a stuck-low line on every other pin. -/
def loop : Lines := fun pin => if pin = 5 then .loopback [] else .stuckLow

/-- The slots of V19: the byte's bits written, then read. -/
def loopSlots : List Slot := ((bitsOf [0xA5]).map fun b => Slot.write 5 b) ++ (bitsOf [0xA5]).map fun b => Slot.read 5 b

theorem witness_LoopbackReturnsTheWrittenByte : ∃ t u, looped.usable 0 ∧ looped.cfg.timing.tW1l ≠ looped.cfg.timing.tW0l ∧
    loop (looped.busAt 0).pin = .loopback [] ∧ exec (.writeByte 0 0xA5) looped = .next t ∧ exec (.readByte 0) t = .next u ∧
    u.wire.trace = looped.wire.trace ++ loopSlots.flatMap (slotEvents looped.cfg.timing) ∧ loop.agrees loopSlots = true :=
  ⟨_, _, by decide, by decide, rfl, rfl, rfl, by decide, by
    rw [Lines.agrees_of_pin loop 5 loopSlots (by simpa using (by decide : (loopSlots.all fun slot => slot.pin == 5) = true))]
    exact (by decide : (Line.loopback []).agrees loopSlots = true)⟩
/-- No presence, presence, and a full pass (V40 pass 1). -/
theorem witness_DurationsAreTheSlotTotals : (bed fresh [.high]).cfg.timing.wf ∧ (bed fresh [.high]).usable 0 ∧
    16 ≤ (bed fresh [.high]).cfg.lBuf ∧ (bed fresh [.high]).wire.answerAt 0 = .high ∧
    ((bed fresh [.high]).busAt 0).lastDeviceFlag = false ∧ (bed fresh pass1).cfg.timing.wf ∧ (bed fresh pass1).usable 0 ∧
    (bed fresh pass1).wire.answerAt 0 = .low ∧ isSearch (.alarmSearch 0) 0 0xEC ∧
    ((bed fresh pass1).busAt 0).lastDeviceFlag = false ∧
    ∀ q, 1 ≤ q → q ≤ 64 → ¬ ((bed fresh pass1).wire.idAt q = true ∧ (bed fresh pass1).wire.cmpAt q = true) :=
  ⟨by decide, by decide, by decide, by decide, by decide, by decide, fullPasses.1.1, fullPasses.1.2.2.2.1, .inr ⟨rfl, rfl⟩,
    fullPasses.1.2.2.1, forall_positions _ fullPasses.1.2.2.2.2⟩
/-- A trace already normal, of more than delays. -/
theorem witness_TraceNormalFormIsNormal : Event.delay 0 ∉ [Event.delay 3, .critEnter, .delay 4] ∧
    ∀ (a b : List Event) (m n : Nat), [Event.delay 3, .critEnter, .delay 4] ≠ a ++ .delay m :: .delay n :: b := by
  refine ⟨by decide, fun a b m n h => ?_⟩
  rcases a with _ | ⟨_, _ | ⟨_, _ | ⟨_, _ | ⟨_, a⟩⟩⟩⟩ <;> simp at h

end Sys2Proof.Tests
end

section
/-! SUPPORT. What one step can do, by what the host offers; and that the configuration is no part of it. -/

namespace Sys2Proof.Machine

open Sys2Proof

/-- The four ways a step answers a next state: nothing taken, a hardware reset, an operation, a reserved command
(30 R80 to R82, R87; 70 R230). -/
theorem step_cases {s t : State} (h : step s = .next t) :
    (s.take = .nothing ∧ t = s) ∨
    (∃ rest, s.take = .hardReset rest ∧ t = s.hardReset rest) ∨
    (∃ w rest i, s.take = .command w rest ∧ decode w = .instr i ∧ exec i (s.accept w rest) = .next t) ∨
    (∃ w rest op, s.take = .command w rest ∧ decode w = .reserved op ∧ t = (s.accept w rest).illegalCommand) := by
  unfold step at h
  cases ht : s.take with
  | nothing =>
    simp only [ht, Host.Outcome.next.injEq] at h
    exact .inl ⟨rfl, h.symm⟩
  | hardReset rest =>
    simp only [ht, Host.Outcome.next.injEq] at h
    exact .inr (.inl ⟨rest, rfl, h.symm⟩)
  | command w rest =>
    cases hd : decode w with
    | instr i =>
      simp only [ht, hd] at h
      exact .inr (.inr (.inl ⟨w, rest, i, rfl, hd, h⟩))
    | reserved op =>
      simp only [ht, hd, Host.Outcome.next.injEq] at h
      exact .inr (.inr (.inr ⟨w, rest, op, rfl, hd, h.symm⟩))

@[simp] theorem State.hardReset_cfg (s : State) (rest : List HostInput) : (s.hardReset rest).cfg = s.cfg := rfl

@[simp] theorem State.illegalCommand_cfg (s : State) : s.illegalCommand.cfg = s.cfg := rfl

@[simp] theorem State.acquire_cfg (s : State) (pin : PinId) : (s.acquire pin).cfg = s.cfg := by
  rcases s.acquire_cases pin with ⟨_, _, e⟩ | ⟨_, _, e⟩ | ⟨_, _, e⟩ <;> simp [e]

theorem Effect.cfg {i : Instr} {s t : State} (h : Effect i s t) : t.cfg = s.cfg := by
  obtain ⟨_, _, _, _, _, rfl, _⟩ := h
  rfl

/-- No operation changes the configuration (10 R36). -/
theorem exec_cfg {i : Instr} {s t : State} (h : exec i s = .next t) : t.cfg = s.cfg := by
  by_cases hi : ∃ pin, i = .acquire pin
  · obtain ⟨pin, rfl⟩ := hi
    obtain rfl : s.acquire pin = t := Host.Outcome.next.inj h
    exact s.acquire_cfg pin
  · obtain ⟨t', ht', he⟩ := exec_effect i s (not_exists.1 hi)
    obtain rfl : t' = t := Host.Outcome.next.inj (ht'.symm.trans h)
    exact he.cfg

/-- Settles O14: each of the four ways a step can go keeps the configuration. -/
theorem noStepChangesTheConfiguration : Obligations.NoStepChangesTheConfiguration := by
  intro s t h
  rcases step_cases h with ⟨_, rfl⟩ | ⟨rest, _, rfl⟩ | ⟨w, rest, i, _, _, he⟩ | ⟨w, rest, op, _, _, rfl⟩
  · rfl
  · exact s.hardReset_cfg rest
  · simpa using exec_cfg he
  · simp

end Sys2Proof.Machine
end

section
/-! SUPPORT. Runs under two timing tables (spec/00_scope.md R13). `Wire.sameButDelays` and `State.sameButTiming` relate what the
two runs hold; every procedure and every state operation keeps the relation, and so every operation does. -/

namespace Sys2Proof.Machine

open Sys2Proof

/-! ### The wire side -/

/-- Two wire sides that differ in `Delay` arguments of the trace at most. -/
def Wire.sameButDelays (w w' : Wire) : Prop :=
  sameButEvents w w' ∧ w'.trace.map Event.withoutTime = w.trace.map Event.withoutTime

section
variable {w w' : Wire} (hw : w.sameButDelays w') (t t' : Timing) (pin : PinId)
include hw

theorem Wire.sameButDelays.answerAt (k : Nat) : w'.answerAt k = w.answerAt k := sameButEvents_answer hw.1 k

theorem Wire.sameButDelays.bitAt (k : Nat) : w'.bitAt k = w.bitAt k := sameButEvents_bit hw.1 k

theorem Wire.sameButDelays.byteAt (n : Nat) : w'.byteAt n = w.byteAt n := by simp only [Wire.byteAt, hw.bitAt]

theorem Wire.sameButDelays.readSlots (start n : Nat) : w'.readSlots pin start n = w.readSlots pin start n := by
  simp only [Wire.readSlots, hw.bitAt]

/-- The same slots under two tables. -/
theorem Wire.sameButDelays.play (slots : List Slot) : (w.play t slots).sameButDelays (w'.play t' slots) :=
  ⟨sameButEvents_play t t' slots slots rfl rfl w w' hw.1, trace_withoutTime_play t t' slots w w' hw.2⟩

/-- ACQUIRE's one event (40 R106). -/
theorem Wire.sameButDelays.release : (Wire.release pin w).sameButDelays (Wire.release pin w') := by
  obtain ⟨he, ht⟩ := hw
  exact ⟨by rw [he]; rfl, by simpa [Wire.trace] using ht⟩

theorem Wire.sameButDelays.writeBit (b : Bool) : (writeBit t pin b w).sameButDelays (writeBit t' pin b w') := by
  rw [writeBit_eq, writeBit_eq]
  exact hw.play t t' [.write pin b]

theorem Wire.sameButDelays.writeByte (v : Byte) : (writeByte t pin v w).sameButDelays (writeByte t' pin v w') := by
  rw [writeByte_eq, writeByte_eq]
  exact hw.play t t' _

theorem Wire.sameButDelays.writeByteList (vs : List Byte) :
    (writeByteList t pin vs w).sameButDelays (writeByteList t' pin vs w') := by
  rw [writeByteList_eq, writeByteList_eq]
  exact hw.play t t' _

/-- A reset slot finds the same presence under both tables. -/
theorem Wire.sameButDelays.resetSlot :
    ∃ presence v v', resetSlot t pin w = (presence, v) ∧ resetSlot t' pin w' = (presence, v') ∧ v.sameButDelays v' :=
  ⟨_, _, _, resetSlot_eq t w pin, by rw [resetSlot_eq, hw.answerAt]; rfl, hw.play t t' [.reset pin _]⟩

/-- A read slot gives the same bit under both tables. -/
theorem Wire.sameButDelays.readBit :
    ∃ b v v', readBit t pin w = (b, v) ∧ readBit t' pin w' = (b, v') ∧ v.sameButDelays v' :=
  ⟨_, _, _, readBit_eq t w pin, by rw [readBit_eq, hw.bitAt]; rfl, hw.play t t' [.read pin _]⟩

theorem Wire.sameButDelays.readByte :
    ∃ b v v', readByte t pin w = (b, v) ∧ readByte t' pin w' = (b, v') ∧ v.sameButDelays v' := by
  have hbits : ∀ k, k < 8 → (w.byteAt 0).getLsbD k = w.bitAt k := fun k hk => by simpa using w.getLsbD_byteAt 0 k hk
  refine ⟨_, _, _, readByte_eq t w pin _ hbits, readByte_eq t' w' pin _ fun k hk => ?_, ?_⟩
  · rw [hw.bitAt, hbits k hk]
  · rw [hw.readSlots]
    exact hw.play t t' _

theorem Wire.sameButDelays.readByteList (n : Nat) :
    ∃ vs v v', readByteList t pin n w = (vs, v) ∧ readByteList t' pin n w' = (vs, v') ∧ v.sameButDelays v' := by
  refine ⟨_, _, _, readByteList_eq t w pin n, ?_, hw.play t t' (w.readSlots pin 0 (8 * n))⟩
  simp only [readByteList_eq, hw.byteAt, hw.readSlots]

/-- The loop of a search pass ends the same way, with the same slot, under both tables. -/
theorem Wire.sameButDelays.searchFrom (n p lastZero : Nat) (b : Bus) :
    ∃ b' olz v v', searchFrom t n p lastZero b w = passEnd b' olz v ∧
      searchFrom t' n p lastZero b w' = passEnd b' olz v' ∧ v.sameButDelays v' := by
  obtain ⟨b', olz, slots, _, _, hshape⟩ := searchFrom_shape n p lastZero b w
  exact ⟨b', olz, _, _, hshape t w fun _ => rfl, hshape t' w' hw.bitAt, hw.play t t' slots⟩

end

/-! ### The state -/

/-- `s'` is `s` under the timing table `tm`, but for `Delay` arguments of the trace. -/
def State.sameButTiming (tm : Timing) (s s' : State) : Prop :=
  ∃ w, s.wire.sameButDelays w ∧ s' = { s with cfg := { s.cfg with timing := tm }, wire := w }

section
variable {tm : Timing} {s s' : State} (hs : State.sameButTiming tm s s')
include hs

theorem State.sameButTiming.wire : s.wire.sameButDelays s'.wire := by obtain ⟨w, hw, rfl⟩ := hs; exact hw
theorem State.sameButTiming.nBus : s'.cfg.nBus = s.cfg.nBus := by obtain ⟨w, hw, rfl⟩ := hs; rfl
theorem State.sameButTiming.lBuf : s'.cfg.lBuf = s.cfg.lBuf := by obtain ⟨w, hw, rfl⟩ := hs; rfl
theorem State.sameButTiming.count : s'.count = s.count := by obtain ⟨w, hw, rfl⟩ := hs; rfl
theorem State.sameButTiming.busAt (h : Nat) : s'.busAt h = s.busAt h := by obtain ⟨w, hw, rfl⟩ := hs; rfl
theorem State.sameButTiming.pinOf (h : Nat) : s'.pinOf h = s.pinOf h := by obtain ⟨w, hw, rfl⟩ := hs; rfl
theorem State.sameButTiming.findPin (pin : PinId) : s'.findPin pin = s.findPin pin := by
  obtain ⟨w, hw, rfl⟩ := hs; rfl
theorem State.sameButTiming.dbufByte (a : Nat) : s'.dbufByte a = s.dbufByte a := by obtain ⟨w, hw, rfl⟩ := hs; rfl
theorem State.sameButTiming.dbufBytes (n : Nat) : s'.dbufBytes n = s.dbufBytes n := by
  obtain ⟨w, hw, rfl⟩ := hs; rfl
theorem State.sameButTiming.checkHandle (h : Nat) : s'.checkHandle h = s.checkHandle h := by
  simp only [State.checkHandle, hs.nBus, hs.busAt]
theorem State.sameButTiming.checkLength (len : Nat) : s'.checkLength len = s.checkLength len := by
  simp only [State.checkLength, hs.lBuf]
theorem State.sameButTiming.checkIndex (idx : Nat) : s'.checkIndex idx = s.checkIndex idx := by
  simp only [State.checkIndex, hs.lBuf]

theorem State.sameButTiming.ret (data : Half) : sameButTiming tm (s.ret data) (s'.ret data) := by
  obtain ⟨w, hw, rfl⟩ := hs; exact ⟨w, hw, rfl⟩
theorem State.sameButTiming.raise (st : Status) : sameButTiming tm (s.raise st) (s'.raise st) := by
  obtain ⟨w, hw, rfl⟩ := hs; exact ⟨w, hw, rfl⟩
theorem State.sameButTiming.setBus (h : Nat) (b : Bus) : sameButTiming tm (s.setBus h b) (s'.setBus h b) := by
  obtain ⟨w, hw, rfl⟩ := hs; exact ⟨w, hw, rfl⟩
theorem State.sameButTiming.clearSearch (h : Nat) : sameButTiming tm (s.clearSearch h) (s'.clearSearch h) := by
  obtain ⟨w, hw, rfl⟩ := hs; exact ⟨w, hw, rfl⟩
theorem State.sameButTiming.dbufStore (a : Nat) (v : Byte) : sameButTiming tm (s.dbufStore a v) (s'.dbufStore a v) := by
  obtain ⟨w, hw, rfl⟩ := hs; exact ⟨w, hw, rfl⟩
theorem State.sameButTiming.dbufStoreList (vs : List Byte) :
    sameButTiming tm (s.dbufStoreList vs) (s'.dbufStoreList vs) := by
  obtain ⟨w, hw, rfl⟩ := hs; exact ⟨w, hw, rfl⟩
theorem State.sameButTiming.withWire {v v' : Wire} (hv : v.sameButDelays v') :
    sameButTiming tm (s.withWire v) (s'.withWire v') := by
  obtain ⟨w, hw, rfl⟩ := hs; exact ⟨v', hv, rfl⟩
theorem State.sameButTiming.allocate (pin : PinId) : sameButTiming tm (s.allocate pin) (s'.allocate pin) := by
  obtain ⟨w, hw, rfl⟩ := hs; exact ⟨_, hw.release pin, rfl⟩

/-- A check that finds the same in both states, and then a run that keeps the relation. -/
theorem State.sameButTiming.checked (check : Option Status) (run : State → State)
    (hr : sameButTiming tm (run s) (run s')) : sameButTiming tm (s.checked check run) (s'.checked check run) := by
  cases check with
  | some st => exact hs.raise st
  | none => exact hr

theorem State.sameButTiming.onBus (h : Nat) (run : State → State) (hr : sameButTiming tm (run s) (run s')) :
    sameButTiming tm (s.onBus h run) (s'.onBus h run) := by
  rw [State.onBus, State.onBus, hs.checkHandle]
  exact hs.checked _ run hr

theorem State.sameButTiming.acquire (pin : PinId) : sameButTiming tm (s.acquire pin) (s'.acquire pin) := by
  simp only [State.acquire, hs.findPin, hs.count, hs.nBus]
  split
  · exact hs.ret _
  · split
    · exact hs.raise _
    · exact (hs.allocate pin).ret _

theorem State.sameButTiming.matchRom (h : Nat) {v v' : Wire} (hv : v.sameButDelays v') :
    (s.matchRom h v).sameButDelays (s'.matchRom h v') := by
  simp only [State.matchRom, hs.pinOf, hs.dbufBytes]
  exact hv.writeByteList _ _ _ _

/-- What the end of a pass means depends on the slot and `last_zero` alone (43 R168 to R172). -/
theorem State.sameButTiming.endPass (h : Nat) (b : Bus) (olz : Option Nat) {v v' : Wire} (hv : v.sameButDelays v') :
    sameButTiming tm (s.endPass h (passEnd b olz v)) (s'.endPass h (passEnd b olz v')) := by
  cases olz with
  | none => exact ((hs.withWire hv).setBus h _).raise _
  | some lastZero =>
    simp only [passEnd, State.endPass]
    split
    · exact ((hs.withWire hv).setBus h _).raise _
    · split
      · exact ((hs.withWire hv).setBus h _).raise _
      · exact (((hs.withWire hv).setBus h _).dbufStoreList _).ret 0

theorem State.sameButTiming.search (h : Nat) (cmdByte : Byte) :
    sameButTiming tm (s.search h cmdByte) (s'.search h cmdByte) := by
  simp only [State.search, hs.busAt, hs.pinOf]
  split
  · exact hs.raise _
  · obtain ⟨presence, v, v', e, e', hv⟩ := hs.wire.resetSlot s.timing s'.timing (s.pinOf h)
    rw [e, e']
    cases presence with
    | false => exact ((hs.withWire hv).clearSearch h).raise _
    | true =>
      obtain ⟨b, olz, x, x', p, p', hx⟩ := (hv.writeByte s.timing s'.timing (s.pinOf h) cmdByte).searchFrom
        s.timing s'.timing 64 1 0 (s.busAt h)
      simp only [p, p']
      exact hs.endPass h b olz hx

end

/-- Every operation keeps two states the same but for timing (00 R13). -/
theorem exec_sameButTiming {tm : Timing} {s s' : State} (i : Instr) (hs : State.sameButTiming tm s s') :
    ∃ t t', exec i s = .next t ∧ exec i s' = .next t' ∧ State.sameButTiming tm t t' := by
  cases i with
  | acquire pin => exact ⟨_, _, rfl, rfl, hs.acquire pin⟩
  | lookup pin =>
    refine ⟨_, _, rfl, rfl, ?_⟩
    rw [hs.findPin]
    split
    · exact hs.ret _
    · exact hs.raise _
  | bufWr idx v =>
    refine ⟨_, _, rfl, rfl, ?_⟩
    rw [hs.checkIndex]
    exact hs.checked _ _ ((hs.dbufStore idx v).ret 0)
  | bufRd idx =>
    refine ⟨_, _, rfl, rfl, ?_⟩
    rw [hs.checkIndex]
    refine hs.checked _ _ ?_
    rw [hs.dbufByte]
    exact hs.ret _
  | rdState h =>
    refine ⟨_, _, rfl, rfl, hs.onBus h _ ?_⟩
    rw [hs.busAt]
    exact hs.ret _
  | rdRom h k =>
    refine ⟨_, _, rfl, rfl, hs.onBus h _ ?_⟩
    rw [hs.busAt]
    exact hs.ret _
  | reset h =>
    refine ⟨_, _, rfl, rfl, hs.onBus h _ ?_⟩
    obtain ⟨presence, v, v', e, e', hv⟩ := hs.wire.resetSlot s.timing s'.timing (s.pinOf h)
    rw [hs.pinOf, e, e']
    cases presence with
    | false => exact (hs.withWire hv).raise _
    | true => exact (hs.withWire hv).ret 1
  | writeBit h bit =>
    refine ⟨_, _, rfl, rfl, hs.onBus h _ ?_⟩
    rw [hs.pinOf]
    exact (hs.withWire (hs.wire.writeBit _ _ _ bit)).ret 0
  | readBit h =>
    refine ⟨_, _, rfl, rfl, hs.onBus h _ ?_⟩
    obtain ⟨b, v, v', e, e', hv⟩ := hs.wire.readBit s.timing s'.timing (s.pinOf h)
    rw [hs.pinOf, e, e']
    exact (hs.withWire hv).ret _
  | writeByte h byte =>
    refine ⟨_, _, rfl, rfl, hs.onBus h _ ?_⟩
    rw [hs.pinOf]
    exact (hs.withWire (hs.wire.writeByte _ _ _ byte)).ret 0
  | readByte h =>
    refine ⟨_, _, rfl, rfl, hs.onBus h _ ?_⟩
    obtain ⟨b, v, v', e, e', hv⟩ := hs.wire.readByte s.timing s'.timing (s.pinOf h)
    rw [hs.pinOf, e, e']
    exact (hs.withWire hv).ret _
  | writeBytes h len =>
    refine ⟨_, _, rfl, rfl, hs.onBus h _ ?_⟩
    rw [hs.checkLength]
    refine hs.checked _ _ ?_
    rw [hs.pinOf, hs.dbufBytes]
    exact (hs.withWire (hs.wire.writeByteList _ _ _ _)).ret 0
  | readBytes h len =>
    refine ⟨_, _, rfl, rfl, hs.onBus h _ ?_⟩
    rw [hs.checkLength]
    refine hs.checked _ _ ?_
    obtain ⟨vs, v, v', e, e', hv⟩ := hs.wire.readByteList s.timing s'.timing (s.pinOf h) len
    rw [hs.pinOf, e, e']
    exact ((hs.withWire hv).dbufStoreList vs).ret 0
  | skipRom h =>
    refine ⟨_, _, rfl, rfl, hs.onBus h _ ?_⟩
    rw [hs.pinOf]
    exact (hs.withWire (hs.wire.writeByte _ _ _ cmdSkipRom)).ret 0
  | readRom h =>
    refine ⟨_, _, rfl, rfl, hs.onBus h _ ?_⟩
    obtain ⟨presence, v, v', e, e', hv⟩ := hs.wire.resetSlot s.timing s'.timing (s.pinOf h)
    rw [hs.pinOf, e, e']
    cases presence with
    | false => exact (hs.withWire hv).raise _
    | true =>
      obtain ⟨vs, x, x', p, p', hx⟩ :=
        (hv.writeByte s.timing s'.timing (s.pinOf h) cmdReadRom).readByteList s.timing s'.timing (s.pinOf h) 8
      simp only [p, p']
      split
      · exact ((hs.withWire hx).dbufStoreList vs).ret 0
      · exact (hs.withWire hx).raise _
  | matchRom h => exact ⟨_, _, rfl, rfl, hs.onBus h _ ((hs.withWire (hs.matchRom h hs.wire)).ret 0)⟩
  | select h =>
    refine ⟨_, _, rfl, rfl, hs.onBus h _ ?_⟩
    obtain ⟨presence, v, v', e, e', hv⟩ := hs.wire.resetSlot s.timing s'.timing (s.pinOf h)
    rw [hs.pinOf, e, e']
    cases presence with
    | false => exact (hs.withWire hv).raise _
    | true => exact (hs.withWire (hs.matchRom h hv)).ret 0
  | search h => exact ⟨_, _, rfl, rfl, hs.onBus h _ (hs.search h cmdSearchRom)⟩
  | alarmSearch h => exact ⟨_, _, rfl, rfl, hs.onBus h _ (hs.search h cmdAlarmSearch)⟩
  | resetSearch h => exact ⟨_, _, rfl, rfl, hs.onBus h _ ((hs.clearSearch h).ret 0)⟩
  | crc8 len =>
    refine ⟨_, _, rfl, rfl, ?_⟩
    rw [hs.checkLength]
    refine hs.checked _ _ ?_
    rw [hs.dbufBytes]
    exact hs.ret _
  | verify len =>
    refine ⟨_, _, rfl, rfl, ?_⟩
    rw [hs.checkLength]
    refine hs.checked _ _ ?_
    rw [hs.dbufBytes]
    split
    · exact hs.ret 0
    · exact hs.raise _

/-- Settles O56: a state and its copy under another table are the same but for timing, and `exec_sameButTiming` keeps them so. -/
theorem timingChangesOnlyDelayArguments : Obligations.TimingChangesOnlyDelayArguments := by
  intro i s t u tm ht hu
  obtain ⟨t', u', ht', hu', w, ⟨hw, htrace⟩, rfl⟩ := exec_sameButTiming i ⟨s.wire, ⟨rfl, rfl⟩, rfl⟩
  obtain rfl : t' = t := Host.Outcome.next.inj (ht'.symm.trans ht)
  obtain rfl := Host.Outcome.next.inj (hu'.symm.trans hu)
  refine ⟨?_, htrace⟩
  exact congrArg (fun w => { t' with cfg := { t'.cfg with timing := tm }, wire := w }) hw

end Sys2Proof.Machine
end

section
/-! SUPPORT. What an operation leaves of each part of the state, read off `Effect` and `State.acquire_cases`; and what it keeps of
the registry and of the lines (spec/10_state.md R22, R23; spec/20_memory.md R76). -/

namespace Sys2Proof.Machine

open Sys2Proof

/-- An operation is ACQUIRE, or does no more than `Effect` says. -/
theorem exec_cases {i : Instr} {s t : State} (h : exec i s = .next t) :
    (∃ pin, i = .acquire pin ∧ t = s.acquire pin) ∨ ((∀ pin, i ≠ .acquire pin) ∧ Effect i s t) := by
  by_cases hi : ∃ pin, i = .acquire pin
  · obtain ⟨pin, rfl⟩ := hi
    exact .inl ⟨pin, rfl, (Host.Outcome.next.inj h).symm⟩
  · have hi := not_exists.1 hi
    obtain ⟨t', ht', he⟩ := exec_effect i s hi
    obtain rfl : t' = t := Host.Outcome.next.inj (ht'.symm.trans h)
    exact .inr ⟨hi, he⟩

theorem searchFamily.handle {i : Instr} {h : Nat} (hf : searchFamily i h) : i.handle? = some h := by
  rcases hf with rfl | rfl | rfl <;> rfl

/-- ACQUIRE writes no slot but the one at `count` (40 R106). -/
theorem State.acquire_busAt_other (s : State) (pin : PinId) {k : Nat} (hk : k ≠ s.count) :
    (s.acquire pin).busAt k = s.busAt k := by
  rcases s.acquire_cases pin with ⟨_, _, e⟩ | ⟨_, _, e⟩ | ⟨_, _, e⟩ <;> rw [e]
  · rfl
  · rfl
  · exact s.busAt_setBus_other s.count k (Bus.acquired pin) hk

section
variable {i : Instr} {s t : State} (he : Effect i s t)
include he

theorem Effect.count : t.count = s.count := by
  obtain ⟨_, _, _, _, _, rfl, _⟩ := he
  rfl

/-- The registry is as before, or the search family wrote the slot of its handle and kept `pin` and `initialized`. -/
theorem Effect.busAt_cases :
    t.bus = s.bus ∨ ∃ h b, searchFamily i h ∧ (∀ k, t.busAt k = (s.setBus h b).busAt k) ∧ b.pin = (s.busAt h).pin ∧
      b.initialized = (s.busAt h).initialized := by
  obtain ⟨bus, _, _, _, _, rfl, _, hbus, _⟩ := he
  rcases hbus with hbus | ⟨h, b, hf, _, rfl, hpin, hinit, _⟩
  · exact .inl hbus
  · exact .inr ⟨h, b, hf, fun _ => rfl, hpin, hinit⟩

theorem Effect.busAt_other {k : Nat} (hk : i.handle? ≠ some k) : t.busAt k = s.busAt k := by
  rcases he.busAt_cases with hbus | ⟨h, b, hf, hbus, _, _⟩
  · rw [State.busAt, hbus, State.busAt]
  · have hkh : k ≠ h := fun e => hk (e ▸ hf.handle)
    rw [hbus, s.busAt_setBus_other h k b hkh]

/-- No slot changes its pin or its `initialized` (10 R22, R23). -/
theorem Effect.binding (k : Nat) :
    (t.busAt k).pin = (s.busAt k).pin ∧ (t.busAt k).initialized = (s.busAt k).initialized := by
  rcases he.busAt_cases with hbus | ⟨h, b, _, hbus, hpin, hinit⟩
  · rw [State.busAt, hbus, State.busAt]
    exact ⟨rfl, rfl⟩
  · rw [hbus, State.busAt_setBus]
    split
    · next hk => rw [hk.1]; exact ⟨hpin, hinit⟩
    · exact ⟨rfl, rfl⟩

theorem Effect.bus_eq (hi : ∀ h, ¬ searchFamily i h) : t.bus = s.bus := by
  rcases he.busAt_cases with hbus | ⟨h, _, hf, _⟩
  · exact hbus
  · exact absurd hf (hi h)

/-- The wire side is as slots on the handle's pin leave it. -/
theorem Effect.wire {h : Nat} (hh : i.handle? = some h) :
    ∃ slots, t.wire = s.wire.play s.cfg.timing slots ∧ ∀ x ∈ slots, x.pin = (s.busAt h).pin := by
  obtain ⟨_, _, _, slots, _, rfl, _, _, _, _, hpins⟩ := he
  refine ⟨slots, rfl, fun x hx => ?_⟩
  obtain ⟨h', hh', hx⟩ := hpins x hx
  obtain rfl : h = h' := Option.some.inj (hh.symm.trans hh')
  exact hx

end

/-- Slots on one pin add events that name that pin or none. -/
theorem slots_events_pin (t : Timing) {slots : List Slot} {pin : PinId} (h : ∀ x ∈ slots, x.pin = pin) :
    ∀ e ∈ slots.flatMap (slotEvents t), e.pin? = none ∨ e.pin? = some pin := by
  intro e he
  obtain ⟨slot, hslot, he⟩ := List.mem_flatMap.1 he
  rw [← h slot hslot]
  exact slotEvents_pin t slot e he

/-- Settles O52: ACQUIRE writes at `count` alone, and `Effect` bounds what every other operation writes. -/
theorem onlyTheNamedSlotChanges : Obligations.OnlyTheNamedSlotChanges := by
  intro i s t h
  rcases exec_cases h with ⟨pin, rfl, rfl⟩ | ⟨hi, he⟩
  · exact ⟨fun _ _ _ hk => s.acquire_busAt_other pin hk, fun hi => absurd rfl (hi pin)⟩
  · refine ⟨fun pin hp => absurd hp (hi pin), fun _ => ⟨he.count, fun _ => he.busAt_other, he.binding, fun hn => ?_⟩⟩
    exact he.bus_eq fun h hf => by
      obtain ⟨h1, h2, h3⟩ := hn h
      rcases hf with hf | hf | hf
      · exact h1 hf
      · exact h2 hf
      · exact h3 hf

/-- Settles O53: an operation on a handle plays slots on the pin of its bus. -/
theorem everyEventNamesTheBusPin : Obligations.EveryEventNamesTheBusPin := by
  intro i s t h hh ht
  rcases exec_cases ht with ⟨pin, rfl, _⟩ | ⟨_, he⟩
  · cases hh
  · obtain ⟨slots, hwire, hpins⟩ := he.wire hh
    rw [hwire]
    exact ⟨_, Wire.play_trace _ _ slots, slots_events_pin _ hpins,
      fun pin hpin => Wire.play_drive_other _ _ slots _ pin hpins hpin⟩

end Sys2Proof.Machine
end

section
/-! SUPPORT. The machine's invariant (spec/10_state.md R29, R33 to R35): it holds after every reset, and every step keeps it.
An accepted command leaves a busy engine, in which the invariant waits for the response; `State.InvOnceAnswered` is what holds
in between, and every change an operation makes before its response keeps that. -/

namespace Sys2Proof.Machine

open Sys2Proof

/-! ### Reset (10 R42, 70 R230) -/

theorem State.take_hardReset {s : State} {rest : List HostInput} (h : s.host = .hardReset :: rest) :
    s.take = .hardReset rest := by
  simp only [State.take, h]

theorem step_hardReset {s : State} {rest : List HostInput} (h : s.host = .hardReset :: rest) :
    step s = .next (s.hardReset rest) := by
  simp only [step, State.take_hardReset h]

theorem State.resetWith_busAt (c : Config) (epoch h : Nat) : (State.resetWith c epoch).busAt h = Bus.free := by
  by_cases hh : h < c.nBus <;> simp [State.busAt, State.resetWith, hh]

/-- Settles O9: the step is `State.hardReset`, whose fields are the table's. -/
theorem hardwareResetLeavesTheResetValues : Obligations.HardwareResetLeavesTheResetValues := by
  intro s rest hs
  refine ⟨s.hardReset rest, step_hardReset hs, rfl, fun h hh => ?_, List.length_replicate, fun _ => rfl, fun _ => rfl, rfl, rfl,
    rfl, rfl, rfl, fun _ => rfl, rfl, rfl, rfl⟩
  show (List.replicate s.cfg.nBus Bus.free)[h]? = some Bus.free
  rw [List.getElem?_replicate, if_pos hh]

/-- The invariant after a reset, whatever the host and the environment have still to offer. -/
theorem State.resetWith_inv {c : Config} (hc : c.sized) (epoch : Nat) (rest : List HostInput) (answers : List Level)
    (samples : Nat) :
    State.Inv { State.resetWith c epoch with host := rest, wire := Wire.idle answers samples } where
  sized := hc
  slots := List.length_replicate
  countLe := Nat.zero_le _
  allocated := fun h hh => absurd hh (Nat.not_lt_zero h)
  free := fun h _ => State.resetWith_busAt c epoch h
  distinct := fun h _ hh => absurd hh (Nat.not_lt_zero h)
  buffer := Memory.reset_wf c.lBuf c epoch
  idle := ⟨rfl, rfl, rfl⟩
  response := fun h => Bool.noConfusion h
  trace := rfl

/-- Settles O12, as the case of `State.resetWith_inv` with nothing offered. -/
theorem invariantHoldsAfterReset : Obligations.InvariantHoldsAfterReset :=
  ⟨fun _ epoch hc => State.resetWith_inv hc epoch [] [] 0, State.resetWith_inv (by decide) 0 [] [] 0⟩

/-! ### The invariant while a command runs -/

/-- The invariant holds as soon as a response is written. -/
def State.InvOnceAnswered (s : State) : Prop := ∀ w, isResponse w → (s.answered w).Inv

/-- Acceptance touches only the handshake (30 R81). -/
theorem State.Inv.accept {s : State} (h : s.Inv) (w : Word) (rest : List HostInput) : (s.accept w rest).InvOnceAnswered :=
  fun _ hv => { h with idle := ⟨rfl, h.idle.2⟩, response := fun _ => hv }

namespace State.InvOnceAnswered

variable {s : State} (hs : s.InvOnceAnswered)
include hs

/-- Slots keep the wire idle and the trace disciplined (41 R137, 60 R217). -/
theorem played (slots : List Slot) : (s.played slots).InvOnceAnswered := by
  intro w hw
  have hi := hs w hw
  obtain ⟨_, hcrit, hdriven⟩ := hi.idle
  obtain ⟨hdriven', hcrit'⟩ := Wire.play_idle s.cfg.timing s.wire slots hdriven hcrit
  refine { hi with idle := ⟨rfl, hcrit', hdriven'⟩, trace := ?_ }
  show disciplined (s.wire.play s.cfg.timing slots).trace
  rw [Wire.play_trace]
  exact disciplined_append _ _ hi.trace (disciplined_slots _ slots)

/-- Stores within `L_BUF` keep DBUF's canonical form (20 R46). -/
theorem storeList (first : Nat) (vs : List Byte)
    (hl : 8 ≤ s.cfg.lBuf → vs ≠ [] → first + vs.length ≤ s.cfg.lBuf) :
    State.InvOnceAnswered { s with dbuf := Memory.storeList s.dbuf first vs } := by
  intro w hw
  have hi := hs w hw
  obtain ⟨_, h8, _⟩ := hi.sized
  refine { hi with buffer := ?_ }
  cases vs with
  | nil => exact hi.buffer
  | cons v vs => exact Memory.storeList_wf _ _ _ _ hi.buffer (hl h8 (List.cons_ne_nil v vs))

/-- An initialized slot is an allocated one (10 R23, R29 (vi)). -/
theorem lt_count_of_initialized {h : Nat} (hu : (s.busAt h).initialized = true) : h < s.count := by
  by_contra hn
  have hfree : s.busAt h = Bus.free := (hs _ (isResponse_okWord 0)).free h (Nat.le_of_not_lt hn)
  rw [hfree] at hu
  exact Bool.noConfusion hu

/-- A write to an allocated slot that keeps the slot's pin and its invariant. -/
theorem setBus {h : Nat} {b : Bus} (hu : (s.busAt h).initialized = true) (hpin : b.pin = (s.busAt h).pin)
    (hinv : (s.busAt h).inv → b.inv) : (s.setBus h b).InvOnceAnswered := by
  intro w hw
  have hi := hs w hw
  have hcount := hs.lt_count_of_initialized hu
  have hsame := s.busAt_setBus_same h b (s.lt_length_of_initialized h hu)
  have hpins : ∀ k, ((s.setBus h b).busAt k).pin = (s.busAt k).pin := by
    intro k
    by_cases hk : k = h
    · rw [hk, hsame, hpin]
    · rw [s.busAt_setBus_other h k b hk]
  refine { hi with
    slots := (List.length_set ..).trans hi.slots
    allocated := fun k hk => ?_
    free := fun k hk => ?_
    distinct := fun j k hj hk e => hi.distinct j k hj hk ((hpins j).symm.trans (e.trans (hpins k))) }
  · show ((s.setBus h b).busAt k).inv
    by_cases hkh : k = h
    · rw [hkh, hsame]
      exact hinv (hi.allocated h hcount)
    · rw [s.busAt_setBus_other h k b hkh]
      exact hi.allocated k hk
  · have hkh : k ≠ h := Nat.ne_of_gt (Nat.lt_of_lt_of_le hcount hk)
    exact (s.busAt_setBus_other h k b hkh).trans (hi.free k hk)

/-- Allocation of the slot at `count` for a pin that no allocated slot holds (40 R106). -/
theorem allocate {pin : PinId} (hpin : s.findPin pin = none) (hroom : s.count ≠ s.cfg.nBus) :
    (s.allocate pin).InvOnceAnswered := by
  intro w hw
  have hi := hs w hw
  have hlt : s.count < s.cfg.nBus := Nat.lt_of_le_of_ne hi.countLe hroom
  have hnew : (s.allocate pin).busAt s.count = Bus.acquired pin :=
    s.busAt_setBus_same s.count _ (hi.slots.symm ▸ hlt)
  have hold : ∀ k, k ≠ s.count → (s.allocate pin).busAt k = s.busAt k := fun k => s.busAt_setBus_other s.count k _
  have hfresh := (s.findPin_none pin).1 hpin
  have hne : ∀ k, k < s.count → ((s.allocate pin).busAt k).pin ≠ ((s.allocate pin).busAt s.count).pin := by
    intro k hk
    rw [hnew, hold k hk.ne]
    exact hfresh k hk
  obtain ⟨_, hcrit, (hdriven : s.wire.driven = [])⟩ := hi.idle
  refine { hi with
    slots := (List.length_set ..).trans hi.slots
    countLe := hlt
    allocated := fun k hk => ?_
    free := fun k hk => ?_
    distinct := fun j k hj hk e => ?_
    idle := ⟨rfl, hcrit, ?_⟩
    trace := ?_ }
  · show ((s.allocate pin).busAt k).inv
    rcases Nat.lt_succ_iff_lt_or_eq.1 hk with hk | rfl
    · rw [hold k hk.ne]
      exact hi.allocated k hk
    · rw [hnew]
      exact ⟨rfl, Nat.zero_le _, Nat.zero_le _, romCrc_zero, .inl ⟨rfl, rfl, rfl, rfl⟩⟩
  · exact (hold k (Nat.ne_of_gt hk)).trans (hi.free k (Nat.le_of_succ_le hk))
  · rcases Nat.lt_succ_iff_lt_or_eq.1 hj with hj | rfl <;> rcases Nat.lt_succ_iff_lt_or_eq.1 hk with hk | rfl
    · refine hi.distinct j k hj hk ?_
      rwa [State.answered_busAt, State.answered_busAt, hold j hj.ne, hold k hk.ne] at e
    · exact absurd e (hne j hj)
    · exact absurd e.symm (hne k hk)
    · rfl
  · simp [hdriven]
  · show disciplined (Wire.release pin s.wire).trace
    rw [Wire.trace, Wire.release_events, List.reverse_cons]
    exact disciplined_append _ _ hi.trace rfl

/-- ACQUIRE ends in the invariant, all three ways (40 R106). -/
theorem acquire_inv (pin : PinId) : (s.acquire pin).Inv := by
  rcases s.acquire_cases pin with ⟨_, _, e⟩ | ⟨_, _, e⟩ | ⟨hpin, hroom, e⟩ <;> rw [e]
  · exact hs _ (isResponse_okWord _)
  · exact hs _ (isResponse_failWord .registryFull (by decide))
  · exact hs.allocate hpin hroom _ (isResponse_okWord _)

/-- Whatever `Effect` allows ends in the invariant: the slots, then the stores, then the slot written, then the response. -/
theorem effect_inv {i : Instr} {t : State} (he : Effect i s t) : t.Inv := by
  obtain ⟨bus, vs, first, slots, w, rfl, hw, hbus, _, hlen, _⟩ := he
  have hd := (hs.played slots).storeList first vs hlen
  rcases hbus with rfl | ⟨h, b, _, ⟨_, hinit⟩, rfl, hpin, _, hinv⟩
  · exact hd w hw
  · exact hd.setBus hinit hpin hinv w hw

/-- Every operation ends in the invariant. -/
theorem exec_inv {i : Instr} {t : State} (h : exec i s = .next t) : t.Inv := by
  rcases exec_cases h with ⟨pin, _, rfl⟩ | ⟨_, he⟩
  · exact hs.acquire_inv pin
  · exact hs.effect_inv he

theorem illegalCommand_inv : s.illegalCommand.Inv := by
  rw [State.illegalCommand, State.raise_eq _ _ (by decide)]
  exact hs _ (isResponse_failWord .illegalCommand (by decide))

end State.InvOnceAnswered

/-- Settles O13: a step does nothing, resets, or accepts a command and runs it to its response. -/
theorem everyStepKeepsTheInvariant : Obligations.EveryStepKeepsTheInvariant := by
  intro s t hs h
  rcases step_cases h with ⟨_, rfl⟩ | ⟨rest, _, rfl⟩ | ⟨w, rest, i, _, _, he⟩ | ⟨w, rest, op, _, _, rfl⟩
  · exact hs
  · exact State.resetWith_inv hs.sized _ rest _ _
  · exact (hs.accept w rest).exec_inv he
  · exact (hs.accept w rest).illegalCommand_inv

end Sys2Proof.Machine
end

section
/-! SUPPORT. The lines of all pins over a sequence of slots (spec/20_memory.md R66, R76): the line of a pin sees the slots of that
pin and no others. -/

namespace Sys2Proof.Machine

open Sys2Proof

@[simp] theorem slotsOfPin_cons_same (slot : Slot) (slots : List Slot) :
    slotsOfPin slot.pin (slot :: slots) = slot :: slotsOfPin slot.pin slots := by
  simp [slotsOfPin]

theorem slotsOfPin_cons_other {slot : Slot} {pin : PinId} (h : pin ≠ slot.pin) (slots : List Slot) :
    slotsOfPin pin (slot :: slots) = slotsOfPin pin slots := by
  simp [slotsOfPin, h.symm]

theorem slotsOfPin_eq_nil {slots : List Slot} {pin : PinId} (h : ∀ slot ∈ slots, slot.pin ≠ pin) :
    slotsOfPin pin slots = [] := by
  simpa [slotsOfPin] using h

/-- After any slots, the line of a pin is as the slots of that pin leave it (20 R76). -/
theorem Lines.afterAll_pin (ls : Lines) (slots : List Slot) (pin : PinId) :
    ls.afterAll slots pin = (ls pin).afterAll (slotsOfPin pin slots) := by
  induction slots generalizing ls with
  | nil => rfl
  | cons slot slots ih =>
    refine (ih (ls.after slot)).trans ?_
    by_cases h : pin = slot.pin
    · subst h
      rw [Lines.after_same, slotsOfPin_cons_same]
      rfl
    · rw [Lines.after_other _ _ _ h, slotsOfPin_cons_other h]

/-- One slot more asks its own pin's line for one answer more, and no other line. -/
theorem Lines.agrees_slotsOfPin_cons (ls : Lines) (slot : Slot) (slots : List Slot) (pin : PinId) :
    (ls pin).agrees (slotsOfPin pin (slot :: slots)) = true ↔
      (pin = slot.pin → (ls pin).answers slot = true) ∧ (ls.after slot pin).agrees (slotsOfPin pin slots) = true := by
  by_cases h : pin = slot.pin
  · subst h
    simp [Line.agrees]
  · simp [Lines.after_other _ _ _ h, slotsOfPin_cons_other h, h]

/-- The answers of a sequence are right exactly if each line's are, for the slots of its pin (20 R76). -/
theorem Lines.agrees_iff_each_line (ls : Lines) (slots : List Slot) :
    ls.agrees slots = true ↔ ∀ pin, (ls pin).agrees (slotsOfPin pin slots) = true := by
  induction slots generalizing ls with
  | nil => simp [Lines.agrees, slotsOfPin, Line.agrees]
  | cons slot slots ih =>
    simp only [Lines.agrees_slotsOfPin_cons, forall_and, forall_eq, ← ih, Lines.agrees, Bool.and_eq_true]

theorem Line.afterAll_legal (l : Line) (slots : List Slot) : (l.afterAll slots).legal ↔ l.legal := by
  induction slots generalizing l with
  | nil => rfl
  | cons slot slots ih => exact (ih (l.after slot)).trans (l.after_legal slot)

/-- Settles O44: what each line sees of the slots decides its state, its answers and so its legality. -/
theorem linesAreIndependentAndStayLegal : Obligations.LinesAreIndependentAndStayLegal := by
  intro ls slots
  refine ⟨ls.afterAll_pin slots, ls.agrees_iff_each_line slots, fun pin h => ?_, fun pin h => ?_⟩
  · rw [Lines.afterAll_pin, slotsOfPin_eq_nil h]
    rfl
  · rw [Lines.afterAll_pin]
    exact (Line.afterAll_legal _ _).2 h

end Sys2Proof.Machine
end

section
/-! SUPPORT. DBUF over one operation (spec/20_memory.md R46, R48): bytes outside the stored ones read as before. -/

namespace Sys2Proof.Machine

open Sys2Proof

theorem State.acquire_dbufByte (s : State) (pin : PinId) (a : Nat) : (s.acquire pin).dbufByte a = s.dbufByte a := by
  rcases s.acquire_cases pin with ⟨_, _, e⟩ | ⟨_, _, e⟩ | ⟨_, _, e⟩ <;> rw [e] <;> rfl

theorem Memory.lookup_storeList_outside (vs : List Byte) (m : Memory) {a b : Nat} (h : ¬ (a ≤ b ∧ b < a + vs.length)) :
    Memory.lookup (Memory.storeList m a vs) b = Memory.lookup m b := by
  rw [Memory.lookup_storeList, if_neg h]

/-- `Effect` stores only where `storesTo` says. -/
theorem Effect.dbufByte {i : Instr} {s t : State} (he : Effect i s t) {a : Nat} (ha : ¬ storesTo i a) :
    t.dbufByte a = s.dbufByte a := by
  obtain ⟨_, vs, first, _, _, rfl, _, _, hstores, _, _⟩ := he
  have houtside : ¬ (first ≤ a ∧ a < first + vs.length) := fun h => ha (hstores a h.1 h.2)
  exact congrArg (·.getD (Config.freeDbuf s.epoch a)) (Memory.lookup_storeList_outside vs s.dbuf houtside)

/-- Settles O51: ACQUIRE stores nothing, and `Effect` bounds what every other operation stores. -/
theorem onlyStoredBufferBytesChange : Obligations.OnlyStoredBufferBytesChange := by
  intro i s t a h ha
  rcases exec_cases h with ⟨pin, _, rfl⟩ | ⟨_, he⟩
  · exact s.acquire_dbufByte pin a
  · exact he.dbufByte ha

end Sys2Proof.Machine
end

section
/-! SUPPORT. The normal form of a trace (spec/20_memory.md R60). `isNormal` says what a normal trace is; `normalTrace` gives one
and leaves one alone; and it depends on the rest of a trace only through the rest's own normal form. -/

namespace Sys2Proof.Machine

open Sys2Proof

theorem Event.delay_or_other (e : Event) : (∃ n, e = .delay n) ∨ e.isDelay = false := by
  cases e with
  | delay n => exact .inl ⟨n, rfl⟩
  | _ => exact .inr rfl

/-- The trace does not begin with a `Delay`. -/
def noDelayFirst (tr : List Event) : Prop := ∀ e ∈ tr.head?, e.isDelay = false

/-- A trace with no `Delay(0)` and no two delays in a row: what R60 leaves. -/
def isNormal (tr : List Event) : Prop :=
  Event.delay 0 ∉ tr ∧ tr.IsChain fun x y => x.isDelay = true → y.isDelay = false

/-! ### Normal traces -/

theorem isNormal_nil : isNormal [] := ⟨List.not_mem_nil, .nil⟩

theorem isNormal_cons_delay (n : Nat) (es : List Event) :
    isNormal (.delay n :: es) ↔ n ≠ 0 ∧ noDelayFirst es ∧ isNormal es := by
  simp [isNormal, noDelayFirst, List.isChain_cons, Event.isDelay, eq_comm (a := 0), and_assoc, and_left_comm]

theorem isNormal_cons_other {e : Event} (h : e.isDelay = false) (es : List Event) : isNormal (e :: es) ↔ isNormal es := by
  have h0 : Event.delay 0 ≠ e := fun h' => by simp [← h', Event.isDelay] at h
  simp [isNormal, List.isChain_cons, h, h0]

/-- `isNormal` in the words of the statement. -/
theorem isNormal_iff (tr : List Event) :
    isNormal tr ↔ Event.delay 0 ∉ tr ∧ ∀ (a b : List Event) (m n : Nat), tr ≠ a ++ .delay m :: .delay n :: b := by
  refine and_congr_right fun _ => List.isChain_iff_forall_rel_of_append_cons_cons.trans
    ⟨fun h a b m n e => absurd (h e rfl) (by simp [Event.isDelay]), fun h x y a b e hx => ?_⟩
  obtain ⟨m, rfl⟩ := x.delay_or_other.resolve_right (by simp [hx])
  exact y.delay_or_other.resolve_left fun ⟨n, hy⟩ => h a b m n (hy ▸ e)

/-! ### `prependDelay` -/

theorem prependDelay_of_noDelayFirst {es : List Event} (h : noDelayFirst es) (n : Nat) :
    prependDelay n es = if n = 0 then es else .delay n :: es := by
  match es, h with
  | [], _ => rfl
  | .delay m :: es, h => exact absurd (h _ rfl) (by simp [Event.isDelay])
  | .driveLow _ :: _, _ | .release _ :: _, _ | .sample _ _ :: _, _ | .critEnter :: _, _ | .critLeave :: _, _ => rfl

/-- A delay put before a trace is merged with a delay there, or else is dropped if it is 0, or else stands. -/
theorem prependDelay_cases (n : Nat) (es : List Event) :
    (∃ m rest, es = .delay m :: rest ∧ prependDelay n es = .delay (n + m) :: rest) ∨
    (noDelayFirst es ∧ prependDelay n es = if n = 0 then es else .delay n :: es) := by
  by_cases h : noDelayFirst es
  · exact .inr ⟨h, prependDelay_of_noDelayFirst h n⟩
  · simp only [noDelayFirst, not_forall] at h
    obtain ⟨e, he, hd⟩ := h
    obtain ⟨rest, rfl⟩ := List.head?_eq_some_iff.1 he
    obtain ⟨m, rfl⟩ := e.delay_or_other.resolve_right hd
    exact .inl ⟨m, rest, rfl, rfl⟩

@[simp] theorem prependDelay_zero (es : List Event) : prependDelay 0 es = es := by
  rcases prependDelay_cases 0 es with ⟨m, rest, rfl, e⟩ | ⟨_, e⟩ <;> simp [e]

theorem prependDelay_prependDelay (m n : Nat) (es : List Event) :
    prependDelay m (prependDelay n es) = prependDelay (m + n) es := by
  rcases prependDelay_cases n es with ⟨k, rest, rfl, e⟩ | ⟨h, e⟩ <;> rw [e]
  · simp [prependDelay, Nat.add_assoc]
  · by_cases hn : n = 0
    · simp [hn]
    · rw [if_neg hn, prependDelay_of_noDelayFirst h, if_neg (by omega)]
      rfl

theorem isNormal_prependDelay (n : Nat) {es : List Event} (h : isNormal es) : isNormal (prependDelay n es) := by
  rcases prependDelay_cases n es with ⟨m, rest, rfl, e⟩ | ⟨hfirst, e⟩ <;> rw [e]
  · obtain ⟨hm, hrest⟩ := (isNormal_cons_delay m rest).1 h
    exact (isNormal_cons_delay _ _).2 ⟨by omega, hrest⟩
  · split
    · exact h
    · next hn => exact (isNormal_cons_delay _ _).2 ⟨hn, hfirst, h⟩

theorem delayTotal_prependDelay (n : Nat) (es : List Event) : delayTotal (prependDelay n es) = n + delayTotal es := by
  rcases prependDelay_cases n es with ⟨m, rest, rfl, e⟩ | ⟨_, e⟩ <;> rw [e]
  · simp [delayTotal, Event.micros, Nat.add_assoc]
  · split
    · next hn => rw [hn, Nat.zero_add]
    · rfl

theorem filter_prependDelay (n : Nat) (es : List Event) :
    (prependDelay n es).filter (fun e => !e.isDelay) = es.filter fun e => !e.isDelay := by
  rcases prependDelay_cases n es with ⟨m, rest, rfl, e⟩ | ⟨_, e⟩ <;> rw [e]
  · rfl
  · split <;> rfl

/-! ### `normalTrace` -/

@[simp] theorem normalTrace_cons_delay (n : Nat) (es : List Event) :
    normalTrace (.delay n :: es) = prependDelay n (normalTrace es) := rfl

theorem normalTrace_cons_other {e : Event} (h : e.isDelay = false) (es : List Event) :
    normalTrace (e :: es) = e :: normalTrace es := by
  cases e with
  | delay n => cases h
  | _ => rfl

theorem normalTrace_isNormal (tr : List Event) : isNormal (normalTrace tr) := by
  induction tr with
  | nil => exact isNormal_nil
  | cons e es ih =>
    rcases e.delay_or_other with ⟨n, rfl⟩ | h
    · exact isNormal_prependDelay n ih
    · rw [normalTrace_cons_other h]
      exact (isNormal_cons_other h _).2 ih

theorem normalTrace_of_isNormal {tr : List Event} (hn : isNormal tr) : normalTrace tr = tr := by
  induction tr with
  | nil => rfl
  | cons e es ih =>
    rcases e.delay_or_other with ⟨n, rfl⟩ | h
    · obtain ⟨hn0, hfirst, hes⟩ := (isNormal_cons_delay n es).1 hn
      rw [normalTrace_cons_delay, ih hes, prependDelay_of_noDelayFirst hfirst, if_neg hn0]
    · rw [normalTrace_cons_other h, ih ((isNormal_cons_other h es).1 hn)]

theorem delayTotal_normalTrace (tr : List Event) : delayTotal (normalTrace tr) = delayTotal tr := by
  induction tr with
  | nil => rfl
  | cons e es ih =>
    rcases e.delay_or_other with ⟨n, rfl⟩ | h
    · rw [normalTrace_cons_delay, delayTotal_prependDelay, ih]
      rfl
    · rw [normalTrace_cons_other h]
      exact congrArg (e.micros + ·) ih

theorem filter_normalTrace (tr : List Event) :
    (normalTrace tr).filter (fun e => !e.isDelay) = tr.filter fun e => !e.isDelay := by
  induction tr with
  | nil => rfl
  | cons e es ih =>
    rcases e.delay_or_other with ⟨n, rfl⟩ | h
    · exact (filter_prependDelay n _).trans ih
    · simp [normalTrace_cons_other h, h, ih]

/-- Behind any beginning, traces with one normal form may replace each other. -/
theorem normalTrace_append_congr (a : List Event) {b c : List Event} (h : sameBehaviour b c) :
    sameBehaviour (a ++ b) (a ++ c) := by
  induction a with
  | nil => exact h
  | cons e es ih =>
    rcases e.delay_or_other with ⟨n, rfl⟩ | he
    · exact congrArg (prependDelay n) ih
    · simpa [sameBehaviour, normalTrace_cons_other he] using ih

/-- Settles O59: `normalTrace` gives a normal trace and leaves one alone, and R60's two rewrites hold at the front of a trace, so
anywhere in it. -/
theorem traceNormalFormIsNormal : Obligations.TraceNormalFormIsNormal := by
  refine ⟨fun tr => ?_, fun a b => ?_, fun a b m n => ?_⟩
  · have hnormal := normalTrace_isNormal tr
    obtain ⟨hzero, hadjacent⟩ := (isNormal_iff _).1 hnormal
    exact ⟨hzero, hadjacent, normalTrace_of_isNormal hnormal, delayTotal_normalTrace tr, filter_normalTrace tr,
      fun h0 h => normalTrace_of_isNormal ((isNormal_iff tr).2 ⟨h0, h⟩)⟩
  · exact normalTrace_append_congr a (prependDelay_zero _)
  · exact normalTrace_append_congr a (prependDelay_prependDelay m n _)

end Sys2Proof.Machine
end

section
/-! SUPPORT. The decoder and the encoder say the same (spec/30_encoding.md R83 to R86, R99): a word decodes to an operation exactly
when the operation is well-formed and its encoding is the word's used bits, `decode_eq_instr_iff`. Both sides are brought to the
word's three fields: the decoder's through `Instr.readFrom`, the encoder's through `encode_eq_and_usedMask_iff`. -/

namespace Sys2Proof

/-! ### The decoder by opcode and operands -/

/-- The operation of the same kind with the operands `w` carries (30 R84). -/
def Instr.readFrom (w : Word) : Instr → Instr
  | .acquire _ => .acquire (fieldA w)
  | .lookup _ => .lookup (fieldA w)
  | .bufWr _ _ => .bufWr (operandA w) (operandByte w)
  | .bufRd _ => .bufRd (operandA w)
  | .rdState _ => .rdState (operandA w)
  | .rdRom _ _ => .rdRom (operandA w) (operandRomIndex w)
  | .reset _ => .reset (operandA w)
  | .writeBit _ _ => .writeBit (operandA w) (operandBit w)
  | .readBit _ => .readBit (operandA w)
  | .writeByte _ _ => .writeByte (operandA w) (operandByte w)
  | .readByte _ => .readByte (operandA w)
  | .writeBytes _ _ => .writeBytes (operandA w) (operandLen w)
  | .readBytes _ _ => .readBytes (operandA w) (operandLen w)
  | .skipRom _ => .skipRom (operandA w)
  | .readRom _ => .readRom (operandA w)
  | .matchRom _ => .matchRom (operandA w)
  | .select _ => .select (operandA w)
  | .search _ => .search (operandA w)
  | .alarmSearch _ => .alarmSearch (operandA w)
  | .resetSearch _ => .resetSearch (operandA w)
  | .crc8 _ => .crc8 (operandLen w)
  | .verify _ => .verify (operandLen w)

/-- The decoder reads the opcode to know the operation, and then its operands (30 R83, R84). -/
theorem decode_eq_instr_iff_readFrom (w : Word) (i : Instr) :
    decode w = .instr i ↔ fieldOp w = i.opcode ∧ i.readFrom w = i := by
  constructor
  · intro h
    unfold decode at h
    split at h
    all_goals cases h
    all_goals exact ⟨‹_›, rfl⟩
  · rintro ⟨hop, hi⟩
    rw [← hi]
    cases i <;> simp only [decode, hop, Instr.opcode] <;> rfl

theorem fieldOp_of_decode {w : Word} {i : Instr} (h : decode w = .instr i) : fieldOp w = i.opcode :=
  ((decode_eq_instr_iff_readFrom w i).1 h).1

/-! ### The fields of a word -/

theorem commandWord_fields (w : Word) : commandWord (fieldOp w) (fieldA w) (fieldArg w) = w := by
  apply BitVec.eq_of_getLsbD_eq
  intro n hn
  rw [getLsbD_commandWord]
  split
  · simp [fieldArg, *]
  · split
    · simp [fieldA, show n - 16 < 8 by omega, show 16 + (n - 16) = n by omega]
    · simp [fieldOp, show n - 24 < 8 by omega, show 24 + (n - 24) = n by omega]

theorem word_eq_iff (v w : Word) : v = w ↔ fieldOp v = fieldOp w ∧ fieldA v = fieldA w ∧ fieldArg v = fieldArg w := by
  refine ⟨by rintro rfl; exact ⟨rfl, rfl, rfl⟩, fun ⟨hop, ha, harg⟩ => ?_⟩
  rw [← commandWord_fields v, hop, ha, harg, commandWord_fields]

theorem fieldOp_and (v w : Word) : fieldOp (v &&& w) = fieldOp v &&& fieldOp w := BitVec.extractLsb'_and
theorem fieldA_and (v w : Word) : fieldA (v &&& w) = fieldA v &&& fieldA w := BitVec.extractLsb'_and
theorem fieldArg_and (v w : Word) : fieldArg (v &&& w) = fieldArg v &&& fieldArg w := BitVec.extractLsb'_and

/-- The fields of a word given as a number, so that `simp` evaluates those of the masks. -/
theorem fieldA_ofNat (n : Nat) : fieldA (BitVec.ofNat 32 n) = BitVec.ofNat 8 (n >>> 16) := by
  apply BitVec.eq_of_toNat_eq
  simp [fieldA, Nat.shiftRight_eq_div_pow]
  omega

theorem fieldArg_ofNat (n : Nat) : fieldArg (BitVec.ofNat 32 n) = BitVec.ofNat 16 n := by
  apply BitVec.eq_of_toNat_eq
  simp [fieldArg]

/-- Every operation uses the whole opcode. -/
theorem fieldOp_usedMask (i : Instr) : fieldOp i.usedMask = 0xFF := by
  cases i <;> simp only [Instr.usedMask] <;> rfl

/-- The encoder's side, field by field. -/
theorem encode_eq_and_usedMask_iff (w : Word) (i : Instr) :
    encode i = w &&& i.usedMask ↔
      fieldOp w = i.opcode ∧ i.aField = fieldA w &&& fieldA i.usedMask ∧ i.argField = fieldArg w &&& fieldArg i.usedMask := by
  have hop : fieldOp w &&& fieldOp i.usedMask = fieldOp w := by
    rw [fieldOp_usedMask]
    exact BitVec.and_allOnes
  rw [word_eq_iff, fieldOp_and, fieldA_and, fieldArg_and, fieldOp_encode, fieldA_encode, fieldArg_encode, hop,
    eq_comm (a := i.opcode)]

/-! ### Each operand as its field (30 R84) -/

/-- An operand of `k` bits stands alone in the `arg` field exactly when it is the field's low `k` bits. -/
theorem setWidth_eq_and_iff {k : Nat} (hk : k ≤ 16) (x : Half) (v : BitVec k) :
    v.setWidth 16 = x &&& BitVec.ofNat 16 (2 ^ k - 1) ↔ x.setWidth k = v := by
  have hpow : 2 ^ k ≤ 2 ^ 16 := Nat.pow_le_pow_right (by omega) hk
  have hmask : x &&& BitVec.ofNat 16 (2 ^ k - 1) = (x.setWidth k).setWidth 16 := by
    apply BitVec.eq_of_toNat_eq
    have hones : (2 ^ k - 1) % 2 ^ 16 = 2 ^ k - 1 := Nat.mod_eq_of_lt (by omega)
    have hlow : x.toNat % 2 ^ k < 2 ^ 16 := (Nat.mod_lt _ (Nat.two_pow_pos k)).trans_le hpow
    rw [BitVec.toNat_and, BitVec.toNat_ofNat, hones, Nat.and_two_pow_sub_one_eq_mod, BitVec.toNat_setWidth,
      BitVec.toNat_setWidth, Nat.mod_eq_of_lt hlow]
  rw [hmask]
  constructor
  · intro h
    simpa [BitVec.setWidth_setWidth_of_le _ hk] using (congrArg (BitVec.setWidth k) h).symm
  · rintro rfl
    rfl

section
variable (w : Word)

theorem operandA_eq_iff (n : Nat) : operandA w = n ↔ n < 256 ∧ BitVec.ofNat 8 n = fieldA w := by
  rw [operandA, BitVec.toNat_eq_nat, eq_comm (a := fieldA w)]

theorem operandLen_eq_iff (n : Nat) : operandLen w = n ↔ n < 65536 ∧ BitVec.ofNat 16 n = fieldArg w := by
  rw [operandLen, BitVec.toNat_eq_nat, eq_comm (a := fieldArg w)]

theorem operandByte_eq_iff (v : Byte) : operandByte w = v ↔ v.setWidth 16 = fieldArg w &&& 255#16 := by
  rw [operandByte_eq]
  exact (setWidth_eq_and_iff (by decide) _ v).symm

theorem operandRomIndex_eq_iff (k : Fin 8) : operandRomIndex w = k ↔ BitVec.ofNat 16 k.val = fieldArg w &&& 7#16 := by
  have hk : BitVec.ofNat 16 k.val = (BitVec.ofFin (w := 3) k).setWidth 16 := BitVec.eq_of_toNat_eq (by simp)
  rw [operandRomIndex_eq, hk]
  exact (BitVec.toFin_inj (y := BitVec.ofFin (w := 3) k)).trans (setWidth_eq_and_iff (k := 3) (by decide) _ _).symm

theorem operandBit_eq_iff (b : Bool) : operandBit w = b ↔ (BitVec.ofBool b).setWidth 16 = fieldArg w &&& 1#16 := by
  rw [operandBit_eq, ← BitVec.ofBool_eq_iff_eq, ← BitVec.setWidth_one]
  exact (setWidth_eq_and_iff (by decide) _ (BitVec.ofBool b)).symm

end

/-- A word carries an operation's operands exactly when they fit their fields and are what the word's used bits hold there. -/
theorem readFrom_eq_iff (w : Word) (i : Instr) :
    i.readFrom w = i ↔
      i.wf = true ∧ i.aField = fieldA w &&& fieldA i.usedMask ∧ i.argField = fieldArg w &&& fieldArg i.usedMask := by
  have ha : fieldA w &&& 255#8 = fieldA w := BitVec.and_allOnes
  have harg : fieldArg w &&& 65535#16 = fieldArg w := BitVec.and_allOnes
  cases i <;>
    simp [Instr.readFrom, Instr.wf, Instr.handle?, Instr.index?, Instr.length?, Instr.aField, Instr.argField, Instr.usedMask,
      operandA_eq_iff, operandLen_eq_iff, operandByte_eq_iff, operandBit_eq_iff, operandRomIndex_eq_iff,
      fieldA_ofNat, fieldArg_ofNat, ha, harg, and_assoc, and_left_comm, eq_comm (a := fieldA w)]

/-! ### The decoder and the encoder -/

/-- A word decodes to a well-formed operation whose encoding is its used bits, and to nothing else. -/
theorem decode_eq_instr_iff (w : Word) (i : Instr) :
    decode w = .instr i ↔ i.wf = true ∧ encode i = w &&& i.usedMask := by
  rw [decode_eq_instr_iff_readFrom, readFrom_eq_iff, encode_eq_and_usedMask_iff, and_left_comm]

/-- An encoding carries used bits only: `Laws.UsedBits`, for every operation. -/
theorem encode_and_usedMask (i : Instr) : encode i &&& i.usedMask = encode i := by
  open Laws.UsedBits in
  cases i with
  | acquire pin => exact (acquire pin).1
  | lookup pin => exact (lookup pin).1
  | bufWr idx byte => exact (bufWr idx byte).1
  | bufRd idx => exact (bufRd idx).1
  | rdState h => exact (rdState h).1
  | rdRom h k => exact (rdRom h k).1
  | reset h => exact (reset h).1
  | writeBit h bit => exact (writeBit h bit).1
  | readBit h => exact (readBit h).1
  | writeByte h byte => exact (writeByte h byte).1
  | readByte h => exact (readByte h).1
  | writeBytes h len => exact (writeBytes h len).1
  | readBytes h len => exact (readBytes h len).1
  | skipRom h => exact (skipRom h).1
  | readRom h => exact (readRom h).1
  | matchRom h => exact (matchRom h).1
  | select h => exact (select h).1
  | search h => exact (search h).1
  | alarmSearch h => exact (alarmSearch h).1
  | resetSearch h => exact (resetSearch h).1
  | crc8 len => exact (crc8 len).1
  | verify len => exact (verify len).1

/-- Settles O1: an encoding is its own used bits. -/
theorem decodeOfEncodeIsTheInstruction : Obligations.DecodeOfEncodeIsTheInstruction :=
  fun i hwf => (decode_eq_instr_iff _ i).2 ⟨hwf, (encode_and_usedMask i).symm⟩

/-- Settles O2: `decode_eq_instr_iff` speaks of the word's used bits alone. -/
theorem unusedCommandBitsAreIgnored : Obligations.UnusedCommandBitsAreIgnored := by
  intro w i h
  obtain ⟨hwf, henc⟩ := (decode_eq_instr_iff w i).1 h
  exact ⟨henc, fun w' hw' => (decode_eq_instr_iff w' i).2 ⟨hwf, henc.trans hw'.symm⟩⟩

/-- Settles O3: the first half of `decode_eq_instr_iff`. -/
theorem decodedInstructionIsWellFormed : Obligations.DecodedInstructionIsWellFormed := by
  intro w i h
  obtain ⟨hwf, _⟩ := (decode_eq_instr_iff w i).1 h
  exact hwf

/-- Settles O4, by running the decoder on the nine words. -/
theorem vectorWordsDecodeAsListed : Obligations.VectorWordsDecodeAsListed := by
  unfold Obligations.VectorWordsDecodeAsListed
  decide

end Sys2Proof
end

section
/-! SUPPORT. The step on an offered command (spec/30_encoding.md R80 to R82, R87): what it runs, and that it ends with one response
of R88's form. -/

namespace Sys2Proof.Machine

open Sys2Proof

/-! ### What a step runs -/

section
variable {s : State} {w : Word} {rest : List HostInput} (hbusy : s.busy = false) (hhost : s.host = .command w :: rest)
include hbusy hhost

theorem State.take_command : s.take = .command w rest := by
  simp [State.take, State.cmdReady, hbusy, hhost]

theorem step_instr {i : Instr} (hd : decode w = .instr i) : step s = exec i (s.accept w rest) := by
  simp only [step, State.take_command hbusy hhost, hd]

theorem step_reserved {op : Byte} (hd : decode w = .reserved op) : step s = .next (s.accept w rest).illegalCommand := by
  simp only [step, State.take_command hbusy hhost, hd]

end

theorem State.take_nothing {s : State} (h : s.host = [] ∨ ∃ w rest, s.busy = true ∧ s.host = .command w :: rest) :
    s.take = .nothing := by
  rcases h with hhost | ⟨w, rest, hbusy, hhost⟩
  · simp only [State.take, hhost]
  · simp [State.take, State.cmdReady, hbusy, hhost]

theorem step_of_take_nothing {s : State} (h : s.take = .nothing) : step s = .next s := by
  simp only [step, h]

/-- Settles O6: the state is the one with the command accepted. -/
theorem stepRunsTheDecodedCommand : Obligations.StepRunsTheDecodedCommand :=
  fun _ _ _ _ hbusy hhost hd => step_instr hbusy hhost hd

/-- Settles O8: in neither case is anything taken from the host. -/
theorem nothingHappensWithoutAnAcceptedCommand : Obligations.NothingHappensWithoutAnAcceptedCommand :=
  fun _ h => step_of_take_nothing (State.take_nothing h)

/-! ### Reserved opcodes (30 R87) -/

/-- The six reserved ranges. -/
abbrev reservedOpcode (op : Byte) : Prop :=
  op = 0x00 ∨ (0x07 ≤ op ∧ op ≤ 0x0F) ∨ (0x17 ≤ op ∧ op ≤ 0x1F) ∨ (0x24 ≤ op ∧ op ≤ 0x2F) ∨ (0x33 ≤ op ∧ op ≤ 0x3F) ∨
    0x42 ≤ op

theorem not_reservedOpcode (i : Instr) : ¬ reservedOpcode i.opcode := by
  cases i <;> simp only [Instr.opcode] <;> decide

/-- Settles O5: no operation has a reserved opcode, so the decoder rejects the word and the step answers `IllegalCommand`. -/
theorem reservedCommandAnswersIllegal : Obligations.ReservedCommandAnswersIllegal := by
  intro s w rest hbusy hhost hop
  cases hd : decode w with
  | instr i =>
    rw [fieldOp_of_decode hd] at hop
    exact absurd hop (not_reservedOpcode i)
  | reserved op => exact step_reserved hbusy hhost hd

/-! ### The handle check (30 R91) -/

/-- Every operation that names a handle goes through the guard. -/
theorem exec_eq_onBus {i : Instr} {h : Nat} (hh : i.handle? = some h) (s : State) :
    ∃ run, exec i s = .next (s.onBus h run) := by
  cases i <;> cases hh <;> exact ⟨_, rfl⟩

/-- Settles O11: the guard answers as R91 says, and under the invariant a slot from `count` on is a free one. -/
theorem everyHandleIsCheckedFirst : Obligations.EveryHandleIsCheckedFirst := by
  intro s i h hh
  obtain ⟨run, hrun⟩ := exec_eq_onBus hh s
  rw [hrun]
  refine ⟨guardedBy_onBus s h run, fun hinv hcount hlt => ?_⟩
  rw [s.onBus_uninitialized h run hlt (by rw [hinv.free h hcount]; rfl)]

/-! ### The response (30 R81, R88, R89) -/

/-- `t` is `s` with its command answered: the handshake of R81 done, and a response in `RSP`. -/
structure Responded (s t : State) : Prop where
  busy : t.busy = false
  rspValid : t.rspValid = true
  cmd : t.cmd = s.cmd
  host : t.host = s.host
  rsp : isResponse t.rsp

theorem exec_responded (i : Instr) (s : State) : ∃ t, exec i s = .next t ∧ Responded s t := by
  by_cases hi : ∃ pin, i = .acquire pin
  · obtain ⟨pin, rfl⟩ := hi
    refine ⟨_, rfl, ?_⟩
    rcases s.acquire_cases pin with ⟨_, _, e⟩ | ⟨_, _, e⟩ | ⟨_, _, e⟩ <;> rw [e]
    · exact ⟨rfl, rfl, rfl, rfl, isResponse_okWord _⟩
    · exact ⟨rfl, rfl, rfl, rfl, isResponse_failWord .registryFull (by decide)⟩
    · exact ⟨rfl, rfl, rfl, rfl, isResponse_okWord _⟩
  · obtain ⟨_, ht, _, _, _, _, _, rfl, hw, _⟩ := exec_effect i s (not_exists.1 hi)
    exact ⟨_, ht, rfl, rfl, rfl, rfl, hw⟩

theorem illegalCommand_responded (s : State) : Responded s s.illegalCommand :=
  ⟨rfl, rfl, rfl, rfl, .illegalCommand, 0, rfl, .inr rfl⟩

theorem step_responded {s : State} {w : Word} {rest : List HostInput} (hbusy : s.busy = false)
    (hhost : s.host = .command w :: rest) : ∃ t, step s = .next t ∧ Responded (s.accept w rest) t := by
  cases hd : decode w with
  | instr i =>
    rw [step_instr hbusy hhost hd]
    exact exec_responded i _
  | reserved op => exact ⟨_, step_reserved hbusy hhost hd, illegalCommand_responded _⟩

/-- The fields of a response word (30 R88). -/
theorem responseWord_fields (st : Status) (data : Half) :
    (responseWord st data).extractLsb' 28 3 = 0 ∧ (responseWord st data).extractLsb' 16 8 = 0 ∧
    (responseWord st data).extractLsb' 24 4 = st.code ∧ (responseWord st data).extractLsb' 0 16 = data ∧
    (responseWord st data).getLsbD 31 = decide (st = .ok) := by
  have hhigh : ∀ start len, (responseWord st data).extractLsb' (16 + start) len =
      (st.okBit ++ 0#3 ++ st.code ++ 0#8).extractLsb' start len := fun start len =>
    (BitVec.extractLsb'_append_eq_of_le (Nat.le_add_right 16 start)).trans (by rw [Nat.add_sub_cancel_left])
  have hbit : (responseWord st data).getLsbD 31 = (st.okBit ++ 0#3 ++ st.code ++ 0#8).getLsbD 15 := BitVec.getLsbD_append
  have hlow : (responseWord st data).extractLsb' 0 16 = data :=
    (BitVec.extractLsb'_append_eq_of_add_le (Nat.le_refl 16)).trans BitVec.extractLsb'_eq_self
  rw [hhigh 12, hhigh 0, hhigh 8, hbit, hlow]
  refine ⟨?_, ?_, ?_, rfl, ?_⟩ <;> cases st <;> decide

/-- The form R88 and R89 give a response. -/
theorem isResponse.form {v : Word} (h : isResponse v) :
    v.extractLsb' 28 3 = 0 ∧ v.extractLsb' 16 8 = 0 ∧ v.extractLsb' 24 4 ≤ 11 ∧
      (v.getLsbD 31 = true ↔ v.extractLsb' 24 4 = 0) ∧ (v.getLsbD 31 = false → v.extractLsb' 0 16 = 0) := by
  obtain ⟨st, data, rfl, hok⟩ := h
  obtain ⟨h28, h16, hstatus, hdata, h31⟩ := responseWord_fields st data
  rw [h28, h16, hstatus, hdata, h31]
  refine ⟨rfl, rfl, ?_, ?_, fun hst => hok.resolve_left (of_decide_eq_false hst)⟩
  · cases st <;> decide
  · cases st <;> decide

/-- Settles O7: an operation and a reserved command both end with a response, and every response has R88's form. -/
theorem everyAcceptedCommandGetsOneResponse : Obligations.EveryAcceptedCommandGetsOneResponse := by
  intro s w rest hbusy hhost
  obtain ⟨t, ht, hr⟩ := step_responded hbusy hhost
  exact ⟨t, ht, hr.busy, hr.rspValid, hr.cmd, hr.host, hr.rsp.form⟩

end Sys2Proof.Machine
end

section
/-! SUPPORT. The word an opcode stands for (spec/30_encoding.md R83 to R86), said once for every operation. -/

namespace Sys2Proof

@[simp] theorem Instr.opcode_readFrom (w : Word) (i : Instr) : (i.readFrom w).opcode = i.opcode := by
  cases i <;> rfl

@[simp] theorem Instr.readFrom_readFrom (w : Word) (i : Instr) : (i.readFrom w).readFrom w = i.readFrom w := by
  cases i <;> rfl

/-- Every word with an operation's opcode stands for that operation with the operands of the word. -/
theorem Machine.encodedAs_readFrom (i : Instr) : Machine.encodedAs i.opcode fun w => i.readFrom w :=
  fun w hop => (decode_eq_instr_iff_readFrom w _).2 ⟨hop.trans (i.opcode_readFrom w).symm, i.readFrom_readFrom w⟩

/-- The ROM index as the number in the low three bits of `arg` (30 R84). -/
theorem operandRomIndex_eq_ofNat (w : Word) : operandRomIndex w = Fin.ofNat 8 (fieldArg w).toNat := by
  rw [operandRomIndex_eq]
  exact Fin.ext (BitVec.toNat_setWidth 3 (fieldArg w))

end Sys2Proof
end

section
/-! SUPPORT. Registry, buffer and read-back operations (spec/40_registry.md): what each answers, and that they and the CRC
commands stay off the wire (R119; spec/44_crc8.md R185). -/

namespace Sys2Proof.Machine

open Sys2Proof

variable (s : State)

/-! ### ACQUIRE and LOOKUP (40 R106 to R109) -/

@[simp] theorem State.findPin_answered (w : Word) (pin : PinId) : (s.answered w).findPin pin = s.findPin pin := rfl

theorem State.acquire_found {pin : PinId} {h : Nat} (hf : s.findPin pin = some h) :
    s.acquire pin = s.answered (okWord (BitVec.ofNat 16 h)) := by
  simp only [State.acquire, hf, State.ret_eq]

theorem State.acquire_full {pin : PinId} (hf : s.findPin pin = none) (hc : s.count = s.cfg.nBus) :
    s.acquire pin = s.answered (failWord 1) := by
  simp only [State.acquire, hf, if_pos hc]
  exact s.raise_eq .registryFull (by decide)

theorem State.acquire_fresh {pin : PinId} (hf : s.findPin pin = none) (hc : s.count ≠ s.cfg.nBus) :
    s.acquire pin = (s.allocate pin).answered (okWord (BitVec.ofNat 16 s.count)) := by
  simp only [State.acquire, hf, if_neg hc, State.ret_eq]

/-- The pin just allocated is found at the slot that was next. -/
theorem State.findPin_allocate {pin : PinId} (hf : s.findPin pin = none) (hl : s.count < s.bus.length) :
    (s.allocate pin).findPin pin = some s.count := by
  refine (State.findPin_some _ pin s.count).2 ⟨Nat.lt_succ_self s.count, ?_, fun k hk => ?_⟩
  · exact congrArg Bus.pin (s.busAt_setBus_same s.count (Bus.acquired pin) hl)
  · have hold : (s.allocate pin).busAt k = s.busAt k := s.busAt_setBus_other s.count k _ hk.ne
    rw [hold]
    exact (s.findPin_none pin).1 hf k hk

theorem exec_lookup_found {pin : PinId} {h : Nat} (hf : s.findPin pin = some h) :
    exec (.lookup pin) s = .next (s.answered (okWord (BitVec.ofNat 16 h))) := by
  simp only [exec, execLookup, hf, State.ret_eq]

theorem exec_lookup_missing {pin : PinId} (hf : s.findPin pin = none) :
    exec (.lookup pin) s = .next (s.answered (failWord 8)) := by
  simp only [exec, execLookup, hf]
  exact congrArg Host.Outcome.next (s.raise_eq .notFound (by decide))

/-- Settles O15: what `findPin` finds decides between the three ways. -/
theorem acquireReturnsAllocatesOrReportsFull : Obligations.AcquireReturnsAllocatesOrReportsFull := by
  refine ⟨encodedAs_readFrom (.acquire 0), fun s pin => ⟨fun h hlt hpin hlow => ?_, fun hno hc => ?_, fun hno hc => ?_⟩⟩
  · exact congrArg Host.Outcome.next (s.acquire_found ((s.findPin_some pin h).2 ⟨hlt, hpin, hlow⟩))
  · exact congrArg Host.Outcome.next (s.acquire_full ((s.findPin_none pin).2 hno) hc)
  · exact congrArg Host.Outcome.next (s.acquire_fresh ((s.findPin_none pin).2 hno) hc)

/-- Settles O16: an answer leaves what `findPin` finds, and an allocated pin is found where it was put. -/
theorem acquireIsIdempotent : Obligations.AcquireIsIdempotent := by
  intro s t pin hlen hcount h
  obtain rfl : s.acquire pin = t := Host.Outcome.next.inj h
  refine congrArg Host.Outcome.next ?_
  rcases s.acquire_cases pin with ⟨k, hf, e⟩ | ⟨hf, hc, e⟩ | ⟨hf, hc, e⟩ <;> rw [e]
  · exact State.acquire_found _ hf
  · exact State.acquire_full _ hf hc
  · have hroom : s.count < s.bus.length := hlen.symm ▸ Nat.lt_of_le_of_ne hcount hc
    exact State.acquire_found _ (s.findPin_allocate hf hroom)

/-- Settles O17: LOOKUP answers what `findPin` finds. -/
theorem lookupFindsTheHandleOrNotFound : Obligations.LookupFindsTheHandleOrNotFound :=
  ⟨encodedAs_readFrom (.lookup 0), fun s pin =>
    ⟨fun h hlt hpin hlow => exec_lookup_found s ((s.findPin_some pin h).2 ⟨hlt, hpin, hlow⟩),
      fun hno => exec_lookup_missing s ((s.findPin_none pin).2 hno)⟩⟩

/-! ### BUF_WR and BUF_RD (40 R110 to R113) -/

theorem exec_bufWr_ok {idx : Nat} (byte : Byte) (h : idx < s.cfg.lBuf) :
    exec (.bufWr idx byte) s = .next ((s.dbufStore idx byte).answered (okWord 0)) := by
  simp only [exec, execBufWr, s.checked_index_ok idx _ h, State.ret_eq]

theorem exec_bufRd_ok {idx : Nat} (h : idx < s.cfg.lBuf) :
    exec (.bufRd idx) s = .next (s.answered (okWord ((s.dbufByte idx).setWidth 16))) := by
  simp only [exec, execBufRd, s.checked_index_ok idx _ h, State.ret_eq]

/-- Settles O18: below `L_BUF` the next state is `State.dbufStore` followed by the response. -/
theorem bufWrStoresOneByte : Obligations.BufWrStoresOneByte := by
  refine ⟨fun w hop => ?_, fun s idx byte => ⟨fun hlt => ?_, fun hge => ?_⟩⟩
  · simp only [← operandByte_eq]
    exact encodedAs_readFrom (.bufWr 0 0) w hop
  · exact ⟨_, exec_bufWr_ok s byte hlt, rfl, s.dbufByte_dbufStore_same idx byte,
      fun a ha => s.dbufByte_dbufStore_other idx a byte ha⟩
  · exact congrArg Host.Outcome.next (s.checked_index_bad idx _ hge)

/-- Settles O19: the index check lets through exactly the indices below `L_BUF`. -/
theorem bufRdReturnsTheByte : Obligations.BufRdReturnsTheByte :=
  ⟨encodedAs_readFrom (.bufRd 0), fun s idx =>
    ⟨exec_bufRd_ok s, fun hge => congrArg Host.Outcome.next (s.checked_index_bad idx _ hge)⟩⟩

/-! ### RD_STATE and RD_ROM (40 R115 to R118) -/

theorem exec_rdState_usable {h : Nat} (hu : s.usable h) :
    exec (.rdState h) s = .next (s.answered (okWord (stateData (s.busAt h)))) := by
  simp only [exec, execRdState, s.onBus_usable h _ hu, State.ret_eq]

theorem exec_rdRom_usable {h : Nat} (i : Fin 8) (hu : s.usable h) :
    exec (.rdRom h i) s = .next (s.answered (okWord ((romByte (s.busAt h).rom i.val).setWidth 16))) := by
  simp only [exec, execRdRom, s.onBus_usable h _ hu, State.ret_eq]

/-- The packing of R115 as a sum, for fields that fit their 7 and 4 bits. -/
theorem stateData_eq_ofNat (b : Bus) (hd : b.lastDiscrepancy < 128) (hf : b.lastFamilyDiscrepancy < 16) :
    stateData b = BitVec.ofNat 16
      ((if b.lastDeviceFlag then 2048 else 0) + 128 * b.lastFamilyDiscrepancy + b.lastDiscrepancy) := by
  have hflag : (0#4 ++ BitVec.ofBool b.lastDeviceFlag).toNat = if b.lastDeviceFlag then 1 else 0 := by
    cases b.lastDeviceFlag <;> rfl
  apply BitVec.eq_of_toNat_eq
  rw [stateData, BitVec.toNat_append, BitVec.toNat_append, hflag, BitVec.toNat_ofNat, BitVec.toNat_ofNat, BitVec.toNat_ofNat,
    Nat.mod_eq_of_lt (a := b.lastFamilyDiscrepancy) hf, Nat.mod_eq_of_lt (a := b.lastDiscrepancy) hd,
    ← Nat.shiftLeft_add_eq_or_of_lt hd, ← Nat.shiftLeft_add_eq_or_of_lt hf, Nat.shiftLeft_eq, Nat.shiftLeft_eq]
  split <;> omega

/-- Byte `i` of a ROM code is the code shifted down by `8 i` bits (20 R51). -/
theorem romByte_eq_setWidth (r : RomCode) (i : Nat) : romByte r i = (r >>> (8 * i)).setWidth 8 := by
  apply BitVec.eq_of_toNat_eq
  simp [romByte]

/-- Settles O20: the guard, then the packing as a sum. -/
theorem rdStatePacksTheSearchState : Obligations.RdStatePacksTheSearchState := by
  refine ⟨encodedAs_readFrom (.rdState 0), fun s h => ⟨guardedBy_onBus s h _, fun hu hd hf => ?_⟩⟩
  rw [exec_rdState_usable s hu, stateData_eq_ofNat _ hd hf]

/-- Settles O21: the guard, then `romByte` as a shift. -/
theorem rdRomReturnsTheRomByte : Obligations.RdRomReturnsTheRomByte := by
  refine ⟨fun w hop => ?_, fun s h i => ⟨guardedBy_onBus s h _, fun hu => ?_⟩⟩
  · simp only [← operandRomIndex_eq_ofNat]
    exact encodedAs_readFrom (.rdRom 0 0) w hop
  · rw [exec_rdRom_usable s i hu, romByte_eq_setWidth]

/-! ### The wire side (40 R119, 44 R185) -/

/-- An operation that names no handle plays no slot. -/
theorem Effect.wire_of_no_handle {i : Instr} {s t : State} (he : Effect i s t) (hh : i.handle? = none) : t.wire = s.wire := by
  obtain ⟨_, _, _, slots, _, rfl, _, _, _, _, hpins⟩ := he
  have hnil : slots = [] := List.eq_nil_iff_forall_not_mem.2 fun x hx => by
    obtain ⟨h, hsome, _⟩ := hpins x hx
    rw [hh] at hsome
    cases hsome
  rw [hnil]
  rfl

/-- An operation that names no handle leaves the wire side, ACQUIRE apart. -/
theorem exec_wire_of_no_handle {i : Instr} {s t : State} (h : exec i s = .next t) (hh : i.handle? = none)
    (hi : ∀ pin, i ≠ .acquire pin) : t.wire = s.wire := by
  rcases exec_cases h with ⟨pin, rfl, _⟩ | ⟨_, he⟩
  · exact absurd rfl (hi pin)
  · exact he.wire_of_no_handle hh

/-- The guard touches no pin. -/
theorem wire_of_next_onBus {s t : State} {h : Nat} {run : State → State}
    (ht : (.next (s.onBus h run) : Host.Outcome State Fault Refusal) = .next t) (hr : (run s).wire = s.wire) :
    t.wire = s.wire := by
  rw [← Host.Outcome.next.inj ht]
  rcases s.onBus_cases h run with ⟨_, e⟩ | ⟨_, e⟩ | ⟨_, e⟩ <;> rw [e]
  · exact hr
  · rfl
  · rfl

/-- ACQUIRE draws no sample, enters no critical section, and adds one Release of its pin or nothing (40 R106). -/
theorem State.acquire_wire (pin : PinId) :
    (s.acquire pin).wire = s.wire ∨ (s.acquire pin).wire = Wire.release pin s.wire := by
  rcases s.acquire_cases pin with ⟨_, _, e⟩ | ⟨_, _, e⟩ | ⟨_, _, e⟩ <;> rw [e]
  · exact .inl rfl
  · exact .inl rfl
  · exact .inr rfl

@[simp] theorem Wire.release_trace (pin : PinId) (w : Wire) : (Wire.release pin w).trace = w.trace ++ [.release pin] := by
  simp [Wire.trace]

/-- Settles O55: five of the seven name no handle, the two read-backs go through the guard, and ACQUIRE releases at most. -/
theorem registryAndCrcOperationsStayOffTheWire : Obligations.RegistryAndCrcOperationsStayOffTheWire := by
  intro i s t h
  refine ⟨?_, ?_⟩
  · rintro (⟨pin, rfl⟩ | ⟨idx, v, rfl⟩ | ⟨idx, rfl⟩ | ⟨k, rfl⟩ | ⟨k, j, rfl⟩ | ⟨len, rfl⟩ | ⟨len, rfl⟩)
    · exact exec_wire_of_no_handle h rfl nofun
    · exact exec_wire_of_no_handle h rfl nofun
    · exact exec_wire_of_no_handle h rfl nofun
    · exact wire_of_next_onBus h rfl
    · exact wire_of_next_onBus h rfl
    · exact exec_wire_of_no_handle h rfl nofun
    · exact exec_wire_of_no_handle h rfl nofun
  · rintro pin rfl
    rw [← Host.Outcome.next.inj h]
    rcases s.acquire_wire pin with e | e <;> rw [e]
    · exact ⟨rfl, rfl, rfl, .inl rfl⟩
    · exact ⟨rfl, rfl, rfl, .inr (Wire.release_trace pin s.wire)⟩

end Sys2Proof.Machine
end

section
/-! SUPPORT. Signal primitives (spec/41_signal_primitives.md): on a usable handle each is the slots it plays and one response;
every operation leaves the wire side idle (R137); and what the loopback line of spec/20_memory.md R75 answers. -/

namespace Sys2Proof.Machine

open Sys2Proof

/-! ### Bytes as slots (20 R50) -/

theorem writeSlots_singleton (pin : PinId) (v : Byte) :
    writeSlots pin [v] = (List.range 8).map fun k => .write pin (v.getLsbD k) := by
  simp [writeSlots, byteBits]

theorem writeSlots_dbufBytes (s : State) (pin : PinId) (len : Nat) :
    writeSlots pin (s.dbufBytes len) =
      (List.range len).flatMap fun k => (List.range 8).map fun j => .write pin ((s.dbufByte k).getLsbD j) := by
  simp only [writeSlots, State.dbufBytes, List.flatMap_map, byteBits, List.map_map]
  rfl

/-- A byte is fixed by the eight samples that give its bits (41 R130). -/
theorem Wire.byteAt_eq (w : Wire) (n : Nat) {v : Byte} (h : ∀ k, k < 8 → v.getLsbD k = w.bitAt (n + k)) :
    w.byteAt n = v :=
  BitVec.eq_of_getLsbD_eq fun k hk => (w.getLsbD_byteAt n k hk).trans (h k hk).symm

theorem readByte_eq_byteAt (t : Timing) (w : Wire) (pin : PinId) :
    readByte t pin w = (w.byteAt 0, w.play t (w.readSlots pin 0 8)) :=
  readByte_eq t w pin _ fun k hk => by simpa using w.getLsbD_byteAt 0 k hk

/-! ### Each operation on a usable handle -/

section
variable (s : State) {h : Nat} (hu : s.usable h)
include hu

theorem exec_reset_usable :
    exec (.reset h) s = .next
      ((s.played [.reset (s.busAt h).pin (decide (s.wire.answerAt 0 = .low))]).answered
        (if s.wire.answerAt 0 = .low then okWord 1 else failWord 4)) := by
  simp only [exec, execReset, s.onBus_usable h _ hu, resetSlot_eq]
  by_cases hlow : s.wire.answerAt 0 = .low
  · simp only [hlow, decide_true, if_true, State.ret_eq]
    rfl
  · simp only [hlow, decide_false, if_false, State.raise_eq _ .noPresence (by decide)]
    rfl

theorem exec_writeBit_usable (bit : Bool) :
    exec (.writeBit h bit) s = .next ((s.played [.write (s.busAt h).pin bit]).answered (okWord 0)) := by
  simp only [exec, execWriteBit, s.onBus_usable h _ hu, writeBit_eq, State.ret_eq]
  rfl

theorem exec_readBit_usable :
    exec (.readBit h) s = .next ((s.played [.read (s.busAt h).pin (s.wire.bitAt 0)]).answered
      (okWord ((BitVec.ofBool (s.wire.bitAt 0)).setWidth 16))) := by
  simp only [exec, execReadBit, s.onBus_usable h _ hu, readBit_eq, State.ret_eq]
  rfl

theorem exec_writeByte_usable (v : Byte) :
    exec (.writeByte h v) s = .next ((s.played (writeSlots (s.busAt h).pin [v])).answered (okWord 0)) := by
  simp only [exec, execWriteByte, s.onBus_usable h _ hu, writeByte_eq, State.ret_eq]
  rfl

theorem exec_readByte_usable :
    exec (.readByte h) s = .next ((s.played (s.wire.readSlots (s.busAt h).pin 0 8)).answered
      (okWord ((s.wire.byteAt 0).setWidth 16))) := by
  simp only [exec, execReadByte, s.onBus_usable h _ hu, readByte_eq_byteAt, State.ret_eq]
  rfl

theorem exec_writeBytes_usable {len : Nat} (hl : len ≤ s.cfg.lBuf) :
    exec (.writeBytes h len) s = .next
      ((s.played (writeSlots (s.busAt h).pin (s.dbufBytes len))).answered (okWord 0)) := by
  simp only [exec, execWriteBytes, s.onBus_usable h _ hu, s.checked_length_ok len _ hl, writeByteList_eq, State.ret_eq]
  rfl

theorem exec_readBytes_usable {len : Nat} (hl : len ≤ s.cfg.lBuf) :
    exec (.readBytes h len) s = .next
      (((s.played (s.wire.readSlots (s.busAt h).pin 0 (8 * len))).dbufStoreList
        ((List.range len).map fun k => s.wire.byteAt (8 * k))).answered (okWord 0)) := by
  simp only [exec, execReadBytes, s.onBus_usable h _ hu, s.checked_length_ok len _ hl, readByteList_eq, State.ret_eq]
  rfl

theorem exec_writeBytes_tooLong {len : Nat} (hl : s.cfg.lBuf < len) :
    exec (.writeBytes h len) s = .next (s.answered (failWord 7)) := by
  simp only [exec, execWriteBytes, s.onBus_usable h _ hu, s.checked_length_bad len _ hl]

theorem exec_readBytes_tooLong {len : Nat} (hl : s.cfg.lBuf < len) :
    exec (.readBytes h len) s = .next (s.answered (failWord 7)) := by
  simp only [exec, execReadBytes, s.onBus_usable h _ hu, s.checked_length_bad len _ hl]

end

/-- Settles O22: the guard, then one reset slot and the answer its sample decides. -/
theorem resetDetectsPresence : Obligations.ResetDetectsPresence :=
  ⟨encodedAs_readFrom (.reset 0), fun s h => ⟨guardedBy_onBus s h _, exec_reset_usable s⟩⟩

/-- Settles O23: the guard, then one write slot. -/
theorem writeBitEmitsOneSlot : Obligations.WriteBitEmitsOneSlot := by
  refine ⟨fun w hop => ?_, fun s h bit => ⟨guardedBy_onBus s h _, fun hu => exec_writeBit_usable s hu bit⟩⟩
  simp only [← operandBit_eq]
  exact encodedAs_readFrom (.writeBit 0 false) w hop

/-- Settles O24: the guard, then one read slot and its bit as the answer. -/
theorem readBitReturnsTheSample : Obligations.ReadBitReturnsTheSample := by
  refine ⟨encodedAs_readFrom (.readBit 0), fun s h => ⟨guardedBy_onBus s h _, fun hu => ?_⟩⟩
  rw [exec_readBit_usable s hu, Wire.bitAt]
  cases s.wire.answerAt 0 <;> rfl

/-- Settles O25: the guard, then the slots of one byte. -/
theorem writeByteSendsLowBitFirst : Obligations.WriteByteSendsLowBitFirst := by
  refine ⟨fun w hop => ?_, fun s h v => ⟨guardedBy_onBus s h _, fun hu => ?_⟩⟩
  · simp only [← operandByte_eq]
    exact encodedAs_readFrom (.writeByte 0 0) w hop
  · rw [exec_writeByte_usable s hu, writeSlots_singleton]

/-- Settles O26: the guard, then eight read slots, whose samples fix the byte. -/
theorem readByteTakesLowBitFirst : Obligations.ReadByteTakesLowBitFirst := by
  refine ⟨encodedAs_readFrom (.readByte 0), fun s h => ⟨guardedBy_onBus s h _, fun hu v hv => ?_⟩⟩
  have hbyte : s.wire.byteAt 0 = v := s.wire.byteAt_eq 0 (by simpa using hv)
  rw [exec_readByte_usable s hu, hbyte]

/-- Settles O27: the guard, the length check, then the slots of the buffer's bytes. -/
theorem writeBytesSendsTheBuffer : Obligations.WriteBytesSendsTheBuffer := by
  refine ⟨encodedAs_readFrom (.writeBytes 0 0), fun s h len =>
    ⟨guardedBy_onBus s h _, fun hu => exec_writeBytes_tooLong s hu, fun hu hl => ?_⟩⟩
  rw [exec_writeBytes_usable s hu hl, writeSlots_dbufBytes]

/-- Settles O28: the guard, the length check, then the read slots and the store of their bytes from index 0 on. -/
theorem readBytesFillsTheBuffer : Obligations.ReadBytesFillsTheBuffer := by
  refine ⟨encodedAs_readFrom (.readBytes 0 0), fun s h len =>
    ⟨guardedBy_onBus s h _, fun hu => exec_readBytes_tooLong s hu, fun hu hl => ⟨_, exec_readBytes_usable s hu hl, rfl, ?_, ?_⟩⟩⟩
  · intro k hk j hj
    rw [State.answered_dbufByte, State.dbufByte_dbufStoreList]
    simp [hk, Wire.getLsbD_byteAt _ _ j hj]
  · intro a ha
    rw [State.answered_dbufByte, State.dbufByte_dbufStoreList]
    simp [Nat.not_lt.2 ha]

/-! ### The wire side after any operation (41 R137, 60 R217) -/

/-- An operation plays slots on the wire side, perhaps none, or is an ACQUIRE that releases its pin. -/
theorem exec_wire_cases {i : Instr} {s t : State} (h : exec i s = .next t) :
    (∃ slots, t.wire = s.wire.play s.cfg.timing slots) ∨ ∃ pin, t.wire = Wire.release pin s.wire := by
  rcases exec_cases h with ⟨pin, _, rfl⟩ | ⟨_, _, _, _, slots, _, rfl, _⟩
  · rcases s.acquire_wire pin with e | e
    · exact .inl ⟨[], e⟩
    · exact .inr ⟨pin, e⟩
  · exact .inl ⟨slots, rfl⟩

/-- Settles O54: slots, and a Release outside every section, leave an idle wire side idle and add disciplined events. -/
theorem everyOperationLeavesTheWireIdle : Obligations.EveryOperationLeavesTheWireIdle := by
  intro i s t hdriven hcrit h
  rcases exec_wire_cases h with ⟨slots, e⟩ | ⟨pin, e⟩ <;> rw [e]
  · obtain ⟨hdriven', hcrit'⟩ := Wire.play_idle s.cfg.timing s.wire slots hdriven hcrit
    exact ⟨hdriven', hcrit', _, Wire.play_trace _ _ slots, disciplined_slots _ slots⟩
  · exact ⟨by simp [hdriven], hcrit, _, Wire.release_trace pin s.wire, rfl⟩

/-! ### The loopback line (20 R75) -/

theorem Line.agrees_append (l : Line) (xs ys : List Slot) :
    l.agrees (xs ++ ys) = (l.agrees xs && (l.afterAll xs).agrees ys) := by
  induction xs generalizing l with
  | nil => rfl
  | cons x xs ih => simp only [List.cons_append, Line.agrees, ih, Bool.and_assoc, Line.afterAll, List.foldl_cons]

theorem Line.loopback_afterAll_write (pin : PinId) (pending bits : List Bool) :
    (Line.loopback pending).afterAll (bits.map fun b => .write pin b) = .loopback (pending ++ bits) := by
  induction bits generalizing pending with
  | nil => simp [Line.afterAll]
  | cons b bits ih =>
    refine (ih (pending ++ [b])).trans ?_
    simp

/-- Read slots that the loopback line answers give the pending bits back, the oldest first. -/
theorem Line.bitAt_of_loopback_agrees {w : Wire} {pin : PinId} {bits : List Bool} {start : Nat}
    (h : (Line.loopback bits).agrees (w.readSlots pin start bits.length) = true) (k : Nat) (hk : k < bits.length) :
    w.bitAt (start + k) = bits[k] := by
  induction bits generalizing start k with
  | nil => exact absurd hk (Nat.not_lt_zero k)
  | cons b bits ih =>
    rw [List.length_cons, Wire.readSlots_succ, Line.agrees, Bool.and_eq_true] at h
    obtain ⟨hfirst, hrest⟩ := h
    cases k with
    | zero => exact beq_iff_eq.1 hfirst
    | succ k => simpa [Nat.add_assoc, Nat.add_comm 1] using ih hrest k (Nat.lt_of_succ_lt_succ hk)

/-- Eight read slots after the slots of a byte, all answered by an unused loopback line, give that byte. -/
theorem Wire.byteAt_of_loopback_agrees {w : Wire} {pin : PinId} {v : Byte}
    (h : (Line.loopback []).agrees (writeSlots pin [v] ++ w.readSlots pin 0 8) = true) : w.byteAt 0 = v := by
  have hslots : writeSlots pin [v] = (byteBits v).map fun b => .write pin b := List.flatMap_singleton _ v
  rw [Line.agrees_append, hslots, Line.loopback_afterAll_write, List.nil_append, Bool.and_eq_true] at h
  obtain ⟨_, hread⟩ := h
  rw [← byteBits_length v] at hread
  refine w.byteAt_eq 0 fun k hk => ?_
  rw [Line.bitAt_of_loopback_agrees hread k (by simpa using hk)]
  simp [byteBits]

/-- WRITE_BYTE and then READ_BYTE: the slots of both, and the answer in terms of the first wire side. -/
theorem exec_writeByte_readByte {s t u : State} {h : Nat} {v : Byte} (hu : s.usable h)
    (hwrite : exec (.writeByte h v) s = .next t) (hread : exec (.readByte h) t = .next u) :
    u.wire = s.wire.play s.cfg.timing (writeSlots (s.busAt h).pin [v] ++ s.wire.readSlots (s.busAt h).pin 0 8) ∧
      u.rsp = okWord ((s.wire.byteAt 0).setWidth 16) := by
  obtain rfl := Host.Outcome.next.inj ((exec_writeByte_usable s hu v).symm.trans hwrite)
  have hu' : ((s.played (writeSlots (s.busAt h).pin [v])).answered (okWord 0)).usable h := hu
  obtain rfl := Host.Outcome.next.inj ((exec_readByte_usable _ hu').symm.trans hread)
  simp [Wire.play_append, Wire.play_readSlots, Wire.play_byteAt]

/-- Settles O57: the trace fixes the sixteen slots, and the loopback line answers the last eight with the bits of the first. -/
theorem loopbackReturnsTheWrittenByte : Obligations.LoopbackReturnsTheWrittenByte := by
  intro s t u h v ls slots hu hne hline hwrite hread htrace hagrees
  obtain ⟨hwire, hrsp⟩ := exec_writeByte_readByte hu hwrite hread
  rw [hwire, Wire.play_trace] at htrace
  have hslots := slotEvents_injective s.cfg.timing hne _ slots (List.append_cancel_left htrace)
  have hpins : ∀ x ∈ slots, x.pin = (s.busAt h).pin := by
    rw [← hslots]
    exact List.forall_mem_append.2 ⟨writeSlots_pin _ _, Wire.readSlots_pin _ _ _ _⟩
  rw [Lines.agrees_of_pin ls _ slots hpins, hline, ← hslots] at hagrees
  rw [hrsp, Wire.byteAt_of_loopback_agrees hagrees]

end Sys2Proof.Machine
end

section
/-! SUPPORT. The ROM command layer (spec/42_rom_commands.md): on a usable handle each operation is the slots it plays, one
response and, for a READ_ROM whose CRC holds, the eight bytes it stores. -/

namespace Sys2Proof.Machine

open Sys2Proof

/-! ### The reset each of READ_ROM and SELECT starts with (41 R122) -/

theorem resetSlot_of_high (t : Timing) {w : Wire} (pin : PinId) (ha : w.answerAt 0 = .high) :
    resetSlot t pin w = (false, w.play t [.reset pin false]) := by
  rw [resetSlot_eq, ha]
  rfl

theorem resetSlot_of_low (t : Timing) {w : Wire} (pin : PinId) (ha : w.answerAt 0 = .low) :
    resetSlot t pin w = (true, w.play t [.reset pin true]) := by
  rw [resetSlot_eq, ha]
  rfl

/-! ### The address a READ_ROM reads (20 R51) -/

/-- An address is fixed by the 64 samples that give its positions: byte `k` is the samples from number `8k + 1` on. -/
theorem Wire.byteAt_list_eq_romBytes {w : Wire} {r : RomCode} (hr : ∀ p, 1 ≤ p → p ≤ 64 → romBit r p = w.bitAt p) :
    (List.range 8).map (fun k => w.byteAt (1 + 8 * k)) = romBytes r := by
  refine List.map_congr_left fun k hmem => w.byteAt_eq _ fun j hj => ?_
  have hk : k < 8 := List.mem_range.1 hmem
  rw [getLsbD_romByte, decide_eq_true hj, Bool.true_and, ← hr (1 + 8 * k + j) (by omega) (by omega), romBit,
    show 1 + 8 * k + j - 1 = 8 * k + j by omega]

/-- Eight bytes read after the reset and a command byte (42 R144): the samples from number 1 on, and their slots. -/
theorem readByteList_after_passStart (t : Timing) (w : Wire) (pin : PinId) (c : Byte) :
    readByteList t pin 8 (w.play t (passStart pin c)) =
      ((List.range 8).map fun k => w.byteAt (1 + 8 * k), w.play t (passStart pin c ++ w.readSlots pin 1 64)) := by
  have htotal : sampleTotal (passStart pin c) = 1 := by simp [passStart, Slot.sampleCount]
  rw [readByteList_eq, Wire.play_readSlots, Wire.play_append, htotal]
  simp only [Wire.play_byteAt, htotal, Nat.add_zero, Nat.reduceMul]

/-! ### Each operation on a usable handle -/

section
variable (s : State) {h : Nat} (hu : s.usable h)
include hu

theorem exec_skipRom_usable :
    exec (.skipRom h) s = .next ((s.played (writeSlots (s.busAt h).pin [cmdSkipRom])).answered (okWord 0)) := by
  simp only [exec, execSkipRom, s.onBus_usable h _ hu, writeByte_eq, State.ret_eq]
  rfl

theorem exec_matchRom_usable :
    exec (.matchRom h) s = .next
      ((s.played (writeSlots (s.busAt h).pin (cmdMatchRom :: s.dbufBytes 8))).answered (okWord 0)) := by
  simp only [exec, execMatchRom, s.onBus_usable h _ hu, State.matchRom, writeByteList_eq, State.ret_eq]
  rfl

theorem exec_select_noPresence (ha : s.wire.answerAt 0 = .high) :
    exec (.select h) s = .next ((s.played [.reset (s.busAt h).pin false]).answered (failWord 4)) := by
  simp only [exec, execSelect, s.onBus_usable h _ hu, resetSlot_of_high _ _ ha, State.raise_eq _ .noPresence (by decide)]
  rfl

theorem exec_select_presence (ha : s.wire.answerAt 0 = .low) :
    exec (.select h) s = .next
      ((s.played (.reset (s.busAt h).pin true :: writeSlots (s.busAt h).pin (cmdMatchRom :: s.dbufBytes 8))).answered
        (okWord 0)) := by
  simp only [exec, execSelect, s.onBus_usable h _ hu, resetSlot_of_low _ _ ha, State.matchRom, writeByteList_eq,
    ← Wire.play_append, List.singleton_append, State.ret_eq]
  rfl

theorem exec_readRom_noPresence (ha : s.wire.answerAt 0 = .high) :
    exec (.readRom h) s = .next ((s.played [.reset (s.busAt h).pin false]).answered (failWord 4)) := by
  simp only [exec, execReadRom, s.onBus_usable h _ hu, resetSlot_of_high _ _ ha,
    State.raise_eq _ .noPresence (by decide)]
  rfl

/-- With presence the whole trace is played whatever the CRC says, which decides only the store and the answer. -/
theorem exec_readRom_presence (ha : s.wire.answerAt 0 = .low) {r : RomCode}
    (hr : ∀ p, 1 ≤ p → p ≤ 64 → romBit r p = s.wire.bitAt p) :
    exec (.readRom h) s = .next
      (let played := s.played (passStart (s.busAt h).pin cmdReadRom ++ s.wire.readSlots (s.busAt h).pin 1 64)
      if romCrc r = 0 then (played.dbufStoreList (romBytes r)).answered (okWord 0)
      else played.answered (failWord 6)) := by
  have hstart : writeByte s.timing (s.pinOf h) cmdReadRom (s.wire.play s.timing [.reset (s.pinOf h) true]) =
      s.wire.play s.timing (passStart (s.pinOf h) cmdReadRom) := writeByte_eq _ _ _ _
  simp only [exec, execReadRom, s.onBus_usable h _ hu, resetSlot_of_low _ _ ha, hstart, readByteList_after_passStart,
    Wire.byteAt_list_eq_romBytes hr, State.ret_eq, State.raise_eq _ .crcMismatch (by decide)]
  rfl

end

/-- Settles O29: the guard, then the slots of the Skip-ROM byte. -/
theorem skipRomSendsItsCommandByte : Obligations.SkipRomSendsItsCommandByte :=
  ⟨encodedAs_readFrom (.skipRom 0), fun s h => ⟨guardedBy_onBus s h _, exec_skipRom_usable s⟩⟩

/-- Settles O30: the guard, then the reset's answer and, on presence, the CRC of the address read decide. -/
theorem readRomReturnsAValidatedAddress : Obligations.ReadRomReturnsAValidatedAddress := by
  refine ⟨encodedAs_readFrom (.readRom 0), fun s h =>
    ⟨guardedBy_onBus s h _, exec_readRom_noPresence s, fun hu ha r hr => ⟨fun hcrc => ?_, fun hcrc => ?_⟩⟩⟩
  · rw [exec_readRom_presence s hu ha hr, if_neg hcrc]
    rfl
  · rw [exec_readRom_presence s hu ha hr, if_pos hcrc]
    refine ⟨_, rfl, rfl, fun k hk => ?_, fun a hge => ?_⟩
    · rw [State.answered_dbufByte, State.dbufByte_dbufStoreList, romBytes_length, if_pos hk, romBytes_getD r k hk]
    · rw [State.answered_dbufByte, State.dbufByte_dbufStoreList, romBytes_length, if_neg (Nat.not_lt.2 hge),
        State.played_dbufByte]

/-- Settles O31: the guard, then the slots of the Match-ROM byte and the buffer's first eight bytes. -/
theorem matchRomSendsTheAddress : Obligations.MatchRomSendsTheAddress :=
  ⟨encodedAs_readFrom (.matchRom 0), fun s h => ⟨guardedBy_onBus s h _, exec_matchRom_usable s⟩⟩

/-- Settles O32: the guard, then one reset, whose answer decides whether MATCH_ROM's slots follow. -/
theorem selectResetsThenMatches : Obligations.SelectResetsThenMatches :=
  ⟨encodedAs_readFrom (.select 0), fun s h =>
    ⟨guardedBy_onBus s h _, exec_select_noPresence s, exec_select_presence s⟩⟩

end Sys2Proof.Machine
end

section
/-! SUPPORT. SEARCH, ALARM_SEARCH and RESET_SEARCH (spec/43_search.md) over the samples a pass meets: the ways a search can end,
each with its slots and its next state, said once for both command bytes. -/

namespace Sys2Proof.Machine

open Sys2Proof

/-- What a pass that resolved the address `r` answers, once its slots are played: `CRCMismatch`, `ZeroFamily`, or success with
`r` stored in the slot and in DBUF[0..7] (43 R168 to R171). -/
def State.resolved (s : State) (h : Nat) (r : RomCode) (ld lfd : Nat) : State :=
  if romCrc r ≠ 0 then (s.clearSearch h).answered (failWord 6)
  else if romByte r 0 = 0 then (s.clearSearch h).answered (failWord 10)
  else
    ((s.setBus h { s.busAt h with
        rom := r, lastDiscrepancy := ld, lastFamilyDiscrepancy := lfd, lastDeviceFlag := decide (ld = 0) }).dbufStoreList
      (romBytes r)).answered (okWord 0)

section
variable (s : State) (h : Nat) (r : RomCode) (ld lfd : Nat)

theorem State.resolved_valid (hcrc : romCrc r = 0) (hfam : romByte r 0 ≠ 0) :
    s.resolved h r ld lfd =
      ((s.setBus h { s.busAt h with
          rom := r, lastDiscrepancy := ld, lastFamilyDiscrepancy := lfd, lastDeviceFlag := decide (ld = 0) }).dbufStoreList
        (romBytes r)).answered (okWord 0) := by
  rw [State.resolved, if_neg (not_not_intro hcrc), if_neg hfam]

theorem State.resolved_invalid (hr : romCrc r ≠ 0 ∨ romByte r 0 = 0) :
    s.resolved h r ld lfd = (s.clearSearch h).answered (if romCrc r ≠ 0 then failWord 6 else failWord 10) := by
  by_cases hcrc : romCrc r = 0
  · have hfam : romByte r 0 = 0 := hr.resolve_left (not_not_intro hcrc)
    simp [State.resolved, hcrc, hfam]
  · rw [State.resolved, if_pos hcrc, if_pos hcrc]

@[simp] theorem State.resolved_wire : (s.resolved h r ld lfd).wire = s.wire := by
  unfold State.resolved
  split
  · rfl
  · split <;> rfl

/-- A resolved address that is valid is stored in DBUF[0..7], and in no other byte (43 R169). -/
theorem State.resolved_dbufByte (hcrc : romCrc r = 0) (hfam : romByte r 0 ≠ 0) :
    (∀ k, k < 8 → (s.resolved h r ld lfd).dbufByte k = romByte r k) ∧
      ∀ a, 8 ≤ a → (s.resolved h r ld lfd).dbufByte a = s.dbufByte a := by
  rw [s.resolved_valid h r ld lfd hcrc hfam]
  refine ⟨fun k hk => ?_, fun a ha => ?_⟩
  · rw [State.answered_dbufByte, State.dbufByte_dbufStoreList, romBytes_length, if_pos hk, romBytes_getD r k hk]
  · rw [State.answered_dbufByte, State.dbufByte_dbufStoreList, romBytes_length, if_neg (Nat.not_lt.2 ha),
      State.setBus_dbufByte]

end

/-! ### The loop's facts, in the samples of the pass (43 R163 to R165) -/

section
variable {t : Timing} {w : Wire} {pin : PinId} {c : Byte} {b b' : Bus} {k : Nat}
  (hF : LoopFacts b b' (w.play t (passStart pin c)) 1 k)
include hF

theorem LoopFacts.resolves_passStart : resolves b w b'.rom k := resolves_of_dirAt t w pin c b b' k hF.stored

theorem LoopFacts.answered_passStart :
    ∀ q, 1 ≤ q → q ≤ k → ¬ (w.idAt q = true ∧ w.cmpAt q = true) := by
  intro q hq hqk
  have := hF.answered (q - 1) (by omega)
  rwa [passStart_idAt, passStart_cmpAt, Nat.sub_add_cancel hq] at this

end

theorem zeroTakenAt_passStart (t : Timing) (w : Wire) (pin : PinId) (c : Byte) (r : RomCode) {j : Nat} (hj : j < 64) :
    (w.play t (passStart pin c)).zeroTakenAt r (1 + j) j ↔ zeroAt w r (1 + j) := by
  rw [Wire.zeroTakenAt, passStart_idAt, passStart_cmpAt, Nat.add_comm j 1]
  exact ⟨fun hz => ⟨by omega, by omega, hz⟩, fun hz => hz.2.2⟩

/-! ### The ends of a search -/

/-- A slot that kept its pin and `initialized` is cleared to the same slot (10 R43). -/
theorem Bus.clearSearch_congr {b b' : Bus} (hpin : b'.pin = b.pin) (hinit : b'.initialized = b.initialized) :
    b'.clearSearch = b.clearSearch := by
  simp [Bus.clearSearch, hpin, hinit]

theorem lastDeviceAfter_eq (n : Nat) : lastDeviceAfter n = decide (n = 0) := rfl

section
variable (s : State) (h : Nat) {b : Bus} (hpin : b.pin = (s.busAt h).pin) (hinit : b.initialized = (s.busAt h).initialized)
  (slots : List Slot)
include hpin hinit

theorem State.endPass_aborted : s.endPass h (.aborted b (s.wire.play s.timing slots)) =
    ((s.played slots).clearSearch h).answered (failWord 5) := by
  rw [State.endPass, State.raise_eq _ .searchAborted (by decide), Bus.clearSearch_congr hpin hinit]
  rfl

theorem State.endPass_resolved (lz : Nat) : s.endPass h (.resolved b lz (s.wire.play s.timing slots)) =
    (s.played slots).resolved h b.rom lz b.lastFamilyDiscrepancy := by
  have hslot : { b with lastDiscrepancy := lz, lastDeviceFlag := lastDeviceAfter lz } =
      { s.busAt h with
        rom := b.rom, lastDiscrepancy := lz, lastFamilyDiscrepancy := b.lastFamilyDiscrepancy,
        lastDeviceFlag := decide (lz = 0) } := by
    simp [hpin, hinit, lastDeviceAfter_eq]
  simp only [State.endPass, State.raise_eq _ .crcMismatch (by decide), State.raise_eq _ .zeroFamily (by decide), State.ret_eq,
    Bus.clearSearch_congr hpin hinit, hslot]
  rfl

end

section
variable {s : State} {h : Nat} {i : Instr} {c : Byte} (hi : isSearch i h c) (hu : s.usable h)
include hi hu

/-- After the last device a search does nothing but answer (43 R160). -/
theorem exec_search_flagSet (hf : (s.busAt h).lastDeviceFlag = true) : exec i s = .next (s.answered (failWord 9)) := by
  rw [exec_isSearch s h i c hi hu, State.search, if_pos hf, State.raise_eq _ .noMoreDevices (by decide)]
  rfl

/-- With no presence a search plays the reset and clears the search state (43 R161). -/
theorem exec_search_noPresence (hf : (s.busAt h).lastDeviceFlag = false) (ha : s.wire.answerAt 0 = .high) :
    exec i s = .next (((s.played [.reset (s.busAt h).pin false]).clearSearch h).answered (failWord 4)) := by
  rw [exec_isSearch s h i c hi hu]
  rcases s.search_cases h c with ⟨e, _⟩ | ⟨_, _, e⟩ | ⟨_, e, _⟩
  · rw [hf] at e; cases e
  · rw [e]; rfl
  · rw [ha] at e; cases e

/-- The two ways a pass can end (43 R163 to R171): aborted at position `k + 1`, the first where both bits read 1; or with an
address resolved at every position. -/
theorem exec_search_pass_cases (hf : (s.busAt h).lastDeviceFlag = false) (ha : s.wire.answerAt 0 = .low) :
    (∃ (r : RomCode) (k : Nat), k < 64 ∧ resolves (s.busAt h) s.wire r k ∧
      (∀ q, 1 ≤ q → q ≤ k → ¬ (s.wire.idAt q = true ∧ s.wire.cmpAt q = true)) ∧
      s.wire.idAt (k + 1) = true ∧ s.wire.cmpAt (k + 1) = true ∧
      exec i s = .next (((s.played (s.wire.passSlots (s.busAt h).pin c r k ++
        [.read (s.busAt h).pin true, .read (s.busAt h).pin true])).clearSearch h).answered (failWord 5))) ∨
    (∃ (r : RomCode) (ld lfd : Nat), resolves (s.busAt h) s.wire r 64 ∧
      (∀ q, 1 ≤ q → q ≤ 64 → ¬ (s.wire.idAt q = true ∧ s.wire.cmpAt q = true)) ∧
      highestOr (zeroAt s.wire r) 64 0 ld ∧ highestOr (zeroAt s.wire r) 8 (s.busAt h).lastFamilyDiscrepancy lfd ∧
      exec i s = .next ((s.played (s.wire.passSlots (s.busAt h).pin c r 64)).resolved h r ld lfd)) := by
  rw [exec_isSearch_pass s h i c hi hu hf ha, show s.pinOf h = (s.busAt h).pin from rfl]
  rcases searchFrom_cases s.timing 64 1 0 (s.busAt h) (s.wire.play s.timing (passStart (s.busAt h).pin c)) (by omega)
    (by omega) with ⟨k, b', hk, hF, hid, hcmp, e⟩ | ⟨b', lz, hF, hlz, hlf, e⟩
  · refine .inl ⟨b'.rom, k, hk, hF.resolves_passStart, hF.answered_passStart, (passStart_idAt ..).symm.trans hid,
      (passStart_cmpAt ..).symm.trans hcmp, ?_⟩
    rw [e, ← Wire.play_append, s.endPass_aborted h hF.pin hF.initialized, ← List.append_assoc, passStart_loopSlots]
  · refine .inr ⟨b'.rom, lz, b'.lastFamilyDiscrepancy, hF.resolves_passStart, hF.answered_passStart,
      highestOr_of_lastOr _ _ 64 _ _ (by omega) (fun j hj => ?_) (by simp) hlz,
      highestOr_of_lastOr _ _ 8 _ _ (by omega) (fun j hj => ?_) (by simp) hlf, ?_⟩
    · rw [zeroTakenAt_passStart _ _ _ _ _ hj, and_iff_left (by omega)]
    · rw [zeroTakenAt_passStart _ _ _ _ _ hj]
    · rw [e, ← Wire.play_append, s.endPass_resolved h hF.pin hF.initialized, passStart_loopSlots]

end

/-- Settles O33: with the flag set the answer is all a search does, and it leaves the flag set. -/
theorem searchStopsAfterTheLastDevice : Obligations.SearchStopsAfterTheLastDevice :=
  fun s _ _ _ hi hu hf => ⟨exec_search_flagSet hi hu hf, fun _ _ hj => exec_search_flagSet (s := s.answered _) hj hu hf⟩

/-- Settles O34: with no presence the reset slot and the cleared slot are all there is. -/
theorem searchWithoutPresenceClearsTheState : Obligations.SearchWithoutPresenceClearsTheState :=
  fun _ _ _ _ hi hu hf ha => exec_search_noPresence hi hu hf ha

/-- Settles O35: of the two ends of a pass only the abort fits, and it aborts at the first silent position. -/
theorem searchAbortsWhereNobodyAnswers : Obligations.SearchAbortsWhereNobodyAnswers := by
  intro s h i c p hi hu hf ha hp hp64 hbefore hid hcmp
  rcases exec_search_pass_cases hi hu hf ha with ⟨r, k, hk, hres, hanswered, hid', hcmp', e⟩ | ⟨_, _, _, _, hanswered, _⟩
  · have hpk : ¬ p < k + 1 := fun hlt => hanswered p hp (by omega) ⟨hid, hcmp⟩
    have hkp : ¬ k + 1 < p := fun hlt => hbefore (k + 1) (by omega) hlt ⟨hid', hcmp'⟩
    obtain rfl : k = p - 1 := by omega
    exact ⟨r, hres, e⟩
  · exact absurd ⟨hid, hcmp⟩ (hanswered p hp hp64)

/-- Settles O36: of the two ends of a pass only the resolved address fits, and its validity decides the answer. -/
theorem fullSearchPassResolvesAnAddress : Obligations.FullSearchPassResolvesAnAddress := by
  intro s h i c hi hu _ hf ha hall
  rcases exec_search_pass_cases hi hu hf ha with ⟨_, k, hk, _, _, hid, hcmp, _⟩ | ⟨r, ld, lfd, hres, _, hld, hlfd, e⟩
  · exact absurd ⟨hid, hcmp⟩ (hall (k + 1) (by omega) (by omega))
  · refine ⟨r, _, e, hres, ?_⟩
    generalize s.wire.passSlots (s.busAt h).pin c r 64 = slots
    refine ⟨State.resolved_wire .., fun hr => ?_, fun hcrc hfam =>
      ⟨ld, lfd, ?_, hld, hlfd, State.resolved_dbufByte _ h r ld lfd hcrc hfam⟩⟩
    · rw [State.resolved_invalid _ _ _ _ _ hr]
      rfl
    · rw [State.resolved_valid _ _ _ _ _ hcrc hfam]
      rfl

/-- A highest position there is none of. -/
theorem highestOr_of_none {P : Nat → Prop} {limit default n : Nat} (hP : ∀ q, ¬ P q) (h : highestOr P limit default n) :
    n = default := by
  rcases h with ⟨hn, _⟩ | ⟨hn, _⟩
  · exact absurd hn (hP n)
  · exact hn

/-- Settles O37: no position is a discrepancy, so the pass resolves the device's address and takes no 0 at one. -/
theorem searchFindsASingleDevice : Obligations.SearchFindsASingleDevice := by
  intro s h i c r hi hu hf hcrc hfam ha hdevice
  have hdiffer : ∀ p, 1 ≤ p → p ≤ 64 → s.wire.cmpAt p = !s.wire.idAt p := fun p hp hp64 => by
    rw [(hdevice p hp hp64).1, (hdevice p hp hp64).2]
  rcases exec_search_pass_cases hi hu hf ha with ⟨_, k, hk, _, _, hid, hcmp, _⟩ | ⟨r', ld, lfd, hres, _, hld, hlfd, e⟩
  · rw [hdiffer (k + 1) (by omega) (by omega), hid] at hcmp
    cases hcmp
  · have hzero : ∀ q, ¬ zeroAt s.wire r' q := fun q ⟨hq, hq64, hid, hcmp, _⟩ => by
      rw [hdiffer q hq hq64, hid] at hcmp
      cases hcmp
    obtain rfl : r' = r := romCode_ext _ _ fun p hp hp64 => by
      rw [hres p hp hp64, if_neg fun hz => ?_, (hdevice p hp hp64).1]
      rw [hdiffer p hp hp64, hz.1] at hz
      cases hz.2
    obtain rfl := highestOr_of_none hzero hld
    obtain rfl := highestOr_of_none hzero hlfd
    generalize s.wire.passSlots (s.busAt h).pin c r' 64 = slots at e ⊢
    refine ⟨_, e, ?_, State.resolved_dbufByte _ h r' _ _ hcrc hfam⟩
    rw [State.resolved_valid _ _ _ _ _ hcrc hfam]
    rfl

/-- The slot of a state whose search state has been cleared. -/
theorem State.clearSearch_busAt_same (s : State) {h : Nat} (hl : h < s.bus.length) :
    (s.clearSearch h).busAt h = (s.busAt h).clearSearch :=
  s.busAt_setBus_same h _ hl

/-- Settles O38: every end of a search but success clears the slot and leaves DBUF, and success answers `ok = 1`. -/
theorem failedPassLeavesAFreshSlot : Obligations.FailedPassLeavesAFreshSlot := by
  intro s t h i c hi hu hl hf ht hok
  have hcleared : ∀ slots w, exec i s = .next (((s.played slots).clearSearch h).answered w) →
      t.busAt h = (s.busAt h).clearSearch ∧ t.dbuf = s.dbuf := fun slots w e => by
    obtain rfl := Host.Outcome.next.inj (e.symm.trans ht)
    exact ⟨(s.played slots).clearSearch_busAt_same hl, rfl⟩
  cases ha : s.wire.answerAt 0 with
  | high => exact hcleared _ _ (exec_search_noPresence hi hu hf ha)
  | low =>
    rcases exec_search_pass_cases hi hu hf ha with ⟨_, _, _, _, _, _, _, e⟩ | ⟨r, ld, lfd, _, _, _, _, e⟩
    · exact hcleared _ _ e
    · by_cases hr : romCrc r ≠ 0 ∨ romByte r 0 = 0
      · exact hcleared _ _ (State.resolved_invalid _ h r ld lfd hr ▸ e)
      · obtain ⟨hcrc, hfam⟩ := not_or.1 hr
        rw [State.resolved_valid _ h r ld lfd (not_not.1 hcrc) hfam] at e
        obtain rfl := Host.Outcome.next.inj (e.symm.trans ht)
        exact absurd (show (okWord 0).getLsbD 31 = false from hok) (by decide)

/-! ### The two command bytes (43 R158, R159) -/

/-- What the end of a pass means depends on the slot and `last_zero` alone: the wire side stays as the pass left it. -/
theorem State.endPass_passEnd (s : State) (h : Nat) (b : Bus) (olz : Option Nat) (w w' : Wire) :
    s.endPass h (passEnd b olz w') = (s.endPass h (passEnd b olz w)).withWire w' := by
  cases olz with
  | none => rfl
  | some lz =>
    simp only [passEnd, State.endPass]
    split
    · rfl
    · split <;> rfl

/-- What a stopped guard answers does not depend on the operation behind it. -/
theorem State.onBus_congr_of_not_usable (s : State) {h : Nat} (run run' : State → State) (hn : ¬ s.usable h) :
    s.onBus h run = s.onBus h run' := by
  rcases s.onBus_cases h run with ⟨hu, _⟩ | ⟨hm, e⟩ | ⟨⟨hm, hi⟩, e⟩
  · exact absurd hu hn
  · rw [e, s.onBus_missing h run' hm]
  · rw [e, s.onBus_uninitialized h run' hm hi]

/-- Where no command byte is sent the two searches do the same (43 R160, R161; 30 R91). -/
theorem exec_alarmSearch_of_unsent {s : State} {h : Nat}
    (hn : ¬ (s.usable h ∧ (s.busAt h).lastDeviceFlag = false ∧ s.wire.answerAt 0 = .low)) :
    exec (.alarmSearch h) s = exec (.search h) s := by
  have hsearch : isSearch (.search h) h 0xF0 := .inl ⟨rfl, rfl⟩
  have halarm : isSearch (.alarmSearch h) h 0xEC := .inr ⟨rfl, rfl⟩
  by_cases hu : s.usable h
  · cases hf : (s.busAt h).lastDeviceFlag with
    | true => rw [exec_search_flagSet halarm hu hf, exec_search_flagSet hsearch hu hf]
    | false =>
      cases ha : s.wire.answerAt 0 with
      | high => rw [exec_search_noPresence halarm hu hf ha, exec_search_noPresence hsearch hu hf ha]
      | low => exact absurd ⟨hu, hf, ha⟩ hn
  · exact congrArg Host.Outcome.next (s.onBus_congr_of_not_usable (fun s => s.search h cmdAlarmSearch)
      (fun s => s.search h cmdSearchRom) hu)

/-- With presence the two passes differ in the eight slots of the command byte alone: the loop depends on the bits of its
samples, and the command byte draws none. -/
theorem exec_searches_of_presence {s : State} {h : Nat} (hu : s.usable h) (hf : (s.busAt h).lastDeviceFlag = false)
    (ha : s.wire.answerAt 0 = .low) : ∃ (t : State) (slots : List Slot), ∀ i c, isSearch i h c →
      exec i s = .next (t.withWire (s.wire.play s.timing (passStart (s.busAt h).pin c ++ slots))) := by
  obtain ⟨b, olz, slots, _, _, hloop⟩ := searchFrom_shape 64 1 0 (s.busAt h)
    (s.wire.play s.timing (passStart (s.busAt h).pin cmdSearchRom))
  refine ⟨s.endPass h (passEnd b olz s.wire), slots, fun i c hi => ?_⟩
  have hbits : ∀ k, (s.wire.play s.timing (passStart (s.pinOf h) c)).bitAt k =
      (s.wire.play s.timing (passStart (s.busAt h).pin cmdSearchRom)).bitAt k := fun k => by
    rw [passStart_bitAt, passStart_bitAt]
  rw [exec_isSearch_pass s h i c hi hu hf ha, hloop _ _ hbits, ← Wire.play_append, s.endPass_passEnd h b olz s.wire]
  rfl

/-- Settles O39: where a byte is sent the two runs play the same slots but for it, and otherwise they are one and the same. -/
theorem alarmSearchDiffersOnlyInItsCommandByte : Obligations.AlarmSearchDiffersOnlyInItsCommandByte := by
  refine ⟨encodedAs_readFrom (.search 0), encodedAs_readFrom (.alarmSearch 0), fun s t u h ht hu => ?_⟩
  by_cases hsent : s.usable h ∧ (s.busAt h).lastDeviceFlag = false ∧ s.wire.answerAt 0 = .low
  · obtain ⟨husable, hf, ha⟩ := hsent
    obtain ⟨v, slots, hv⟩ := exec_searches_of_presence husable hf ha
    obtain rfl := Host.Outcome.next.inj ((hv _ _ (.inl ⟨rfl, rfl⟩)).symm.trans ht)
    obtain rfl := Host.Outcome.next.inj ((hv _ _ (.inr ⟨rfl, rfl⟩)).symm.trans hu)
    refine ⟨?_, fun hn => absurd ⟨husable, hf, ha⟩ hn, fun _ _ _ =>
      ⟨_, slots.flatMap (slotEvents s.cfg.timing), rfl, ?_, ?_⟩⟩
    · exact congrArg v.withWire (sameButEvents_play s.timing s.timing (passStart (s.busAt h).pin 0xF0 ++ slots)
        (passStart (s.busAt h).pin 0xEC ++ slots) rfl rfl s.wire s.wire rfl)
    · simp [Wire.play_trace, passStart, State.timing, -Wire.play_cons]
    · simp [Wire.play_trace, passStart, State.timing, -Wire.play_cons]
  · obtain rfl := Host.Outcome.next.inj (ht.symm.trans ((exec_alarmSearch_of_unsent hsent).symm.trans hu))
    exact ⟨rfl, fun _ => rfl, fun h1 h2 h3 => absurd ⟨h1, h2, h3⟩ hsent⟩

/-- Settles O40: the guard, then the slot cleared. -/
theorem resetSearchClearsTheSearchState : Obligations.ResetSearchClearsTheSearchState := by
  refine ⟨encodedAs_readFrom (.resetSearch 0), fun s h => ⟨guardedBy_onBus s h _, fun hu => ?_⟩⟩
  simp only [exec, execResetSearch, s.onBus_usable h _ hu, State.ret_eq]
  rfl

end Sys2Proof.Machine
end

section
/-! SUPPORT. The order of discovery (spec/43_search.md R174), by the first position where two addresses differ; the positions at
which an address leaves others for later (R165, R173); and what a pass resolves among the addresses that answer it. -/

namespace Sys2Proof.Machine

open Sys2Proof

/-! ### The order of discovery -/

/-- Two addresses with the same bits at every position before `p`. -/
def agreeBelow (x y : RomCode) (p : Nat) : Prop := ∀ q, 1 ≤ q → q < p → romBit x q = romBit y q

section
variable {x y z : RomCode} {p : Nat}

theorem agreeBelow.symm (h : agreeBelow x y p) : agreeBelow y x p := fun q hq hqp => (h q hq hqp).symm

theorem agreeBelow.trans (hxy : agreeBelow x y p) (hyz : agreeBelow y z p) : agreeBelow x z p :=
  fun q hq hqp => (hxy q hq hqp).trans (hyz q hq hqp)

@[simp] theorem agreeBelow_one : agreeBelow x y 1 := fun q hq hqp => absurd hqp (by omega)

theorem agreeBelow_succ (hp : 1 ≤ p) : agreeBelow x y (p + 1) ↔ agreeBelow x y p ∧ romBit x p = romBit y p := by
  refine ⟨fun h => ⟨fun q hq hqp => h q hq (by omega), h p hp (by omega)⟩, fun ⟨h, hbit⟩ q hq hqp => ?_⟩
  by_cases hqp' : q = p
  · exact hqp' ▸ hbit
  · exact h q hq (by omega)

theorem agreeBelow_all : agreeBelow x y 65 ↔ x = y :=
  ⟨fun h => romCode_ext x y fun q hq hq64 => h q hq (by omega), fun h _ _ _ => h ▸ rfl⟩

/-- Position 1 is the most significant of the key's 64 digits (43 R174). -/
theorem testBit_discoveryKey (r : RomCode) (j : Nat) :
    (discoveryKey r).testBit j = (decide (j < 64) && romBit r (64 - j)) := by
  rw [discoveryKey, BitVec.testBit_toNat, BitVec.getLsbD_reverse, BitVec.getMsbD, romBit, Nat.sub_right_comm]

theorem discoveryKey_injective : Function.Injective discoveryKey := fun x y h => by
  rw [← BitVec.reverse_reverse_eq (x := x), BitVec.eq_of_toNat_eq h, BitVec.reverse_reverse_eq]

/-- `y` comes after `x` in the order of discovery, and `p` is the first position where they differ. -/
structure discoveredBefore (x y : RomCode) (p : Nat) : Prop where
  pos : 1 ≤ p
  le : p ≤ 64
  agree : agreeBelow x y p
  zero : romBit x p = false
  one : romBit y p = true

theorem discoveredBefore.key_lt (h : discoveredBefore x y p) : discoveryKey x < discoveryKey y := by
  obtain ⟨hp, hp64, hagree, hzero, hone⟩ := h
  have hback : 64 - (64 - p) = p := by omega
  refine Nat.lt_of_testBit (64 - p) ?_ ?_ fun j hj => ?_
  · rw [testBit_discoveryKey, hback, hzero, Bool.and_false]
  · rw [testBit_discoveryKey, hback, hone, Bool.and_true, decide_eq_true (by omega)]
  · rw [testBit_discoveryKey, testBit_discoveryKey]
    by_cases hj64 : j < 64
    · rw [hagree (64 - j) (by omega) (by omega)]
    · simp [hj64]

/-- Two addresses that differ have a first position where they do. -/
theorem exists_first_difference (h : x ≠ y) : ∃ p, discoveredBefore x y p ∨ discoveredBefore y x p := by
  have hex : ∃ p, 1 ≤ p ∧ p ≤ 64 ∧ romBit x p ≠ romBit y p := by
    by_contra hall
    push Not at hall
    exact h (romCode_ext x y hall)
  classical
  obtain ⟨hp, hp64, hne⟩ := Nat.find_spec hex
  have hagree : agreeBelow x y (Nat.find hex) := fun q hq hqp => by
    by_contra hq'
    exact Nat.find_min hex hqp ⟨hq, by omega, hq'⟩
  refine ⟨Nat.find hex, ?_⟩
  cases hx : romBit x (Nat.find hex) with
  | false => exact .inl ⟨hp, hp64, hagree, hx, by simpa [hx] using hne⟩
  | true => exact .inr ⟨hp, hp64, hagree.symm, by simpa [hx] using hne, hx⟩

theorem exists_discoveredBefore (h : discoveryKey x < discoveryKey y) : ∃ p, discoveredBefore x y p := by
  obtain ⟨p, hp | hp⟩ := exists_first_difference (x := x) (y := y) fun hxy => absurd h (by rw [hxy]; exact lt_irrefl _)
  · exact ⟨p, hp⟩
  · exact absurd hp.key_lt (lt_asymm h)

end

/-! ### The positions that leave addresses for later (43 R165, R173) -/

/-- At position `p` the address `r` has a 0, and one of the addresses, the same before, a 1: it comes after `r`. -/
def branchAt (roms : List RomCode) (r : RomCode) (p : Nat) : Prop := ∃ x ∈ roms, discoveredBefore r x p

section
variable {b : Bus} {roms : List RomCode} (hfront : b.atFrontier roms)
include hfront

theorem Bus.atFrontier.rom_mem : b.rom ∈ roms := hfront.1

/-- An address still to come differs from `rom` first at `last_discrepancy` or before it. -/
theorem Bus.atFrontier.branch_le {x : RomCode} {p : Nat} (hx : x ∈ roms) (h : discoveredBefore b.rom x p) :
    p ≤ b.lastDiscrepancy := by
  by_contra hlt
  obtain ⟨_, _, hnone⟩ := hfront
  exact hnone p (by omega) h.le h.zero ⟨x, hx, h.one, h.agree.symm⟩

/-- At `last_discrepancy`, if it is not 0, an address is still to come. -/
theorem Bus.atFrontier.branchAt_lastDiscrepancy (hld : b.lastDiscrepancy ≠ 0) : branchAt roms b.rom b.lastDiscrepancy := by
  obtain ⟨_, hzero | ⟨hle, hbit, x, hx, hone, hagree⟩, _⟩ := hfront
  · exact absurd hzero hld
  · exact ⟨x, hx, by omega, hle, agreeBelow.symm hagree, hbit, hone⟩

end

/-- A slot is at the frontier if `rom` is one of the addresses and `last_discrepancy` the highest position that leaves one for
later, 0 if none does. -/
theorem Bus.atFrontier_of_highestOr {b : Bus} {roms : List RomCode} (hmem : b.rom ∈ roms)
    (h : highestOr (branchAt roms b.rom) 64 0 b.lastDiscrepancy) : b.atFrontier roms := by
  refine ⟨hmem, ?_, fun p hp hp64 hzero ⟨x, hx, hone, hagree⟩ => ?_⟩
  · rcases h with ⟨⟨x, hx, hbefore⟩, hle, _⟩ | ⟨hld, _⟩
    · exact .inr ⟨hle, hbefore.zero, x, hx, hbefore.one, hbefore.agree.symm⟩
    · exact .inl hld
  · have hbranch : branchAt roms b.rom p := ⟨x, hx, by omega, hp64, agreeBelow.symm hagree, hzero, hone⟩
    rcases h with ⟨_, _, hnone⟩ | ⟨_, hnone⟩
    · exact hnone p hp hp64 hbranch
    · exact hnone p hp64 hbranch

/-- Settles O45: an address after `rom` would differ from it first at a position from 1 to `last_discrepancy`. -/
theorem noDeviceIsLeftWhenDiscrepancyIsZero : Obligations.NoDeviceIsLeftWhenDiscrepancyIsZero := by
  intro b roms hfront hld r hr
  by_contra hlt
  obtain ⟨p, hp⟩ := exists_discoveredBefore (not_le.1 hlt)
  have hple := hfront.branch_le hr hp
  have hpos := hp.pos
  omega

/-! ### What a pass resolves among the addresses that answer it -/

/-- The two samples of position `p` in a pass that has stored `r` are those of the line of devices with these addresses: each
device that agrees with `r` so far signals its bit and then the complement, and the line gives their AND (20 R69, R74). -/
structure LineAnswers (roms : List RomCode) (w : Wire) (r : RomCode) (p : Nat) : Prop where
  id : w.idAt p = true ↔ ∀ x ∈ roms, agreeBelow x r p → romBit x p = true
  cmp : w.cmpAt p = true ↔ ∀ x ∈ roms, agreeBelow x r p → romBit x p = false

theorem LineAnswers.id_false {roms : List RomCode} {w : Wire} {r x : RomCode} {p : Nat} (h : LineAnswers roms w r p)
    (hx : x ∈ roms) (hagree : agreeBelow x r p) (hbit : romBit x p = false) : w.idAt p = false := by
  refine Bool.eq_false_iff.2 fun hid => ?_
  rw [h.id.1 hid x hx hagree] at hbit
  cases hbit

theorem LineAnswers.cmp_false {roms : List RomCode} {w : Wire} {r x : RomCode} {p : Nat} (h : LineAnswers roms w r p)
    (hx : x ∈ roms) (hagree : agreeBelow x r p) (hbit : romBit x p = true) : w.cmpAt p = false := by
  refine Bool.eq_false_iff.2 fun hcmp => ?_
  rw [h.cmp.1 hcmp x hx hagree] at hbit
  cases hbit

section
variable {roms : List RomCode} {b : Bus} {w : Wire} {r : RomCode} {n : Nat} (hres : resolves b w r n)
  (hans : ∀ p, 1 ≤ p → p ≤ n → LineAnswers roms w r p)
include hres hans

/-- Where two devices still in the search differ, the pass takes the direction of 43 R165's table. -/
theorem resolves.at_discrepancy {x y : RomCode} {p : Nat} (hp : 1 ≤ p) (hpn : p ≤ n) (hx : x ∈ roms) (hy : y ∈ roms)
    (hxr : agreeBelow x r p) (hyr : agreeBelow y r p) (hxy : romBit y p = !romBit x p) :
    romBit r p = if p < b.lastDiscrepancy then romBit b.rom p else decide (p = b.lastDiscrepancy) := by
  have h := hans p hp hpn
  rw [hres p hp hpn, if_pos]
  cases hbit : romBit x p with
  | false => exact ⟨h.id_false hx hxr hbit, h.cmp_false hy hyr (by rw [hxy, hbit]; rfl)⟩
  | true => exact ⟨h.id_false hy hyr (by rw [hxy, hbit]; rfl), h.cmp_false hx hxr hbit⟩

/-- The pass takes the bit of a device still in the search, or another such device has the other bit. -/
theorem resolves.bit_or_discrepancy {x : RomCode} {p : Nat} (hp : 1 ≤ p) (hpn : p ≤ n) (hx : x ∈ roms)
    (hxr : agreeBelow x r p) :
    romBit x p = romBit r p ∨ ∃ y ∈ roms, agreeBelow y r p ∧ romBit y p = !romBit x p := by
  have h := hans p hp hpn
  by_contra hnot
  push Not at hnot
  obtain ⟨hne, hall⟩ := hnot
  have hsame : ∀ y ∈ roms, agreeBelow y r p → romBit y p = romBit x p := fun y hy hyr => by
    simpa using hall y hy hyr
  refine hne ?_
  rw [hres p hp hpn]
  cases hbit : romBit x p with
  | true => simp [h.id.2 fun y hy hyr => (hsame y hy hyr).trans hbit]
  | false => simp [h.id_false hx hxr hbit, h.cmp.2 fun y hy hyr => (hsame y hy hyr).trans hbit]

/-- Some device stays in the search at every position. -/
theorem resolves.exists_agreeing (hne : roms ≠ []) {p : Nat} (hpn : p ≤ n) : ∃ x ∈ roms, agreeBelow x r (p + 1) := by
  induction p with
  | zero =>
    obtain ⟨x, hx⟩ := List.exists_mem_of_ne_nil roms hne
    exact ⟨x, hx, agreeBelow_one⟩
  | succ p ih =>
    obtain ⟨x, hx, hxr⟩ := ih (by omega)
    simp only [agreeBelow_succ (Nat.succ_pos p)]
    rcases hres.bit_or_discrepancy hans (by omega) hpn hx hxr with hbit | ⟨y, hy, hyr, hbit⟩
    · exact ⟨x, hx, hxr, hbit⟩
    · by_cases hxbit : romBit x (p + 1) = romBit r (p + 1)
      · exact ⟨x, hx, hxr, hxbit⟩
      · exact ⟨y, hy, hyr, hbit.trans (Bool.eq_not.2 (Ne.symm hxbit)).symm⟩

end

section
variable {roms : List RomCode} {b : Bus} {w : Wire} {r : RomCode} (hres : resolves b w r 64)
  (hans : ∀ p, 1 ≤ p → p ≤ 64 → LineAnswers roms w r p)
include hres hans

/-- The address a full pass resolves is a device's. -/
theorem resolves.mem (hne : roms ≠ []) : r ∈ roms := by
  obtain ⟨x, hx, hxr⟩ := hres.exists_agreeing hans hne le_rfl
  exact agreeBelow_all.1 hxr ▸ hx

/-- A full pass takes a 0 at a discrepancy exactly where it leaves a device for later (43 R165). -/
theorem resolves.zeroAt_iff (hne : roms ≠ []) (p : Nat) : zeroAt w r p ↔ branchAt roms r p := by
  have hr := hres.mem hans hne
  constructor
  · rintro ⟨hp, hp64, _, hcmp, hzero⟩
    by_contra hnone
    have hall : ∀ x ∈ roms, agreeBelow x r p → romBit x p = false := fun x hx hxr =>
      Bool.eq_false_iff.2 fun hone => hnone ⟨x, hx, hp, hp64, hxr.symm, hzero, hone⟩
    rw [(hans p hp hp64).cmp.2 hall] at hcmp
    cases hcmp
  · rintro ⟨x, hx, hp, hp64, hrx, hzero, hone⟩
    have h := hans p hp hp64
    exact ⟨hp, hp64, h.id_false hr (fun _ _ _ => rfl) hzero, h.cmp_false hx hrx.symm hone, hzero⟩

/-- A full pass leaves the slot at the frontier of the devices that answer it (43 R169). -/
theorem resolves.frontier (hne : roms ≠ []) {b' : Bus} (hrom : b'.rom = r)
    (hld : highestOr (zeroAt w r) 64 0 b'.lastDiscrepancy) : b'.atFrontier roms := by
  refine Bus.atFrontier_of_highestOr (hrom ▸ hres.mem hans hne) ?_
  rw [hrom, ← funext fun p => propext (hres.zeroAt_iff hans hne p)]
  exact hld

/-- The pass resolves an address after a device's only by the direction it replays before `last_discrepancy`, or takes at it. -/
theorem resolves.passed_over (hne : roms ≠ []) {x : RomCode} {p : Nat} (hx : x ∈ roms) (h : discoveredBefore x r p) :
    (p < b.lastDiscrepancy ∧ romBit b.rom p = true) ∨ p = b.lastDiscrepancy := by
  have hdir := hres.at_discrepancy hans h.pos h.le hx (hres.mem hans hne) h.agree (fun _ _ _ => rfl)
    (by rw [h.zero, h.one]; rfl)
  rw [h.one] at hdir
  split at hdir
  · next hlt => exact .inl ⟨hlt, hdir.symm⟩
  · exact .inr (of_decide_eq_true hdir.symm)

/-- A fresh pass resolves the device first in the order of discovery. -/
theorem resolves.least (hne : roms ≠ []) (hld : b.lastDiscrepancy = 0) : ∀ x ∈ roms, discoveryKey r ≤ discoveryKey x := by
  intro x hx
  by_contra hlt
  obtain ⟨p, hp⟩ := exists_discoveredBefore (not_le.1 hlt)
  have hpos := hp.pos
  rcases hres.passed_over hans hne hx hp with ⟨hplt, _⟩ | hpeq <;> omega

section
variable (hfront : b.atFrontier roms) (hld : b.lastDiscrepancy ≠ 0)
include hfront

/-- Below `last_discrepancy` a pass from the frontier replays the previous address (43 R165). -/
theorem resolves.replays {p : Nat} (hp : p < b.lastDiscrepancy) : agreeBelow b.rom r (p + 1) := by
  have hle : b.lastDiscrepancy ≤ 64 := by
    obtain ⟨y, hy, hby⟩ := hfront.branchAt_lastDiscrepancy (by omega)
    exact hby.le
  induction p with
  | zero => exact agreeBelow_one
  | succ p ih =>
    have hagree := ih (by omega)
    refine (agreeBelow_succ (Nat.succ_pos p)).2 ⟨hagree, ?_⟩
    rcases hres.bit_or_discrepancy hans (by omega) (by omega) hfront.rom_mem hagree with hbit | ⟨y, hy, hyr, hbit⟩
    · exact hbit
    · rw [hres.at_discrepancy hans (by omega) (by omega) hfront.rom_mem hy hagree hyr hbit, if_pos hp]

include hld

theorem resolves.after_previous : discoveredBefore b.rom r b.lastDiscrepancy := by
  obtain ⟨y, hy, hby⟩ := hfront.branchAt_lastDiscrepancy hld
  have hagree : agreeBelow b.rom r b.lastDiscrepancy := by
    have := hres.replays hans hfront (p := b.lastDiscrepancy - 1) (by omega)
    rwa [Nat.sub_add_cancel hby.pos] at this
  have hdir := hres.at_discrepancy hans hby.pos hby.le hfront.rom_mem hy hagree (hby.agree.symm.trans hagree)
    (by rw [hby.zero, hby.one]; rfl)
  exact ⟨hby.pos, hby.le, hagree, hby.zero, by simpa using hdir⟩

/-- A pass from the frontier skips no device between the previous one and its own. -/
theorem resolves.next_least :
    ∀ x ∈ roms, discoveryKey b.rom < discoveryKey x → discoveryKey r ≤ discoveryKey x := by
  intro x hx hbx
  have hafter := hres.after_previous hans hfront hld
  by_contra hlt
  obtain ⟨p, hp⟩ := exists_discoveredBefore (not_le.1 hlt)
  obtain ⟨q, hq⟩ := exists_discoveredBefore hbx
  have hqle := hfront.branch_le hx hq
  rcases hres.passed_over hans (List.ne_nil_of_mem hx) hx hp with ⟨hplt, hone⟩ | rfl
  · have hxb : discoveredBefore x b.rom p :=
      ⟨hp.pos, hp.le, hp.agree.trans fun k hk hkp => (hafter.agree k hk (by omega)).symm, hp.zero, hone⟩
    exact lt_asymm hxb.key_lt hbx
  · have hxb : agreeBelow x b.rom (b.lastDiscrepancy + 1) :=
      (agreeBelow_succ hp.pos).2 ⟨hp.agree.trans hafter.agree.symm, hp.zero.trans hafter.zero.symm⟩
    have hbit := hxb q hq.pos (by omega)
    rw [hq.zero, hq.one] at hbit
    cases hbit

end
end

end Sys2Proof.Machine
end

section
/-! SUPPORT. A search on a reference line (spec/20_memory.md R66 to R74): where each device is at every position of a pass, and so
what the line answers there. -/

namespace Sys2Proof.Machine

open Sys2Proof

/-! ### A line of devices, device by device -/

/-- A device after a slot on its line (20 R67 to R73). -/
def Device.after (d : Device) : Slot → Device
  | .reset _ _ => d.afterReset
  | .write _ b => d.afterWrite b
  | .read _ _ => d.afterRead

/-- A device after a sequence of slots on its line. -/
def Device.afterAll (d : Device) (slots : List Slot) : Device := slots.foldl Device.after d

theorem Line.after_devices (ds : List Device) (slot : Slot) :
    (Line.devices ds).after slot = .devices (ds.map fun d => d.after slot) := by
  cases slot <;> rfl

theorem Line.afterAll_devices (ds : List Device) (slots : List Slot) :
    (Line.devices ds).afterAll slots = .devices (ds.map fun d => d.afterAll slots) := by
  induction slots generalizing ds with
  | nil => simp [Line.afterAll, Device.afterAll]
  | cons slot slots ih =>
    rw [Line.afterAll, List.foldl_cons, Line.after_devices]
    exact (ih _).trans (by rw [List.map_map]; rfl)

@[simp] theorem Device.after_rom (d : Device) (slot : Slot) : (d.after slot).rom = d.rom := by
  cases slot <;> simp [Device.after]

@[simp] theorem Device.after_alarm (d : Device) (slot : Slot) : (d.after slot).alarm = d.alarm := by
  cases slot <;> simp [Device.after]

@[simp] theorem Device.afterAll_rom (d : Device) (slots : List Slot) : (d.afterAll slots).rom = d.rom := by
  induction slots generalizing d with
  | nil => rfl
  | cons slot slots ih => exact (ih _).trans (d.after_rom slot)

@[simp] theorem Device.afterAll_alarm (d : Device) (slots : List Slot) : (d.afterAll slots).alarm = d.alarm := by
  induction slots generalizing d with
  | nil => rfl
  | cons slot slots ih => exact (ih _).trans (d.after_alarm slot)

theorem Device.afterAll_append (d : Device) (xs ys : List Slot) : d.afterAll (xs ++ ys) = (d.afterAll xs).afterAll ys :=
  List.foldl_append

/-- No slot changes which devices take part in a search, or their ROM codes (20 R66, R68). -/
theorem searchedRoms_map {f : Device → Device} (hrom : ∀ d, (f d).rom = d.rom) (halarm : ∀ d, (f d).alarm = d.alarm)
    (ds : List Device) (c : Byte) : searchedRoms (ds.map f) c = searchedRoms ds c := by
  simp [searchedRoms, List.filter_map, Function.comp_def, hrom, Device.answersSearch, halarm]

theorem forall_searchedRoms {ds : List Device} {c : Byte} {P : RomCode → Prop} :
    (∀ x ∈ searchedRoms ds c, P x) ↔ ∀ d ∈ ds, d.answersSearch c = true → P d.rom := by
  simp only [searchedRoms, List.forall_mem_map, List.mem_filter, and_imp]

theorem Line.bit_devices (ds : List Device) :
    (Line.devices ds).bit = true ↔ ∀ d ∈ ds, d.signal.getD true = true := by
  simp [Line.bit]

/-! ### Where a device is in a pass (20 R68 to R70) -/

/-- The device takes part in the search and agrees with the address `r` at every position before `p`. -/
def Device.inSearch (d : Device) (c : Byte) (r : RomCode) (p : Nat) : Prop :=
  d.answersSearch c = true ∧ agreeBelow d.rom r p

/-- Where a device is before the slot `phase` of position `p`, in a pass that has sent the bits of `r` so far: waiting for that
slot if it is still in the search, and silent otherwise. -/
structure Device.tracks (c : Byte) (r : RomCode) (p : Nat) (phase : SearchPhase) (d : Device) : Prop where
  searching : d.inSearch c r p → d.mode = .search p phase
  dropped : ¬ d.inSearch c r p → d.mode = .dropped

section
variable {d : Device} {c : Byte} {r : RomCode} {p : Nat}

theorem Device.tracks.signal_trueBit (h : d.tracks c r p .trueBit) :
    d.signal.getD true = true ↔ (d.inSearch c r p → romBit d.rom p = true) := by
  by_cases hin : d.inSearch c r p
  · simp [Device.signal, h.searching hin, hin]
  · simp [Device.signal, h.dropped hin, hin]

theorem Device.tracks.signal_complement (h : d.tracks c r p .complement) :
    d.signal.getD true = true ↔ (d.inSearch c r p → romBit d.rom p = false) := by
  by_cases hin : d.inSearch c r p
  · simp [Device.signal, h.searching hin, hin]
  · simp [Device.signal, h.dropped hin, hin]

theorem Device.inSearch_afterRead : d.afterRead.inSearch c r p ↔ d.inSearch c r p := by
  simp [Device.inSearch, Device.answersSearch]

theorem Device.tracks.afterRead_trueBit (h : d.tracks c r p .trueBit) : d.afterRead.tracks c r p .complement := by
  refine ⟨fun hin => ?_, fun hin => ?_⟩
  · simp [Device.afterRead, h.searching (Device.inSearch_afterRead.1 hin)]
  · simp [Device.afterRead, h.dropped (mt Device.inSearch_afterRead.2 hin)]

theorem Device.tracks.afterRead_complement (h : d.tracks c r p .complement) : d.afterRead.tracks c r p .direction := by
  refine ⟨fun hin => ?_, fun hin => ?_⟩
  · simp [Device.afterRead, h.searching (Device.inSearch_afterRead.1 hin)]
  · simp [Device.afterRead, h.dropped (mt Device.inSearch_afterRead.2 hin)]

/-- A device stays in the search if the direction is its own bit (20 R70). -/
theorem Device.inSearch_afterWrite (b : Bool) (hp : 1 ≤ p) :
    (d.afterWrite b).inSearch c r (p + 1) ↔ d.inSearch c r p ∧ romBit d.rom p = romBit r p := by
  simp [Device.inSearch, Device.answersSearch, agreeBelow_succ hp, and_assoc]

theorem Device.tracks.afterWrite (hp : 1 ≤ p) (hp64 : p < 64) (h : d.tracks c r p .direction) :
    (d.afterWrite (romBit r p)).tracks c r (p + 1) .trueBit := by
  refine ⟨fun hin => ?_, fun hin => ?_⟩ <;> rw [Device.inSearch_afterWrite _ hp] at hin
  · simp [Device.afterWrite, h.searching hin.1, hin.2, hp64.ne]
  · by_cases hin' : d.inSearch c r p
    · have hne : ¬ romBit r p = romBit d.rom p := fun hbit => hin ⟨hin', hbit.symm⟩
      simp [Device.afterWrite, h.searching hin', hne]
    · simp [Device.afterWrite, h.dropped hin']

end

/-! ### The command byte (20 R68) -/

/-- The shift register of a device takes one bit more of a byte. -/
theorem setWidth_or_shiftLeft_bit (c : Byte) (n : Nat) :
    (c.setWidth n).setWidth 8 ||| ((BitVec.ofBool (c.getLsbD n)).setWidth 8 <<< n) = (c.setWidth (n + 1)).setWidth 8 := by
  refine BitVec.eq_of_getLsbD_eq fun j hj => ?_
  rcases lt_trichotomy j n with hlt | rfl | hgt
  · simp [hlt, hj, show j < n + 1 by omega]
  · simp [hj]
  · simp [hj, hgt, show ¬ j < n by omega, show ¬ j - n = 0 by omega]

theorem Device.afterAll_write_bits (d : Device) (pin : PinId) (c : Byte) {n : Nat} (hn : n ≤ 7) :
    d.afterReset.afterAll ((List.range n).map fun k => .write pin (c.getLsbD k)) =
      { d with mode := .command n ((c.setWidth n).setWidth 8) } := by
  induction n with
  | zero => rw [BitVec.eq_nil (c.setWidth 0)]; rfl
  | succ n ih =>
    rw [List.range_succ, List.map_append, Device.afterAll_append, ih (by omega), ← setWidth_or_shiftLeft_bit]
    simp [Device.afterAll, Device.after, Device.afterWrite, show n < 7 by omega]

/-- A device that has seen a reset and the eight slots of a command byte is in that command's mode (20 R67, R68). -/
theorem Device.afterAll_passStart (d : Device) (pin : PinId) (c : Byte) :
    d.afterAll (passStart pin c) = { d with mode := d.commandMode c } := by
  have hslots : passStart pin c = [.reset pin true] ++ ((List.range 7).map fun k => .write pin (c.getLsbD k)) ++
      [.write pin (c.getLsbD 7)] := by
    rw [passStart, writeSlots_singleton, List.range_succ, List.map_append]
    rfl
  have hbyte := setWidth_or_shiftLeft_bit c 7
  rw [BitVec.setWidth_eq, BitVec.setWidth_eq] at hbyte
  rw [hslots, Device.afterAll_append, Device.afterAll_append]
  exact (congrArg (fun d' => Device.afterWrite d' (c.getLsbD 7)) (d.afterAll_write_bits pin c le_rfl)).trans
    (congrArg (fun sh => { d with mode := d.commandMode sh }) hbyte)

/-- A search byte leaves a device either in the search or silent. -/
theorem Device.commandMode_dropped {d : Device} {i : Instr} {h : Nat} {c : Byte} (hi : isSearch i h c)
    (hn : ¬ d.answersSearch c = true) : d.commandMode c = .dropped := by
  rcases hi with ⟨_, rfl⟩ | ⟨_, rfl⟩
  · exact absurd rfl hn
  · have halarm : d.alarm = false := Bool.eq_false_iff.2 hn
    simp [Device.commandMode, cmdSearchRom, cmdAlarmSearch, halarm]

/-- Every device waits for position 1 after the command byte, or is silent. -/
theorem Device.tracks_passStart (d : Device) (pin : PinId) {i : Instr} {h : Nat} {c : Byte} (hi : isSearch i h c) (r : RomCode) :
    (d.afterAll (passStart pin c)).tracks c r 1 .trueBit := by
  have hin : (d.afterAll (passStart pin c)).inSearch c r 1 ↔ d.answersSearch c = true := by
    simp [Device.inSearch, Device.answersSearch]
  rw [Device.afterAll_passStart] at hin ⊢
  exact ⟨fun h => (d.commandMode_search c).2 (hin.1 h), fun h => Device.commandMode_dropped hi (mt hin.2 h)⟩

/-! ### A pass on a line -/

theorem Wire.passSlots_zero (w : Wire) (pin : PinId) (c : Byte) (r : RomCode) : w.passSlots pin c r 0 = passStart pin c := by
  simp [Wire.passSlots, passStart]

theorem Wire.passSlots_succ (w : Wire) (pin : PinId) (c : Byte) (r : RomCode) (n : Nat) :
    w.passSlots pin c r (n + 1) = w.passSlots pin c r n ++ w.positionSlots pin r (n + 1) := by
  simp [Wire.passSlots, List.range_succ]

section
variable {i : Instr} {h : Nat} {c : Byte} (hi : isSearch i h c)
include hi

/-- Every device waits for the next position of the pass, or is silent. -/
theorem Device.tracks_passSlots (d : Device) (w : Wire) (pin : PinId) (r : RomCode) {n : Nat} (hn : n < 64) :
    (d.afterAll (w.passSlots pin c r n)).tracks c r (n + 1) .trueBit := by
  induction n with
  | zero => exact w.passSlots_zero pin c r ▸ d.tracks_passStart pin hi r
  | succ n ih =>
    rw [Wire.passSlots_succ, Device.afterAll_append]
    exact (ih (by omega)).afterRead_trueBit.afterRead_complement.afterWrite (by omega) hn

/-- The line answers the two read slots of the next position with its devices' bits. -/
theorem LineAnswers.of_agrees {ds : List Device} {w : Wire} {pin : PinId} {r : RomCode} {n : Nat} {rest : List Slot} (hn : n < 64)
    (ha : (Line.devices ds).agrees
      (w.passSlots pin c r n ++ .read pin (w.idAt (n + 1)) :: .read pin (w.cmpAt (n + 1)) :: rest) = true) :
    LineAnswers (searchedRoms ds c) w r (n + 1) := by
  rw [Line.agrees_append, Line.afterAll_devices, Bool.and_eq_true] at ha
  obtain ⟨_, ha⟩ := ha
  have htracks : ∀ d ∈ ds.map fun d => d.afterAll (w.passSlots pin c r n), d.tracks c r (n + 1) .trueBit :=
    List.forall_mem_map.2 fun d _ => d.tracks_passSlots hi w pin r hn
  have hroms : searchedRoms (ds.map fun d => d.afterAll (w.passSlots pin c r n)) c = searchedRoms ds c :=
    searchedRoms_map (by simp) (by simp) ds c
  rw [← hroms]
  generalize ds.map (fun d => d.afterAll (w.passSlots pin c r n)) = ds' at ha htracks
  simp only [Line.agrees, Line.answers, Bool.and_eq_true, beq_iff_eq] at ha
  obtain ⟨hid, hcmp, _⟩ := ha
  refine ⟨?_, ?_⟩
  · rw [hid, Line.bit_devices, forall_searchedRoms]
    exact forall₂_congr fun d hd => (htracks d hd).signal_trueBit.trans and_imp
  · rw [hcmp, Line.after_devices, Line.bit_devices, forall_searchedRoms, List.forall_mem_map]
    exact forall₂_congr fun d hd => (htracks d hd).afterRead_trueBit.signal_complement.trans 
      (by simp [Device.inSearch, Device.answersSearch])

/-- At every position of a pass that the line answers, it answers with its devices' bits. -/
theorem LineAnswers.of_agrees_pass {ds : List Device} {w : Wire} {pin : PinId} {r : RomCode} {n : Nat} (hn : n ≤ 64)
    (ha : (Line.devices ds).agrees (w.passSlots pin c r n) = true) :
    ∀ p, 1 ≤ p → p ≤ n → LineAnswers (searchedRoms ds c) w r p := by
  induction n with
  | zero => exact fun p hp hpn => absurd hpn (by omega)
  | succ n ih =>
    rw [Wire.passSlots_succ] at ha
    intro p hp hpn
    by_cases hlast : p = n + 1
    · exact hlast ▸ LineAnswers.of_agrees hi (by omega) ha
    · rw [Line.agrees_append, Bool.and_eq_true] at ha
      exact ih (by omega) ha.1 p hp (by omega)

end

/-! ### A search whose slots the lines answer -/

theorem isSearch.handle {i : Instr} {h : Nat} {c : Byte} (hi : isSearch i h c) : i.handle? = some h := by
  rcases hi with ⟨rfl, _⟩ | ⟨rfl, _⟩ <;> rfl

/-- The slots an operation plays are those its trace shows, and the line of its bus answers them (20 R65, R76). -/
theorem Line.agrees_of_played {i : Instr} {s t : State} {h : Nat} {ls : Lines} {slots played : List Slot}
    (hh : i.handle? = some h) (ht : exec i s = .next t) (hne : s.cfg.timing.tW1l ≠ s.cfg.timing.tW0l)
    (htrace : t.wire.trace = s.wire.trace ++ slots.flatMap (slotEvents s.cfg.timing)) (hagree : ls.agrees slots = true)
    (hplayed : t.wire = s.wire.play s.cfg.timing played) : (ls (s.busAt h).pin).agrees played = true := by
  have hslots : ∀ xs, t.wire = s.wire.play s.cfg.timing xs → xs = slots := fun xs hxs => by
    rw [hxs, Wire.play_trace] at htrace
    exact slotEvents_injective s.cfg.timing hne _ _ (List.append_cancel_left htrace)
  rcases exec_cases ht with ⟨pin, rfl, _⟩ | ⟨_, he⟩
  · cases hh
  · obtain ⟨xs, hxs, hpins⟩ := he.wire hh
    rw [hslots xs hxs, ← hslots played hplayed] at hpins
    rw [← Lines.agrees_of_pin ls _ played hpins, hslots played hplayed]
    exact hagree

/-- Both samples of a position are 1 if no device is in the search, and not if one is. -/
theorem LineAnswers.silent_iff {roms : List RomCode} {w : Wire} {r : RomCode} {p : Nat} (h : LineAnswers roms w r p) :
    (w.idAt p = true ∧ w.cmpAt p = true) ↔ ∀ x ∈ roms, ¬ agreeBelow x r p := by
  rw [h.id, h.cmp]
  refine ⟨fun ⟨hone, hzero⟩ x hx hxr => ?_, fun hnone => ⟨fun x hx hxr => absurd hxr (hnone x hx), fun x hx hxr =>
    absurd hxr (hnone x hx)⟩⟩
  have hbit := hone x hx hxr
  rw [hzero x hx hxr] at hbit
  cases hbit

section
variable {s t : State} {h : Nat} {i : Instr} {c : Byte} {ls : Lines} {ds : List Device} {slots : List Slot}
  (hi : isSearch i h c) (hu : s.usable h) (hne : s.cfg.timing.tW1l ≠ s.cfg.timing.tW0l)
  (hf : (s.busAt h).lastDeviceFlag = false) (hline : ls (s.busAt h).pin = .devices ds) (hds : ds ≠ [])
  (ht : exec i s = .next t) (htrace : t.wire.trace = s.wire.trace ++ slots.flatMap (slotEvents s.cfg.timing))
  (hagree : ls.agrees slots = true)
include hi hu hne hf hline hds ht htrace hagree

/-- A line with devices answers the reset with presence (20 R67). -/
theorem answerAt_low_of_devices : s.wire.answerAt 0 = .low := by
  cases ha : s.wire.answerAt 0 with
  | low => rfl
  | high =>
    obtain rfl := Host.Outcome.next.inj ((exec_search_noPresence hi hu hf ha).symm.trans ht)
    have hanswer := Line.agrees_of_played hi.handle ht hne htrace hagree rfl
    rw [hline] at hanswer
    simp [Line.agrees, Line.answers, Line.presence, hds] at hanswer

/-- The two ends of a pass on a line: the abort if no device takes part, and an address resolved by the devices' bits if one
does. -/
theorem search_on_line_cases :
    (searchedRoms ds c = [] ∧ ∃ played, t = ((s.played played).clearSearch h).answered (failWord 5)) ∨
    (searchedRoms ds c ≠ [] ∧ ∃ r ld lfd played, resolves (s.busAt h) s.wire r 64 ∧
      (∀ p, 1 ≤ p → p ≤ 64 → LineAnswers (searchedRoms ds c) s.wire r p) ∧ highestOr (zeroAt s.wire r) 64 0 ld ∧
      t = (s.played played).resolved h r ld lfd) := by
  have ha := answerAt_low_of_devices hi hu hne hf hline hds ht htrace hagree
  have hanswered : ∀ played, t.wire = s.wire.play s.cfg.timing played → (Line.devices ds).agrees played = true :=
    fun played hp => hline ▸ Line.agrees_of_played hi.handle ht hne htrace hagree hp
  rcases exec_search_pass_cases hi hu hf ha with ⟨r, k, hk, hres, _, hid, hcmp, e⟩ | ⟨r, ld, lfd, hres, hall, hld, _, e⟩
  · obtain rfl := Host.Outcome.next.inj (e.symm.trans ht)
    have hagrees := hanswered _ rfl
    have hbefore : (Line.devices ds).agrees (s.wire.passSlots (s.busAt h).pin c r k) = true := by
      rw [Line.agrees_append, Bool.and_eq_true] at hagrees
      exact hagrees.1
    have hlast : LineAnswers (searchedRoms ds c) s.wire r (k + 1) :=
      .of_agrees hi hk (rest := []) (by rw [hid, hcmp]; exact hagrees)
    refine .inl ⟨?_, _, rfl⟩
    by_contra hsome
    obtain ⟨x, hx, hxr⟩ := hres.exists_agreeing (.of_agrees_pass hi hk.le hbefore) hsome le_rfl
    exact hlast.silent_iff.1 ⟨hid, hcmp⟩ x hx hxr
  · obtain rfl := Host.Outcome.next.inj (e.symm.trans ht)
    have hans := LineAnswers.of_agrees_pass hi le_rfl
      (hanswered (s.wire.passSlots (s.busAt h).pin c r 64) (State.resolved_wire ..))
    refine .inr ⟨fun hnone => ?_, r, ld, lfd, _, hres, hans, hld, rfl⟩
    exact hall 1 le_rfl (by omega) ((hans 1 le_rfl (by omega)).silent_iff.2 (by simp [hnone]))

/-- If no device takes part, the search aborts and clears its state. -/
theorem search_of_none (hl : h < s.bus.length) (hnone : searchedRoms ds c = []) :
    t.rsp = failWord 5 ∧ (t.busAt h).searchCleared := by
  rcases search_on_line_cases hi hu hne hf hline hds ht htrace hagree with ⟨_, played, rfl⟩ | ⟨hsome, _⟩
  · rw [State.answered_busAt, State.clearSearch_busAt_same (s.played played) hl]
    exact ⟨rfl, rfl, rfl, rfl, rfl⟩
  · exact absurd hnone hsome

/-- If devices take part, the pass resolves the address of one by their bits, and succeeds with it. -/
theorem search_of_some (hl : h < s.bus.length) (hvalid : ∀ d ∈ ds, d.valid) (hsome : searchedRoms ds c ≠ []) :
    resolves (s.busAt h) s.wire (t.busAt h).rom 64 ∧
      (∀ p, 1 ≤ p → p ≤ 64 → LineAnswers (searchedRoms ds c) s.wire (t.busAt h).rom p) ∧ t.rsp = okWord 0 ∧
      highestOr (zeroAt s.wire (t.busAt h).rom) 64 0 (t.busAt h).lastDiscrepancy ∧
      (t.busAt h).lastDeviceFlag = decide ((t.busAt h).lastDiscrepancy = 0) := by
  rcases search_on_line_cases hi hu hne hf hline hds ht htrace hagree with ⟨hnone, _⟩ |
    ⟨_, r, ld, lfd, played, hres, hans, hld, rfl⟩
  · exact absurd hnone hsome
  · have hall : ∀ x ∈ searchedRoms ds c, romCrc x = 0 ∧ romByte x 0 ≠ 0 :=
      forall_searchedRoms.2 fun d hd _ => hvalid d hd
    obtain ⟨hcrc, hfam⟩ := hall r (hres.mem hans hsome)
    rw [State.resolved_valid _ _ _ _ _ hcrc hfam, State.answered_busAt, State.dbufStoreList_busAt,
      State.busAt_setBus_same (s.played played) h _ hl]
    exact ⟨hres, hans, rfl, hld, rfl⟩

end

/-- Settles O41: if devices take part the pass resolves the least of them, and leaves the slot at the frontier. -/
theorem freshSearchFindsTheFirstDevice : Obligations.FreshSearchFindsTheFirstDevice := by
  intro s t h i c ls ds slots hi hu hl hne hf hld hline hds hvalid ht htrace hagree
  refine ⟨search_of_none hi hu hne hf hline hds ht htrace hagree hl, fun hsome => ?_⟩
  obtain ⟨hres, hans, hrsp, hhigh, hflag⟩ := search_of_some hi hu hne hf hline hds ht htrace hagree hl hvalid hsome
  exact ⟨hrsp, hres.frontier hans hsome rfl hhigh, hres.least hans hsome hld, hflag⟩

/-- Settles O42: from the frontier the pass resolves the least device after the previous one. -/
theorem nextSearchFindsTheNextDevice : Obligations.NextSearchFindsTheNextDevice := by
  intro s t h i c ls ds slots hi hu hl hne hf hld hline hvalid hfront ht htrace hagree
  have hsome : searchedRoms ds c ≠ [] := List.ne_nil_of_mem hfront.rom_mem
  have hds : ds ≠ [] := by
    rintro rfl
    exact hsome rfl
  obtain ⟨hres, hans, hrsp, hhigh, hflag⟩ := search_of_some hi hu hne hf hline hds ht htrace hagree hl hvalid hsome
  exact ⟨hrsp, hres.frontier hans hsome rfl hhigh, (hres.after_previous hans hfront hld).key_lt,
    hres.next_least hans hfront hld, hflag⟩

end Sys2Proof.Machine
end

section
/-! SUPPORT. Repeated searches of a legal line (spec/43_search.md R173, R174): after each search the devices still to find are one
fewer, and when none is left the flag is set. -/

namespace Sys2Proof.Machine

open Sys2Proof

/-- The addresses that come after `r` in the order of discovery. -/
def codesAfter (roms : List RomCode) (r : RomCode) : List RomCode :=
  roms.filter fun x => decide (discoveryKey r < discoveryKey x)

theorem mem_codesAfter {roms : List RomCode} {r x : RomCode} :
    x ∈ codesAfter roms r ↔ x ∈ roms ∧ discoveryKey r < discoveryKey x := by
  simp [codesAfter]

theorem codesAfter_codesAfter (roms : List RomCode) {r r' : RomCode} (h : discoveryKey r < discoveryKey r') :
    codesAfter (codesAfter roms r) r' = codesAfter roms r' := by
  rw [codesAfter, codesAfter, List.filter_filter]
  refine List.filter_congr fun x _ => ?_
  rw [← Bool.decide_and]
  exact decide_eq_decide.2 (and_iff_left_of_imp h.trans)

/-- In a list without repetitions, the least address in the order of discovery and those after it are all there are. -/
theorem perm_cons_codesAfter {roms : List RomCode} {r : RomCode} (hnodup : roms.Nodup) (hr : r ∈ roms)
    (hleast : ∀ x ∈ roms, discoveryKey r ≤ discoveryKey x) : (r :: codesAfter roms r).Perm roms := by
  have hafter : codesAfter roms r = roms.erase r := by
    rw [hnodup.erase_eq_filter, codesAfter]
    refine List.filter_congr fun x hx => ?_
    rw [← Bool.coe_iff_coe, decide_eq_true_iff, bne_iff_ne, (hleast x hx).lt_iff_ne, discoveryKey_injective.ne_iff, ne_comm]
  rw [hafter]
  exact (List.perm_cons_erase hr).symm

/-- The addresses `rest` are those still to find in an enumeration of `roms` that has come to the slot `b`: all of them if it has
not begun, those after `rom` if it has. -/
def Bus.stillToFind (b : Bus) (roms rest : List RomCode) : Prop :=
  (b.lastDeviceFlag = false ∧ b.lastDiscrepancy = 0 ∧ rest = roms ∧ rest ≠ []) ∨
  (b.lastDeviceFlag = decide (b.lastDiscrepancy = 0) ∧ b.atFrontier roms ∧ rest = codesAfter roms b.rom)

/-- With no address left to find the flag is set. -/
theorem Bus.stillToFind.flag_of_nil {b : Bus} {roms : List RomCode} (hrest : b.stillToFind roms []) :
    b.lastDeviceFlag = true := by
  rcases hrest with ⟨_, _, _, hne⟩ | ⟨hf, hfront, hnil⟩
  · exact absurd rfl hne
  · refine hf.trans (decide_eq_true ?_)
    by_contra hld
    obtain ⟨x, hx, hafter⟩ := hfront.branchAt_lastDiscrepancy hld
    exact List.not_mem_nil (hnil ▸ mem_codesAfter.2 ⟨hx, hafter.key_lt⟩)

/-- What a bus and its line keep through an enumeration: a usable handle, write slots the trace can tell apart, and a line of
legal devices of which those with the addresses `roms` take part. -/
structure SearchBench (c : Byte) (roms : List RomCode) (s : State) (h : Nat) (ls : Lines) : Prop where
  usable : s.usable h
  writeLows : s.cfg.timing.tW1l ≠ s.cfg.timing.tW0l
  line : ∃ ds, ls (s.busAt h).pin = .devices ds ∧ (∀ d ∈ ds, d.valid) ∧ searchedRoms ds c = roms

section
variable {c : Byte} {roms rest : List RomCode} {h : Nat} {i : Instr} (hi : isSearch i h c)
include hi

theorem SearchBench.next {s t : State} {ls : Lines} (hb : SearchBench c roms s h ls) (ht : exec i s = .next t)
    (slots : List Slot) : SearchBench c roms t h (ls.afterAll slots) := by
  obtain ⟨⟨hbus, hinit⟩, hlows, ds, hline, hvalid, hroms⟩ := hb
  have hcfg := exec_cfg ht
  rcases exec_cases ht with ⟨pin, rfl, _⟩ | ⟨_, he⟩
  · exact absurd hi.handle nofun
  · obtain ⟨hpin, hinit'⟩ := he.binding h
    refine ⟨⟨hcfg ▸ hbus, hinit'.trans hinit⟩, hcfg ▸ hlows,
      ds.map fun d => d.afterAll (slotsOfPin (s.busAt h).pin slots), ?_, ?_, ?_⟩
    · rw [hpin, Lines.afterAll_pin, hline, Line.afterAll_devices]
    · exact List.forall_mem_map.2 fun d hd => by simpa [Device.valid] using hvalid d hd
    · rw [searchedRoms_map (by simp) (by simp), hroms]

/-- A search with addresses still to find finds the first of them in the order of discovery. -/
theorem SearchBench.finds_first {s t : State} {ls : Lines} {slots : List Slot} (hb : SearchBench c roms s h ls)
    (ht : exec i s = .next t) (htrace : t.wire.trace = s.wire.trace ++ slots.flatMap (slotEvents s.cfg.timing))
    (hagree : ls.agrees slots = true) (hrest : (s.busAt h).stillToFind roms rest) (hne : rest ≠ []) :
    t.rsp = okWord 0 ∧ (t.busAt h).rom ∈ rest ∧ (∀ x ∈ rest, discoveryKey (t.busAt h).rom ≤ discoveryKey x) ∧
    (t.busAt h).stillToFind roms (codesAfter rest (t.busAt h).rom) := by
  obtain ⟨hu, hlows, ds, hline, hvalid, rfl⟩ := hb
  have hl := s.lt_length_of_initialized h hu.2
  rcases hrest with ⟨hf, hld, rfl, _⟩ | ⟨hf, hfront, rfl⟩
  · have hds : ds ≠ [] := by
      rintro rfl
      exact hne rfl
    obtain ⟨hrsp, hfront, hleast, hflag⟩ :=
      (freshSearchFindsTheFirstDevice s t h i c ls ds slots hi hu hl hlows hf hld hline hds hvalid ht htrace hagree).2 hne
    exact ⟨hrsp, hfront.rom_mem, hleast, .inr ⟨hflag, hfront, rfl⟩⟩
  · obtain ⟨x, hx⟩ := List.exists_mem_of_ne_nil _ hne
    obtain ⟨hx, hlater⟩ := mem_codesAfter.1 hx
    have hld : (s.busAt h).lastDiscrepancy ≠ 0 := fun hld =>
      absurd (noDeviceIsLeftWhenDiscrepancyIsZero _ _ hfront hld x hx) (not_le.2 hlater)
    obtain ⟨hrsp, hfront', hafter, hleast, hflag⟩ := nextSearchFindsTheNextDevice s t h i c ls ds slots hi hu hl hlows
      (hf.trans (decide_eq_false hld)) hld hline hvalid hfront ht htrace hagree
    refine ⟨hrsp, mem_codesAfter.2 ⟨hfront'.rom_mem, hafter⟩, fun y hy => ?_,
      .inr ⟨hflag, hfront', codesAfter_codesAfter _ hafter⟩⟩
    obtain ⟨hy, hyafter⟩ := mem_codesAfter.1 hy
    exact hleast y hy hyafter

/-- As many searches as addresses still to find find them in order, and one more answers `NoMoreDevices`. -/
theorem runsOnLines_find_rest {u : State} (ts : List State) {s : State} {ls : Lines} (hb : SearchBench c roms s h ls)
    (hrest : (s.busAt h).stillToFind roms rest) (hnodup : rest.Nodup) (hlen : ts.length = rest.length)
    (hruns : runsOnLines i s ls (ts ++ [u])) :
    (ts.map fun t => (t.busAt h).rom).Perm rest ∧ (ts.map fun t => discoveryKey (t.busAt h).rom).Pairwise (· < ·) ∧
    (∀ t ∈ ts, t.rsp = okWord 0) ∧ u.rsp = failWord 9 ∧ (u.busAt h).lastDeviceFlag = true := by
  induction ts generalizing s ls rest with
  | nil =>
    obtain rfl := List.eq_nil_of_length_eq_zero hlen.symm
    obtain ⟨hu, _⟩ := hruns
    have hflag := Bus.stillToFind.flag_of_nil hrest
    obtain rfl := Host.Outcome.next.inj ((exec_search_flagSet hi hb.usable hflag).symm.trans hu)
    exact ⟨.nil, .nil, nofun, rfl, hflag⟩
  | cons t ts ih =>
    obtain ⟨ht, slots, htrace, hagree, hruns⟩ := hruns
    have hne : rest ≠ [] := List.ne_nil_of_length_pos (by rw [← hlen]; exact Nat.succ_pos _)
    obtain ⟨hrsp, hmem, hleast, hrest'⟩ := hb.finds_first hi ht htrace hagree hrest hne
    have hperm := perm_cons_codesAfter hnodup hmem hleast
    have hlen' := Nat.succ.inj (hlen.trans hperm.length_eq.symm)
    obtain ⟨hfound, hasc, hok, hlast⟩ := ih (hb.next hi ht slots) hrest' (hnodup.filter _) hlen' hruns
    refine ⟨(hfound.cons _).trans hperm, List.pairwise_cons.2 ⟨?_, hasc⟩, List.forall_mem_cons.2 ⟨hrsp, hok⟩, hlast⟩
    refine List.forall_mem_map.2 fun t' ht' => ?_
    have hlater := hfound.mem_iff.1 (List.mem_map_of_mem ht')
    exact (mem_codesAfter.1 hlater).2

end

/-- Settles O43: from a fresh slot every address is still to find, and the line keeps its devices from search to search. -/
theorem repeatedSearchFindsEveryDeviceOnce : Obligations.RepeatedSearchFindsEveryDeviceOnce := by
  intro s h i c ls ds ts u hi hu _ hne hf hld hline hlegal hsome hlen hruns
  rw [hline] at hlegal
  obtain ⟨hvalid, hnodup⟩ := hlegal
  have hroms : (searchedRoms ds c).Nodup := hnodup.sublist (List.filter_sublist.map Device.rom)
  exact runsOnLines_find_rest hi ts ⟨hu, hne, ds, hline, hvalid, rfl⟩ (.inl ⟨hf, hld, rfl, hsome⟩) hroms hlen hruns

end Sys2Proof.Machine
end

section
/-! SUPPORT. The CRC-8 function (spec/44_crc8.md R186 to R189): it depends only on the XOR of the checksum and the byte, loses
nothing, and is linear over messages; its bit-serial form; and what CRC8 and VERIFY answer (R190, R192). -/

namespace Sys2Proof.Machine

open Sys2Proof

/-! ### One byte (44 R187 (c)) -/

/-- Equal arguments never mix in the polynomial, so each round only shifts. -/
theorem crc8Rounds_self (n : Nat) (c : Byte) : crc8Rounds n c c = c >>> n := by
  induction n generalizing c with
  | zero => simp [crc8Rounds]
  | succ n ih => simp [crc8Rounds, crc8Round, ih, ← BitVec.shiftRight_add, Nat.add_comm]

@[simp] theorem crc8Byte_self (c : Byte) : crc8Byte c c = 0 :=
  (crc8Rounds_self 8 c).trans (BitVec.ushiftRight_eq_zero (Nat.le_refl 8))

theorem crc8Byte_eq_seed_xor (c b : Byte) : crc8Byte c b = crc8Byte (c ^^^ b) 0 := by
  have h := crc8Byte_xor (c ^^^ b) 0 b b
  simpa [BitVec.xor_assoc] using h

theorem crc8Byte_eq_table (c b : Byte) : crc8Byte c b = crc8Byte 0 (c ^^^ b) := by
  rw [crc8Byte_eq_seed_xor c b, crc8Byte_eq_seed_xor 0]
  exact congrArg (crc8Byte · 0) BitVec.zero_xor.symm

/-- A round moves the low bit to bit 7 and keeps the others, so only 0 goes to 0. -/
theorem eq_zero_of_crc8Round_eq_zero {crc : Byte} (h : crc8Round crc 0 = 0) : crc = 0 := by
  cases hlow : crc[0] with
  | true =>
    have htop := congrArg (BitVec.getLsbD · 7) h
    simp [crc8Round, hlow] at htop
  | false =>
    have hhigh : crc >>> 1 = 0 := by simpa [crc8Round, hlow] using h
    refine BitVec.eq_of_getLsbD_eq fun i hi => ?_
    cases i with
    | zero => simpa using hlow
    | succ i => simpa [Nat.add_comm] using congrArg (BitVec.getLsbD · i) hhigh

theorem eq_zero_of_crc8Rounds_eq_zero {n : Nat} {c : Byte} (h : crc8Rounds n c 0 = 0) : c = 0 := by
  induction n generalizing c with
  | zero => exact h
  | succ n ih => exact eq_zero_of_crc8Round_eq_zero (ih h)

/-- A byte clears the checksum exactly when it equals it (44 R188, R189). -/
theorem crc8Byte_eq_zero_iff {c b : Byte} : crc8Byte c b = 0 ↔ c = b := by
  constructor
  · intro h
    rw [crc8Byte_eq_seed_xor] at h
    exact BitVec.xor_eq_zero_iff.1 (eq_zero_of_crc8Rounds_eq_zero h)
  · rintro rfl
    exact crc8Byte_self c

theorem crc8Byte_eq_iff {c b c' b' : Byte} : crc8Byte c b = crc8Byte c' b' ↔ c ^^^ c' = b ^^^ b' := by
  rw [← crc8Byte_eq_zero_iff (c := c ^^^ c'), crc8Byte_xor]
  exact BitVec.xor_eq_zero_iff.symm

theorem crc8Byte_right_inj {c b b' : Byte} : crc8Byte c b = crc8Byte c b' ↔ b = b' := by
  rw [crc8Byte_eq_iff, BitVec.xor_self, eq_comm, BitVec.xor_eq_zero_iff]

theorem crc8Byte_left_inj {c c' b : Byte} : crc8Byte c b = crc8Byte c' b ↔ c = c' := by
  rw [crc8Byte_eq_iff, BitVec.xor_self, BitVec.xor_eq_zero_iff]

/-! ### Sequences of bytes (44 R187 to R189) -/

/-- Running over two messages of one length together, from any two seeds. -/
theorem foldl_crc8Byte_zipWith_xor {d e : List Byte} (h : d.length = e.length) (c c' : Byte) :
    (List.zipWith (· ^^^ ·) d e).foldl crc8Byte (c ^^^ c') = d.foldl crc8Byte c ^^^ e.foldl crc8Byte c' := by
  induction d generalizing e c c' with
  | nil =>
    obtain rfl := List.eq_nil_of_length_eq_zero h.symm
    rfl
  | cons b d ih =>
    obtain ⟨b', e, rfl⟩ := List.exists_cons_of_length_eq_add_one h.symm
    simp only [List.zipWith_cons_cons, List.foldl_cons, crc8Byte_xor]
    exact ih (Nat.succ.inj h) _ _

theorem foldl_crc8Byte_inj (d : List Byte) {c c' : Byte} : d.foldl crc8Byte c = d.foldl crc8Byte c' ↔ c = c' := by
  induction d generalizing c c' with
  | nil => rfl
  | cons b d ih => rw [List.foldl_cons, List.foldl_cons, ih, crc8Byte_left_inj]

/-- A changed byte changes the checksum at its place, and the bytes after it keep the difference. -/
theorem crc8_set_eq_iff (d : List Byte) {k : Nat} (hk : k < d.length) (v : Byte) :
    crc8 (d.set k v) = crc8 d ↔ v = d[k] := by
  have hd : d = d.take k ++ d[k] :: d.drop (k + 1) := by simp
  conv_lhs => rhs; rw [hd]
  rw [List.set_eq_take_append_cons_drop, if_pos hk]
  simp only [crc8, List.foldl_append, List.foldl_cons]
  rw [foldl_crc8Byte_inj, crc8Byte_right_inj]

theorem crc8_replicate_zero (n : Nat) : crc8 (List.replicate n 0) = 0 := by
  induction n with
  | zero => rfl
  | succ n ih => rw [List.replicate_succ', crc8_snoc, ih, crc8Byte_self]

/-- Settles O49: a byte equal to the checksum so far clears it; zero bytes keep it clear. -/
theorem appendedCrcGivesZero : Obligations.AppendedCrcGivesZero :=
  ⟨fun d => (crc8_snoc d _).trans (crc8Byte_self _), crc8_replicate_zero⟩

/-! ### The bit-serial form (44 R187 (a)) -/

/-- One bit into the running checksum. -/
def crc8Bit (crc : Byte) (bit : Bool) : Byte := (crc >>> 1) ^^^ (if crc.getLsbD 0 != bit then 0x8C#8 else 0#8)

theorem crc8Round_eq_crc8Bit (c b : Byte) : crc8Round c b = crc8Bit c (b.getLsbD 0) := by
  rw [crc8Round, crc8Bit, BitVec.getLsbD_xor]
  cases c.getLsbD 0 <;> cases b.getLsbD 0 <;> simp

theorem crc8Rounds_eq_foldl_crc8Bit (n : Nat) (c b : Byte) :
    crc8Rounds n c b = ((List.range n).map fun j => b.getLsbD j).foldl crc8Bit c := by
  induction n generalizing c b with
  | zero => rfl
  | succ n ih =>
    rw [crc8Rounds, ih, crc8Round_eq_crc8Bit, List.range_succ_eq_map, List.map_cons, List.foldl_cons, List.map_map]
    simp [Function.comp_def, Nat.add_comm]

theorem crc8_eq_foldl_crc8Bit (d : List Byte) :
    crc8 d = (d.flatMap fun v => (List.range 8).map fun j => v.getLsbD j).foldl crc8Bit 0 := by
  rw [List.foldl_flatMap, crc8]
  exact congrArg (List.foldl · 0 d) (funext₂ (crc8Rounds_eq_foldl_crc8Bit 8))

/-- Settles O48: the rounds of a byte are its bits fed one by one, and the byte and the message are linear. -/
theorem crcHasItsEquivalentForms : Obligations.CrcHasItsEquivalentForms :=
  ⟨crc8_eq_foldl_crc8Bit, fun d b => (crc8_snoc d b).trans (crc8Byte_eq_table _ b), by decide, crc8Byte_eq_table,
    fun _ _ h => foldl_crc8Byte_zipWith_xor h 0 0⟩

/-! ### Addresses (44 R189) -/

theorem getElem_romBytes (r : RomCode) {k : Nat} (hk : k < (romBytes r).length) : (romBytes r)[k] = romByte r k := by
  simp [romBytes]

theorem getLsbD_xor_shiftLeft_one (r : RomCode) {p : Nat} (hp : p < 64) (q : Nat) :
    (r ^^^ (1#64 <<< p)).getLsbD q = (r.getLsbD q ^^ decide (p = q)) := by
  rw [← BitVec.twoPow_eq, BitVec.getLsbD_xor, BitVec.getLsbD_twoPow, decide_eq_true hp, Bool.true_and]

/-- A change of one bit leaves every byte but the one that holds it. -/
theorem romByte_xor_shiftLeft_one_other (r : RomCode) {p i : Nat} (hp : p < 64) (hi : i ≠ p / 8) :
    romByte (r ^^^ (1#64 <<< p)) i = romByte r i := by
  refine BitVec.eq_of_getLsbD_eq fun j hj => ?_
  have hne : p ≠ 8 * i + j := by omega
  rw [getLsbD_romByte, getLsbD_romByte, getLsbD_xor_shiftLeft_one r hp, decide_eq_false hne, Bool.xor_false]

/-- A change of one bit changes the byte that holds it. -/
theorem romByte_xor_shiftLeft_one_ne (r : RomCode) {p : Nat} (hp : p < 64) :
    romByte (r ^^^ (1#64 <<< p)) (p / 8) ≠ romByte r (p / 8) := by
  intro h
  have hj : p % 8 < 8 := Nat.mod_lt p (by decide)
  have hbit := congrArg (BitVec.getLsbD · (p % 8)) h
  simp only [getLsbD_romByte, getLsbD_xor_shiftLeft_one r hp, Nat.div_add_mod, hj, decide_true, Bool.true_and,
    Bool.xor_true] at hbit
  exact Bool.not_ne_self _ hbit

theorem romBytes_xor_shiftLeft_one (r : RomCode) {p : Nat} (hp : p < 64) :
    romBytes (r ^^^ (1#64 <<< p)) = (romBytes r).set (p / 8) (romByte (r ^^^ (1#64 <<< p)) (p / 8)) := by
  refine List.ext_getElem (by simp) fun i hi _ => ?_
  rw [List.getElem_set, getElem_romBytes, getElem_romBytes]
  split
  case isTrue h => rw [h]
  case isFalse h => exact romByte_xor_shiftLeft_one_other r hp (Ne.symm h)

/-- One changed bit changes one byte, and with it the CRC. -/
theorem romCrc_xor_shiftLeft_one_ne (r : RomCode) {p : Nat} (hp : p < 64) : romCrc (r ^^^ (1#64 <<< p)) ≠ romCrc r := by
  have hk : p / 8 < (romBytes r).length := by rw [romBytes_length]; omega
  rw [romCrc, romCrc, romBytes_xor_shiftLeft_one r hp, Ne, crc8_set_eq_iff _ hk, getElem_romBytes]
  exact romByte_xor_shiftLeft_one_ne r hp

/-- Settles O50: byte 7 clears the checksum exactly when it equals it, and a changed bit changes the CRC. -/
theorem crcDetectsEverySingleBitError : Obligations.CrcDetectsEverySingleBitError := fun r =>
  ⟨by rw [romCrc_eq, crc8Byte_eq_zero_iff, eq_comm], fun hr _ hp => hr ▸ romCrc_xor_shiftLeft_one_ne r hp⟩

/-! ### CRC8 and VERIFY (44 R190, R192) -/

theorem exec_crc8_ok (s : State) {len : Nat} (h : len ≤ s.cfg.lBuf) :
    exec (.crc8 len) s = .next (s.answered (okWord ((crc8 (s.dbufBytes len)).setWidth 16))) := by
  simp only [exec, execCrc8, s.checked_length_ok len _ h, State.ret_eq]

theorem exec_verify_ok (s : State) {len : Nat} (h : len ≤ s.cfg.lBuf) :
    exec (.verify len) s = .next (s.answered (if crc8 (s.dbufBytes len) = 0 then okWord 0 else failWord 6)) := by
  simp only [exec, execVerify, s.checked_length_ok len _ h, State.ret_eq, s.raise_eq .crcMismatch (by decide)]
  split <;> rfl

/-- Settles O46: the length check, then the CRC of the buffer's bytes. -/
theorem crc8AnswersTheBufferCrc : Obligations.Crc8AnswersTheBufferCrc :=
  ⟨encodedAs_readFrom (.crc8 0), fun s len =>
    ⟨fun hlong => congrArg Host.Outcome.next (s.checked_length_bad len _ hlong), exec_crc8_ok s⟩⟩

/-- Settles O47: the length check, then the test of the buffer's CRC. -/
theorem verifyTestsTheBufferCrc : Obligations.VerifyTestsTheBufferCrc :=
  ⟨encodedAs_readFrom (.verify 0), fun s len =>
    ⟨fun hlong => congrArg Host.Outcome.next (s.checked_length_bad len _ hlong), exec_verify_ok s⟩⟩

end Sys2Proof.Machine
end

section
/-! SUPPORT. The engine straight after reset (spec/70_reset_and_hazards.md R232): no slot is allocated. -/

namespace Sys2Proof.Machine

open Sys2Proof

theorem State.findPin_resetWith (c : Config) (epoch : Nat) (pin : PinId) : (State.resetWith c epoch).findPin pin = none := rfl

/-- Settles O10: no pin is found, no slot is initialized, and the first slot is free. -/
theorem straightAfterResetNoBusIsUsable : Obligations.StraightAfterResetNoBusIsUsable := by
  intro c epoch ⟨⟨hnBus, _⟩, _⟩
  refine ⟨fun pin => exec_lookup_missing _ (State.findPin_resetWith c epoch pin), fun i h hh => ?_, fun pin => ?_⟩
  · obtain ⟨⟨hmissing, huninitialized⟩, _⟩ := everyHandleIsCheckedFirst (State.resetWith c epoch) i h hh
    split
    · next hm => exact hmissing hm
    · next hm =>
      exact huninitialized (Nat.lt_of_not_le hm) (congrArg Bus.initialized (State.resetWith_busAt c epoch h))
  · have hroom : 0 ≠ c.nBus := Nat.ne_of_lt hnBus
    exact ⟨_, congrArg Host.Outcome.next (State.acquire_fresh _ (State.findPin_resetWith c epoch pin) hroom), rfl, rfl⟩

end Sys2Proof.Machine
end

section
/-! SUPPORT. How long operations last (spec/70_reset_and_hazards.md R249): an operation lasts as long as the slots it plays, and a
slot's delays come to its total in every table that meets the constraints of spec/00_scope.md R13. -/

namespace Sys2Proof.Machine

open Sys2Proof

/-! ### The duration of slots -/

/-- The total of a slot (70 R249): `T_RSTL + T_PDS + T_RSTH`, `T_SLOT + T_REC`, `T_SLOT`. -/
def Slot.duration (t : Timing) : Slot → Nat
  | .reset _ _ => t.tRstl + t.tPds + t.tRsth
  | .write _ _ => t.tSlot + t.tRec
  | .read _ _ => t.tSlot

/-- The total of a sequence of slots. -/
def durationTotal (t : Timing) (slots : List Slot) : Nat := (slots.map (Slot.duration t)).sum

section
variable (t : Timing)

@[simp] theorem Slot.duration_reset (pin : PinId) (presence : Bool) :
    (Slot.reset pin presence).duration t = t.tRstl + t.tPds + t.tRsth := rfl
@[simp] theorem Slot.duration_write (pin : PinId) (b : Bool) : (Slot.write pin b).duration t = t.tSlot + t.tRec := rfl
@[simp] theorem Slot.duration_read (pin : PinId) (b : Bool) : (Slot.read pin b).duration t = t.tSlot := rfl

@[simp] theorem durationTotal_nil : durationTotal t [] = 0 := rfl
@[simp] theorem durationTotal_cons (slot : Slot) (slots : List Slot) :
    durationTotal t (slot :: slots) = slot.duration t + durationTotal t slots := by
  simp [durationTotal]
@[simp] theorem durationTotal_append (xs ys : List Slot) :
    durationTotal t (xs ++ ys) = durationTotal t xs + durationTotal t ys := by
  simp [durationTotal]

/-- Equally long slots. -/
theorem durationTotal_map {α : Type} (f : α → Slot) (n : Nat) (hf : ∀ a, (f a).duration t = n) (as : List α) :
    durationTotal t (as.map f) = as.length * n := by
  simp [durationTotal, Function.comp_def, hf]

/-- Equally long groups of slots. -/
theorem durationTotal_flatMap {α : Type} (f : α → List Slot) (n : Nat) (hf : ∀ a, durationTotal t (f a) = n) (as : List α) :
    durationTotal t (as.flatMap f) = as.length * n := by
  induction as with
  | nil => simp
  | cons a as ih => simp [hf, ih, Nat.succ_mul, Nat.add_comm]

@[simp] theorem durationTotal_writeSlots (pin : PinId) (vs : List Byte) :
    durationTotal t (writeSlots pin vs) = 8 * vs.length * (t.tSlot + t.tRec) := by
  have hbyte : ∀ v : Byte, durationTotal t ((byteBits v).map fun b => .write pin b) = 8 * (t.tSlot + t.tRec) := fun v => by
    rw [durationTotal_map t _ _ (Slot.duration_write t pin), byteBits_length]
  rw [writeSlots, durationTotal_flatMap t _ _ hbyte, ← Nat.mul_assoc, Nat.mul_comm vs.length]

@[simp] theorem durationTotal_readSlots (w : Wire) (pin : PinId) (start n : Nat) :
    durationTotal t (w.readSlots pin start n) = n * t.tSlot := by
  rw [Wire.readSlots, durationTotal_map t _ _ fun _ => Slot.duration_read t pin _, List.length_range]

@[simp] theorem durationTotal_passStart (pin : PinId) (c : Byte) :
    durationTotal t (passStart pin c) = t.tRstl + t.tPds + t.tRsth + 8 * (t.tSlot + t.tRec) := by
  simp [passStart]

/-- A position of a search is two read slots and a write slot (43 R163). -/
theorem durationTotal_positionSlots (w : Wire) (pin : PinId) (r : RomCode) (p : Nat) :
    durationTotal t (w.positionSlots pin r p) = 2 * t.tSlot + (t.tSlot + t.tRec) := by
  simp only [Wire.positionSlots, durationTotal_cons, durationTotal_nil, Slot.duration]
  omega

@[simp] theorem durationTotal_passSlots (w : Wire) (pin : PinId) (c : Byte) (r : RomCode) (n : Nat) :
    durationTotal t (w.passSlots pin c r n) =
      t.tRstl + t.tPds + t.tRsth + 8 * (t.tSlot + t.tRec) + n * (2 * t.tSlot + (t.tSlot + t.tRec)) := by
  have hpositions := durationTotal_flatMap t (fun k => w.positionSlots pin r (k + 1)) _
    (fun k => durationTotal_positionSlots t w pin r (k + 1)) (List.range n)
  simp [Wire.passSlots, hpositions, Nat.add_assoc]

end

/-! ### The delays of slots -/

theorem delayTotal_nil : delayTotal [] = 0 := rfl

theorem delayTotal_cons (e : Event) (es : List Event) : delayTotal (e :: es) = e.micros + delayTotal es := by
  simp [delayTotal]

theorem delayTotal_append (xs ys : List Event) : delayTotal (xs ++ ys) = delayTotal xs + delayTotal ys := by
  simp [delayTotal]

section
variable {t : Timing} (ht : t.wf)
include ht

/-- No remainder saturates (00 R13), so the delays of a slot come to its total. -/
theorem delayTotal_slotEvents (slot : Slot) : delayTotal (slotEvents t slot) = slot.duration t := by
  obtain ⟨_, hw1, hw0, hrd, _⟩ := ht
  have hlow : ∀ b : Bool, (if b then t.tW1l else t.tW0l) ≤ t.tSlot := Bool.forall_bool.2 ⟨hw0, hw1⟩
  cases slot with
  | reset pin presence =>
    simp only [slotEvents, delayTotal_cons, delayTotal_nil, Event.micros, Slot.duration]
    omega
  | write pin b =>
    have hremainder := hlow b
    simp only [slotEvents, delayTotal_cons, delayTotal_nil, Event.micros, Slot.duration]
    omega
  | read pin b =>
    simp only [slotEvents, delayTotal_cons, delayTotal_nil, Event.micros, Slot.duration]
    omega

theorem delayTotal_slots (slots : List Slot) : delayTotal (slots.flatMap (slotEvents t)) = durationTotal t slots := by
  induction slots with
  | nil => rfl
  | cons slot slots ih =>
    rw [List.flatMap_cons, delayTotal_append, delayTotal_slotEvents ht slot, ih, durationTotal_cons]

end

/-- An operation lasts as long as the slots it plays. -/
theorem lasts_of_play {i : Instr} {s t : State} {slots : List Slot} {n : Nat} (ht : s.cfg.timing.wf) (he : exec i s = .next t)
    (hw : t.wire = s.wire.play s.cfg.timing slots) (hn : durationTotal s.cfg.timing slots = n) : lasts i s n :=
  ⟨t, _, he, hw ▸ Wire.play_trace _ _ slots, (delayTotal_slots ht slots).trans hn⟩

/-! ### READ_ROM and the searches -/

/-- The samples from number 1 on are the positions of some address (20 R51). -/
theorem Wire.exists_romCode_of_samples (w : Wire) : ∃ r : RomCode, ∀ p, 1 ≤ p → p ≤ 64 → romBit r p = w.bitAt p := by
  refine ⟨BitVec.ofFnLE fun i : Fin 64 => w.bitAt (i + 1), fun p hp hp64 => ?_⟩
  have hlt : p - 1 < 64 := by omega
  simp [romBit, hlt, Nat.sub_add_cancel hp]

section
variable {s : State} {h : Nat} (ht : s.cfg.timing.wf) (hu : s.usable h)
include ht hu

/-- Whatever the CRC of the address read says. -/
theorem lasts_readRom_presence (ha : s.wire.answerAt 0 = .low) :
    lasts (.readRom h) s (s.cfg.timing.tRstl + s.cfg.timing.tPds + s.cfg.timing.tRsth +
      8 * (s.cfg.timing.tSlot + s.cfg.timing.tRec) + 64 * s.cfg.timing.tSlot) := by
  obtain ⟨r, hr⟩ := s.wire.exists_romCode_of_samples
  refine lasts_of_play (slots := passStart (s.busAt h).pin cmdReadRom ++ s.wire.readSlots (s.busAt h).pin 1 64) ht
    (exec_readRom_presence s hu ha hr) ?_ (by simp)
  dsimp only
  split <;> rfl

theorem lasts_search_noPresence {i : Instr} {c : Byte} (hi : isSearch i h c) (hf : (s.busAt h).lastDeviceFlag = false)
    (ha : s.wire.answerAt 0 = .high) : lasts i s (s.cfg.timing.tRstl + s.cfg.timing.tPds + s.cfg.timing.tRsth) :=
  lasts_of_play ht (exec_search_noPresence hi hu hf ha) rfl (by simp)

/-- A pass that finds somebody at every position is a full one, whatever the address it resolves. -/
theorem lasts_search_full {i : Instr} {c : Byte} (hi : isSearch i h c) (hf : (s.busAt h).lastDeviceFlag = false)
    (ha : s.wire.answerAt 0 = .low) (hall : ∀ q, 1 ≤ q → q ≤ 64 → ¬ (s.wire.idAt q = true ∧ s.wire.cmpAt q = true)) :
    lasts i s (s.cfg.timing.tRstl + s.cfg.timing.tPds + s.cfg.timing.tRsth +
      8 * (s.cfg.timing.tSlot + s.cfg.timing.tRec) +
      64 * (2 * s.cfg.timing.tSlot + (s.cfg.timing.tSlot + s.cfg.timing.tRec))) := by
  rcases exec_search_pass_cases hi hu hf ha with ⟨_, k, hk, _, _, hid, hcmp, _⟩ | ⟨r, ld, lfd, _, _, _, _, e⟩
  · exact absurd ⟨hid, hcmp⟩ (hall (k + 1) (by omega) (by omega))
  · exact lasts_of_play ht e (State.resolved_wire ..) (durationTotal_passSlots ..)

end

/-- Settles O58: each operation is played as slots, and `durationTotal` adds them up. -/
theorem durationsAreTheSlotTotals : Obligations.DurationsAreTheSlotTotals := by
  rintro s h _ _ _ ht hu rfl rfl rfl
  refine ⟨lasts_of_play ht (exec_reset_usable s hu) rfl (by simp),
    fun bit => lasts_of_play ht (exec_writeBit_usable s hu bit) rfl (by simp),
    lasts_of_play ht (exec_readBit_usable s hu) rfl (by simp),
    fun v => lasts_of_play ht (exec_writeByte_usable s hu v) rfl (by simp),
    lasts_of_play ht (exec_readByte_usable s hu) rfl (by simp),
    fun len hl => ⟨lasts_of_play ht (exec_writeBytes_usable s hu hl) rfl (by simp),
      lasts_of_play ht (exec_readBytes_usable s hu hl) rfl (by simp)⟩,
    lasts_of_play ht (exec_skipRom_usable s hu) rfl (by simp),
    lasts_of_play ht (exec_matchRom_usable s hu) rfl (by simp),
    fun ha => ⟨?_, lasts_readRom_presence ht hu ha, fun i c hi hf => lasts_search_full ht hu hi hf ha⟩,
    fun ha => ⟨?_, ?_, fun i c hi hf => lasts_search_noPresence ht hu hi hf ha⟩⟩
  · exact lasts_of_play ht (exec_select_presence s hu ha) rfl (by simp)
  · exact lasts_of_play ht (exec_select_noPresence s hu ha) rfl (by simp)
  · exact lasts_of_play ht (exec_readRom_noPresence s hu ha) rfl (by simp)

end Sys2Proof.Machine
end
